-- ==== Sys2Proof/Word.lean ====
section
/-! DEFINITION. The word types of the block: the register widths of spec/00_scope.md R8 and the token
of spec/30_encoding.md R82. -/

namespace Sys2Proof

/-- The input/output unit, 8 bits (00_scope.md R7). -/
abbrev Byte := BitVec 8

/-- An input token, `tok[9:0]`: kind in bits 9:8, data in bits 7:0 (30_encoding.md R82). -/
abbrev Tok := BitVec 10

/-- An entry of a level table: `CNT_W` = `IDX_W` = 9 bits (00_scope.md R8). -/
abbrev Entry := BitVec 9

/-- A level table of 24 entries indexed by level 0..23 (20_memory.md R62). -/
abbrev Table := Vector Entry 24

end Sys2Proof
end

