-- ==== Sys2Proof/Config.lean ====
section
/-! DEFINITION. What an implementation fixes: the parameters of spec/00_scope.md R7 and R8, and the
one free value of the model, the symbol memory's contents before anything is written. -/

namespace Sys2Proof

/-- The open parameter of the block (00_scope.md R8, 92_eei_decisions.md): `COUNT_W`, the width of
OUT_COUNT, any value of at least 1. -/
structure Config where
  countW : Nat
  deriving DecidableEq, Repr

namespace Config

/-- The spec's default, COUNT_W = 32 (00_scope.md R8). -/
def default : Config := ⟨32⟩

/-- `MIN_LEVELS` (00_scope.md R7). -/
def minLevels : Nat := 1

/-- `MAX_LEVELS` (00_scope.md R7). -/
def maxLevels : Nat := 24

/-- `SYMTAB_ENTRIES`: the symbol memory has addresses 0 to 255 (00_scope.md R7, 20_memory.md R60). -/
def symtabEntries : Nat := 256

/-- The largest value OUT_COUNT can hold, 2^COUNT_W - 1 (10_state.md R36). -/
def maxCount (c : Config) : Nat := 2 ^ c.countW - 1

/-- What a symbol-memory address reads as while nothing has been written to it. The spec leaves the
contents "unspecified, never read" (10_state.md R41) and asks for any value (93 I5): a FREE VALUE, one
for each address, of which nothing can be proved. Log 4. -/
opaque powerOnSymbol : Nat → Byte

end Config

end Sys2Proof
end

