-- ==== Sys2Proof/Syntax.lean ====
section
/-! DEFINITION. The syntax of the block: tokens, phases, the thirteen operations of
spec/opcode_table.json (spec/30_encoding.md R86), the signals an operation is selected from
(spec/42_descriptor_lifecycle.md R175) and the containers the block consumes (spec/30_encoding.md R80). -/

namespace Sys2Proof

/-- What `take()` returns (30_encoding.md R82). -/
inductive Token where
  /-- `Byte(b)`: the next input byte is b. -/
  | byte (b : Byte)
  /-- `End`: the input has no more bytes. -/
  | eod
  /-- `Err`: the provider failed to read. -/
  | err
  deriving DecidableEq, Repr

/-- What `put(b)` returns (30_encoding.md R84). -/
inductive Answer where
  | ok
  | fail
  deriving DecidableEq, Repr

/-- The eleven named sequencer states (10_state.md R37). -/
inductive Phase where
  | idle
  | hdrDepth
  | hdrCounts
  | sumCheck
  | eobReserve
  | symtab
  | eobAccount
  | build
  | decode
  | done
  | failed
  deriving DecidableEq, Repr

/-- The operations, one constructor for each row of spec/opcode_table.json (30_encoding.md R86). A token
operation carries the token its `take()` returned, BIT the bit it consumes. -/
inductive Instr where
  /-- RESET, 42_descriptor_lifecycle.md R170. -/
  | reset
  /-- START, 42_descriptor_lifecycle.md R171. -/
  | start
  /-- RD_DEPTH, 40_tree_builder.md R111. -/
  | rdDepth (tok : Token)
  /-- RD_COUNT, 40_tree_builder.md R112. -/
  | rdCount (tok : Token)
  /-- SUMCHK, 40_tree_builder.md R113. -/
  | sumchk
  /-- EOBRES, 40_tree_builder.md R114. -/
  | eobres
  /-- RD_SYM, 40_tree_builder.md R115. -/
  | rdSym (tok : Token)
  /-- SYM_NEXT, 40_tree_builder.md R116. -/
  | symNext
  /-- EOBACC, 40_tree_builder.md R117. -/
  | eobacc
  /-- DERIVE, 40_tree_builder.md R118. -/
  | derive
  /-- EMIT, 41_bit_walker.md R143. -/
  | emit
  /-- FETCH, 41_bit_walker.md R141. -/
  | fetch (tok : Token)
  /-- BIT, 41_bit_walker.md R142; `b` is SR[7]. -/
  | bit (b : Bool)
  deriving DecidableEq, Repr

/-- The signals that select the operation of a step and give its operand: everything R175 of
42_descriptor_lifecycle.md reads, the token offered to `take()` (absent while none is offered) and the
bit SR[7]. It plays the part of an instruction word (log 14). -/
structure OpWord where
  rst    : Bool
  start  : Bool
  phase  : BitVec 4
  /-- REM > 0 -/
  remPos : Bool
  opend  : Bool
  /-- BL > 0 -/
  blPos  : Bool
  /-- SR[7] -/
  sr7    : Bool
  tok    : Option Tok
  deriving DecidableEq, Repr

/-- What the selection of 42_descriptor_lifecycle.md R175 answers. -/
inductive Decoded where
  /-- One operation, with its operand. -/
  | instr (i : Instr)
  /-- No operation: the block is quiescent (R176). -/
  | quiescent
  /-- A token operation is selected and its `take()` is not answered: a hold (70 R229). -/
  | waiting
  /-- PHASE is 11..15: "unreachable; a model refuses the state" (R175). -/
  | reservedPhase
  deriving DecidableEq, Repr

/-- A container (30_encoding.md R80): the transmitted counts t[0..DEPTH-1] (their number is the depth
byte), the stored symbols, and the bits of the bitstream, first bit first. -/
structure Container where
  counts  : List Byte
  symbols : List Byte
  bits    : List Bool
  deriving DecidableEq, Repr

/-- A line of the bitstream part of a container in the notation of 30_encoding.md R96 and R97. -/
inductive BitLine where
  /-- `.bits 0101...` -/
  | bits (bs : List Bool)
  /-- `.bytes hh hh ...`, after the current byte is padded. -/
  | bytes (bs : List Byte)
  /-- `.code x`: the first reachable stored symbol of value x. -/
  | code (x : Byte)
  /-- `.code @a`: the stored symbol at address a. -/
  | codeAt (a : Nat)
  /-- `.eob` -/
  | eob
  /-- `.pad` -/
  | pad
  deriving DecidableEq, Repr

end Sys2Proof
end

