-- ==== Sys2Proof/WellFormed.lean ====
section
/-! DEFINITION. Well-formedness of the terms of Syntax. Every term of `Instr` is well formed: a token
operand is one of the three tokens `take()` can return and BIT's operand is a bit (spec/30_encoding.md
R82, R86). What can be ill formed is a parameter, a provider's token sequence and a container. -/

namespace Sys2Proof

/-- COUNT_W: "any value >= 1 is admitted" (00_scope.md R8). -/
def Config.wellFormed (c : Config) : Bool := decide (1 ≤ c.countW)

/-- The provider's tokens of one session: "offer bytes in container order, then End (or Err) once; offer
nothing after End or Err" (42_descriptor_lifecycle.md R178, 30_encoding.md R83). -/
def Token.sequenceWellFormed : List Token → Bool
  | [] => true
  | .byte _ :: rest => Token.sequenceWellFormed rest
  | .eod :: rest => rest.isEmpty
  | .err :: rest => rest.isEmpty

/-- S, the sum of the transmitted counts (00_scope.md R15). -/
def Container.total (c : Container) : Nat := (c.counts.map BitVec.toNat).sum

/-- A container whose header the builder accepts (30_encoding.md R80, R91, R92): 1 to 24 levels, S + 1 at
most 256, and S + 1 stored symbols. -/
def Container.wellFormed (c : Container) : Bool :=
  decide (Config.minLevels ≤ c.counts.length) && decide (c.counts.length ≤ Config.maxLevels) &&
    decide (c.total + 1 ≤ Config.symtabEntries) && decide (c.symbols.length = c.total + 1)

end Sys2Proof
end

