-- ==== Sys2Proof/Decode.lean ====
section
/-! DEFINITION. Decoding: the token kinds of spec/30_encoding.md R82, the phase encodings of
spec/10_state.md R37 and the operation selection of spec/42_descriptor_lifecycle.md R175; then the
encoder, and the decoder of one word as spec/opcode_table.json numbers its bits. -/

namespace Sys2Proof

/-- Token kinds, `tok[9:8]` (30_encoding.md R82): 0b00 a byte, 0b01 End, 0b10 Err; the reserved kind 0b11
is read as Err (R95). -/
def Token.ofBits (w : Tok) : Token :=
  match (w.extractLsb' 8 2).toNat with
  | 0 => .byte (w.extractLsb' 0 8)
  | 1 => .eod
  | _ => .err

/-- The 10 bits of a token, with the ignored data bits of End and Err at zero (30_encoding.md R82). -/
def Token.toBits : Token → Tok
  | .byte b => 0#2 ++ b
  | .eod => 1#2 ++ 0#8
  | .err => 2#2 ++ 0#8

/-- The encodings of PHASE (10_state.md R37). -/
def Phase.bits : Phase → BitVec 4
  | .idle => 0#4
  | .hdrDepth => 1#4
  | .hdrCounts => 2#4
  | .sumCheck => 3#4
  | .eobReserve => 4#4
  | .symtab => 5#4
  | .eobAccount => 6#4
  | .build => 7#4
  | .decode => 8#4
  | .done => 9#4
  | .failed => 10#4

/-- The phase a value of PHASE names; 11..15 are reserved (10_state.md R37). -/
def Phase.ofBits (v : BitVec 4) : Option Phase :=
  match v.toNat with
  | 0 => some .idle
  | 1 => some .hdrDepth
  | 2 => some .hdrCounts
  | 3 => some .sumCheck
  | 4 => some .eobReserve
  | 5 => some .symtab
  | 6 => some .eobAccount
  | 7 => some .build
  | 8 => some .decode
  | 9 => some .done
  | 10 => some .failed
  | _ => none

/-- A token operation fires only when its `take()` is answered (42_descriptor_lifecycle.md R175). -/
def decodeToken (w : OpWord) (op : Token → Instr) : Decoded :=
  match w.tok with
  | some t => .instr (op (Token.ofBits t))
  | none => .waiting

/-- Operation selection (42_descriptor_lifecycle.md R175): RESET first, START only in IDLE, DONE and
FAILED, then the case on PHASE. -/
def decode (w : OpWord) : Decoded :=
  if w.rst then .instr .reset
  else
    match Phase.ofBits w.phase with
    | some .idle => if w.start then .instr .start else .quiescent
    | some .hdrDepth => decodeToken w .rdDepth
    | some .hdrCounts => decodeToken w .rdCount
    | some .sumCheck => .instr .sumchk
    | some .eobReserve => .instr .eobres
    | some .symtab => if w.remPos then decodeToken w .rdSym else .instr .symNext
    | some .eobAccount => .instr .eobacc
    | some .build => .instr .derive
    | some .decode =>
      if w.opend then .instr .emit
      else if w.blPos then .instr (.bit w.sr7)
      else decodeToken w .fetch
    | some .done => if w.start then .instr .start else .quiescent
    | some .failed => if w.start then .instr .start else .quiescent
    | none => .reservedPhase

/-- The signals of phase `p` with every other input low, from which the encoder builds its words. -/
def OpWord.inPhase (p : Phase) : OpWord :=
  { rst := false, start := false, phase := p.bits, remPos := false, opend := false, blPos := false
    sr7 := false, tok := none }

/-- The signals that select an operation, from the columns of the operation map (30_encoding.md R86);
signals its row does not name are low (log 14). -/
def encode : Instr → OpWord
  | .reset => { OpWord.inPhase .idle with rst := true }
  | .start => { OpWord.inPhase .idle with start := true }
  | .rdDepth t => { OpWord.inPhase .hdrDepth with tok := some t.toBits }
  | .rdCount t => { OpWord.inPhase .hdrCounts with tok := some t.toBits }
  | .sumchk => OpWord.inPhase .sumCheck
  | .eobres => OpWord.inPhase .eobReserve
  | .rdSym t => { OpWord.inPhase .symtab with remPos := true, tok := some t.toBits }
  | .symNext => OpWord.inPhase .symtab
  | .eobacc => OpWord.inPhase .eobAccount
  | .derive => OpWord.inPhase .build
  | .emit => { OpWord.inPhase .decode with opend := true }
  | .fetch t => { OpWord.inPhase .decode with tok := some t.toBits }
  | .bit b => { OpWord.inPhase .decode with blPos := true, sr7 := b }

/-- The operations that take one input token (30_encoding.md R86, column "consumes"). -/
def Instr.takesToken : Instr → Bool
  | .rdDepth _ => true
  | .rdCount _ => true
  | .rdSym _ => true
  | .fetch _ => true
  | .reset => false
  | .start => false
  | .sumchk => false
  | .eobres => false
  | .symNext => false
  | .eobacc => false
  | .derive => false
  | .emit => false
  | .bit _ => false

/-- A table word of `nbits` bits as a 10-bit token; a word with a bit above bit 9 is no token. -/
def tableToken (nbits w : Nat) : Option Tok :=
  if w % 2 ^ nbits < 1024 then some (BitVec.ofNat 10 (w % 2 ^ nbits)) else none

/-- The instruction a bare table word names. Only the four token rows have words, and the four share
their match and mask, so the phase decides: a bare token is read as the first token of a session, in
phase HDR_DEPTH, where `State.withFetchWord` places it (log 8). -/
def decodeTableWord (nbits w : Nat) : Option Instr :=
  match tableToken nbits w with
  | none => none
  | some t =>
    match decode { OpWord.inPhase .hdrDepth with tok := some t } with
    | .instr i => some i
    | .quiescent => none
    | .waiting => none
    | .reservedPhase => none

end Sys2Proof
end

