-- ==== Sys2Proof/Machine/State.lean ====
section
/-! DEFINITION. The state of the block (spec/10_state.md, whole list in R41), the host's side of its ports
as plain data, the errors of spec/60_exceptions.md R190, and the model's faults and refusals. -/

namespace Sys2Proof.Machine

/-- The control and handshake inputs of one step (30_encoding.md R83, R84, R85). The token an asserted
`inValid` offers is the head of `State.input`. -/
structure Pins where
  rst      : Bool
  start    : Bool
  inValid  : Bool
  outReady : Bool
  outErr   : Bool
  deriving DecidableEq, Repr

/-- All inputs low: no reset, no start, no token offered, no answer (log 2). -/
def Pins.low : Pins :=
  { rst := false, start := false, inValid := false, outReady := false, outErr := false }

/-- A host that offers a token and accepts a byte in this step. -/
def Pins.ready : Pins :=
  { rst := false, start := false, inValid := true, outReady := true, outErr := false }

/-- The symbol memory (20_memory.md R60): the written cells, addresses strictly rising. -/
abbrev Memory := List Host.Cell

/-- The state of the block and of its host's side.

Registers, in the order of the table of 10_state.md R41, then the symbol memory. `cfg` is the parameter
COUNT_W of the block, written by no operation (log 3). `schedule`, `input` and `output` are the model's
own: the inputs of this step and of the coming ones, the tokens the provider still holds, and the bytes
the consumer accepted (log 1, 2, 12). -/
structure State where
  cfg      : Config
  phase    : BitVec 4
  err      : BitVec 4
  outCount : Nat
  depth    : BitVec 5
  leaves   : Table
  intn     : Table
  offs     : Table
  eobix    : BitVec 9
  lidx     : BitVec 5
  sum      : BitVec 13
  rem      : BitVec 9
  cur      : BitVec 9
  lvl      : BitVec 5
  code     : BitVec 9
  sr       : Byte
  bl       : BitVec 4
  obuf     : Byte
  opend    : Bool
  mem      : Memory
  schedule : List Pins
  input    : List Tok
  output   : List Byte
  deriving DecidableEq, Repr

/-- The reset state (10_state.md R41, column "after reset"; 70_reset_and_hazards.md R220), with nothing
written to the symbol memory, no host move pending and the spec's default COUNT_W. -/
def State.reset : State :=
  { cfg := Config.default
    phase := Phase.idle.bits
    err := 0#4
    outCount := 0
    depth := 0#5
    leaves := Vector.replicate 24 0#9
    intn := Vector.replicate 24 0#9
    offs := Vector.replicate 24 0#9
    eobix := 0#9
    lidx := 0#5
    sum := 0#13
    rem := 0#9
    cur := 0#9
    lvl := 0#5
    code := 0#9
    sr := 0#8
    bl := 0#4
    obuf := 0#8
    opend := false
    mem := []
    schedule := []
    input := []
    output := [] }

/-- The field of the header that was cut short (40_tree_builder.md R111, R112). -/
inductive HeaderField where
  | depth
  | count (level : BitVec 5)
  deriving DecidableEq, Repr

/-- The reason carried by CorruptStream (41_bit_walker.md R142). -/
inductive CorruptReason where
  | pastDeepestLevel
  | index (idx : Nat)
  deriving DecidableEq, Repr

/-- The block's errors, each with the info its raise carries; the info is not stored
(60_exceptions.md R190, R195). -/
inductive Error where
  /-- RD_DEPTH: the depth byte is outside 1..24. -/
  | invalidTreeDepth (b : Byte)
  /-- SUMCHK: S + 1 > 256. -/
  | symbolTableTooLarge (sum : BitVec 13)
  /-- RD_SYM: input ended among the symbols. -/
  | truncatedSymbolTable (level : BitVec 5) (addr : BitVec 9)
  /-- RD_DEPTH, RD_COUNT: input ended in the header. -/
  | truncatedHeader (field : HeaderField)
  /-- BIT: the code names no node. -/
  | corruptStream (reason : CorruptReason) (level : BitVec 5)
  /-- FETCH: input ended before the EOB. -/
  | prematureEndOfInput (outCount : Nat)
  /-- A token operation took Err. -/
  | inputReadError (phase : Phase)
  /-- EMIT: the consumer answered Fail. -/
  | outputWriteError (outCount : Nat)
  /-- EMIT: OUT_COUNT is at its largest value. -/
  | outputCountOverflow (outCount : Nat)
  deriving DecidableEq, Repr

/-- Stops that no session of the block reaches: the safe answer in a state outside every run. The nine
errors of the spec are not here: a raise is a next state. -/
inductive Fault where
  /-- An access to a level-table entry outside 0..23 (20_memory.md R62), by RD_COUNT, EOBRES, SYM_NEXT,
  EOBACC, DERIVE or BIT. Safe (log 6). -/
  | levelIndex
  /-- An access to a symbol-memory address above 255 (20_memory.md R60), by RD_SYM or BIT. Safe (log 6). -/
  | symbolAddress
  /-- A register write whose value does not fit its register, which "is never performed by any rule"
  (00_scope.md R9), by RD_COUNT, EOBRES, RD_SYM, EOBACC, EMIT or BIT. Safe (log 5). -/
  | registerWidth
  deriving DecidableEq, Repr

/-- Refusals. -/
inductive Refusal where
  /-- An operation without a meaning in the model, by its mnemonic; raised by no arm of `exec`. Safe. -/
  | notModelled (mnemonic : String)
  /-- PHASE is 11..15 and `rst` is low: "a model refuses the state" (42_descriptor_lifecycle.md R175,
  93 I6), raised by the selection of an operation. Safe (log 7). -/
  | reservedPhase
  /-- ERR is 10..15 and `rst` is low: reserved, "refuse if met" (60_exceptions.md R190, 93 I7), raised by
  the selection of an operation. Safe (log 7). -/
  | reservedError
  deriving DecidableEq, Repr

/-- What a step is to do: run one operation, run none, or refuse the state. -/
inductive Selected where
  | run (i : Instr)
  | rest
  | refuse (r : Refusal)
  deriving DecidableEq, Repr

/-- The outcomes of this machine. -/
abbrev Result := Host.Outcome State Fault Refusal

end Sys2Proof.Machine
end

