-- ==== Sys2Proof/Machine/Operands.lean ====
section
/-! DEFINITION. Operand forms: level-table entries (spec/20_memory.md R62), values narrowed to a register
(spec/00_scope.md R9), and the operand assembly of spec/30_encoding.md R89. -/

namespace Sys2Proof.Machine

/-- `T[i]`: entry i of a level table, absent outside 0..23 (00_scope.md R11, 20_memory.md R62). -/
def readLevel (t : Table) (i : Nat) : Option Entry := t[i]?

/-- `T[i] <- v`, absent outside 0..23. -/
def writeLevel (t : Table) (i : Nat) (v : Entry) : Option Table :=
  if h : i < 24 then some (t.set i v h) else none

/-- A value for a register of w bits; absent if it does not fit (00_scope.md R9). -/
def narrow (w n : Nat) : Option (BitVec w) :=
  if n < 2 ^ w then some (BitVec.ofNat w n) else none

/-- `r - 1` for a register; absent at 0, where no natural number results. -/
def decrement {w : Nat} (r : BitVec w) : Option (BitVec w) :=
  if r.toNat = 0 then none else some (r - 1#w)

/-- A count byte zero-extended to 9 bits (30_encoding.md R89 a). -/
def countEntry (c : Byte) : Entry := c.zeroExtend 9

/-- `DEPTH - 1`, the deepest level; absent while DEPTH is 0. -/
def deepest (s : State) : Option Nat :=
  if s.depth.toNat = 0 then none else some (s.depth.toNat - 1)

/-- `L = DEPTH - 1`, compared as integers, so that no level is the deepest while DEPTH is 0. -/
def isDeepest (s : State) (l : Nat) : Bool := decide (l + 1 = s.depth.toNat)

/-- `(CODE << 1) | bit` (30_encoding.md R89 d), as an unbounded number. -/
def shiftCode (code : BitVec 9) (b : Bool) : Nat := 2 * code.toNat + b.toNat

/-- `(SR << 1)[7:0]` (41_bit_walker.md R142). -/
def shiftSr (sr : Byte) : Byte := sr <<< 1

/-- The next bit of the bitstream, SR[7] (20_memory.md R65). -/
def nextBit (sr : Byte) : Bool := sr.msb

end Sys2Proof.Machine
end

