-- ==== Sys2Proof/Machine/Ops.lean ====
section
/-! DEFINITION. The shared operations: the symbol memory (spec/20_memory.md), `take()` and `put(b)`
(spec/30_encoding.md R82 to R84), `raise` (spec/60_exceptions.md R195), the clearing of a session's
registers (spec/10_state.md R41), and the two ways a meaning is put together. -/

namespace Sys2Proof.Machine

/-- Goes on with a value that the state may lack, stopping with the fault `r` where it does. -/
def need {α : Type} (r : Fault) (o : Option α) (k : α → Result) : Result :=
  match o with
  | some a => k a
  | none => .fault r

/-- Goes on from the next state of a first part, keeping its fault or refusal. -/
def andThen (o : Result) (k : State → Result) : Result :=
  match o with
  | .next s => k s
  | .fault r => .fault r
  | .refused r => .refused r

/-! ### The symbol memory -/

/-- The byte a written address holds. -/
def lookup : Memory → Nat → Option Byte
  | [], _ => none
  | (b, v) :: rest, a => if a = b then some v else lookup rest a

/-- A write, keeping the addresses strictly rising. -/
def store : Memory → Nat → Byte → Memory
  | [], a, v => [(a, v)]
  | (b, u) :: rest, a, v =>
    if a < b then (a, v) :: (b, u) :: rest
    else if a = b then (a, v) :: rest
    else (b, u) :: store rest a v

/-- The canonical form: strictly rising addresses, each inside the 256 of 20_memory.md R60. An unlisted
address holds no stored byte, so no entry is superfluous. -/
abbrev Memory.wf (m : Memory) : Prop :=
  m.Pairwise (fun c d => c.1 < d.1) ∧ ∀ c ∈ m, c.1 < Config.symtabEntries

/-- `MemRead(a, 1)` (00_scope.md R11): absent outside 0..255; an address nothing was written to reads as
the free value (log 4). -/
def memRead (s : State) (a : Nat) : Option Byte :=
  if a < Config.symtabEntries then some ((lookup s.mem a).getD (Config.powerOnSymbol a)) else none

/-- `MemWrite(a, 1, v)` (00_scope.md R11): absent outside 0..255. -/
def memWrite (s : State) (a : Nat) (v : Byte) : Option State :=
  if a < Config.symtabEntries then some { s with mem := store s.mem a v } else none

/-! ### The channels -/

/-- The inputs of this step (log 2). -/
def State.pins (s : State) : Pins := s.schedule.headD Pins.low

/-- The token offered to `take()` in this step (30_encoding.md R83). -/
def offered (s : State) : Option Tok := if s.pins.inValid then s.input.head? else none

/-- The token `take()` returned leaves the channel and is never delivered again (20_memory.md R68). -/
def consume (s : State) : State := { s with input := s.input.tail }

/-- The consumer's answer to `put` in this step: none while `out_ready` is 0 (30_encoding.md R84). -/
def putAnswer (s : State) : Option Answer :=
  if s.pins.outReady then some (if s.pins.outErr then .fail else .ok) else none

/-- The consumer accepts a byte, in emission order (20_memory.md R72). -/
def accept (s : State) (b : Byte) : State := { s with output := s.output ++ [b] }

/-- The step is over: the inputs move on to those of the next step. -/
def tick (s : State) : State := { s with schedule := s.schedule.tail }

/-! ### Failure entry -/

/-- The error codes (60_exceptions.md R190). -/
def Error.code : Error → BitVec 4
  | .invalidTreeDepth _ => 1#4
  | .symbolTableTooLarge _ => 2#4
  | .truncatedSymbolTable _ _ => 3#4
  | .truncatedHeader _ => 4#4
  | .corruptStream _ _ => 5#4
  | .prematureEndOfInput _ => 6#4
  | .inputReadError _ => 7#4
  | .outputWriteError _ => 8#4
  | .outputCountOverflow _ => 9#4

/-- `raise E(info)` (60_exceptions.md R195): ERR and PHASE are written, nothing else. A meaning raises
from the state its step began in, with the token consumed if one was taken, so the step's other writes
are cancelled (00_scope.md R13). -/
def raise (e : Error) (s : State) : Result :=
  .next { s with err := e.code, phase := Phase.failed.bits }

/-! ### Registers -/

/-- Every register of 10_state.md R41 at its "after reset" value; the symbol memory, the parameter and
the host's side are not registers. -/
def clearRegisters (s : State) : State :=
  { State.reset with
    cfg := s.cfg, mem := s.mem, schedule := s.schedule, input := s.input, output := s.output }

/-- `LEAVES[DEPTH-1] <- LEAVES[DEPTH-1] + 1` (40_tree_builder.md R114, R117). -/
def bumpDeepest (s : State) : Result :=
  need .levelIndex (deepest s) fun l =>
  need .levelIndex (readLevel s.leaves l) fun n =>
  need .registerWidth (narrow 9 (n.toNat + 1)) fun n' =>
  need .levelIndex (writeLevel s.leaves l n') fun t =>
  .next { s with leaves := t }

/-! ### The selection signals -/

/-- The signals the selection of 42_descriptor_lifecycle.md R175 reads. -/
def opWord (s : State) : OpWord :=
  { rst := s.pins.rst
    start := s.pins.start
    phase := s.phase
    remPos := decide (0 < s.rem.toNat)
    opend := s.opend
    blPos := decide (0 < s.bl.toNat)
    sr7 := nextBit s.sr
    tok := offered s }

end Sys2Proof.Machine
end

