-- ==== Sys2Proof/Machine/BitWalker.lean ====
section
/-! DEFINITION. The bit walker's operations (spec/41_bit_walker.md). -/

namespace Sys2Proof.Machine

/-- FETCH (41_bit_walker.md R141): LVL and CODE are not changed. -/
def execFetch (tok : Token) (s : State) : Result :=
  match tok with
  | .err => raise (.inputReadError .decode) (consume s)
  | .eod => raise (.prematureEndOfInput s.outCount) (consume s)
  | .byte b => .next { consume s with sr := b, bl := 8#4 }

/-- The leaf branch of BIT (41_bit_walker.md R142) for the leaf of index `idx` at level LVL: `s` is the
state the step began in, `s1` the state with SR, BL and CODE written. The EOB is told by its address. -/
def resolveLeaf (s s1 : State) (idx : Nat) : Result :=
  need .levelIndex (readLevel s.leaves s.lvl.toNat) fun n =>
  if n.toNat ≤ idx then raise (.corruptStream (.index idx) s.lvl) s
  else
    need .levelIndex (readLevel s.offs s.lvl.toNat) fun o =>
    if o.toNat + idx = s.eobix.toNat then .next { s1 with phase := Phase.done.bits }
    else
      need .symbolAddress (memRead s (o.toNat + idx)) fun v =>
      .next { s1 with obuf := v, opend := true, lvl := 0#5, code := 0#9 }

/-- BIT (41_bit_walker.md R142). The descend check `LVL + 1 > DEPTH - 1` is kept; R148 shows it dead
(log 11). -/
def execBit (b : Bool) (s : State) : Result :=
  need .registerWidth (decrement s.bl) fun bl' =>
  need .registerWidth (narrow 9 (shiftCode s.code b)) fun code' =>
  need .levelIndex (readLevel s.intn s.lvl.toNat) fun n =>
  let s1 := { s with sr := shiftSr s.sr, bl := bl', code := code' }
  if code'.toNat < n.toNat then
    if s.depth.toNat < s.lvl.toNat + 2 then raise (.corruptStream .pastDeepestLevel s.lvl) s
    else .next { s1 with lvl := s.lvl + 1#5 }
  else resolveLeaf s s1 (code'.toNat - n.toNat)

/-- EMIT (41_bit_walker.md R143): the overflow test comes before the `put`; while the consumer does not
answer, EMIT has not happened and no state changes (00_scope.md R13, 70 R229). -/
def execEmit (s : State) : Result :=
  if s.outCount = s.cfg.maxCount then raise (.outputCountOverflow s.outCount) s
  else
    match putAnswer s with
    | none => .next s
    | some .fail => raise (.outputWriteError s.outCount) s
    | some .ok =>
      if s.outCount < s.cfg.maxCount then
        .next { accept s s.obuf with outCount := s.outCount + 1, opend := false }
      else .fault .registerWidth

end Sys2Proof.Machine
end

