-- ==== Sys2Proof/Machine/Session.lean ====
section
/-! DEFINITION. Session control (spec/42_descriptor_lifecycle.md): RESET and START. -/

namespace Sys2Proof.Machine

/-- RESET (42_descriptor_lifecycle.md R170): every register to its "after reset" value; the symbol memory
is not changed. -/
def execReset (s : State) : Result := .next (clearRegisters s)

/-- START (42_descriptor_lifecycle.md R171): every register to its "at START" value, which is 0 but for
PHASE; no token is consumed. -/
def execStart (s : State) : Result :=
  .next { clearRegisters s with phase := Phase.hdrDepth.bits }

end Sys2Proof.Machine
end

