-- ==== Sys2Proof/Machine/TreeBuilder.lean ====
section
/-! DEFINITION. The tree builder's operations (spec/40_tree_builder.md). -/

namespace Sys2Proof.Machine

/-- RD_DEPTH (40_tree_builder.md R111). -/
def execRdDepth (tok : Token) (s : State) : Result :=
  match tok with
  | .err => raise (.inputReadError .hdrDepth) (consume s)
  | .eod => raise (.truncatedHeader .depth) (consume s)
  | .byte b =>
    if b.toNat < Config.minLevels ∨ Config.maxLevels < b.toNat then
      raise (.invalidTreeDepth b) (consume s)
    else
      .next { consume s with
        depth := b.extractLsb' 0 5, lidx := 0#5, sum := 0#13, phase := Phase.hdrCounts.bits }

/-- RD_COUNT (40_tree_builder.md R112). -/
def execRdCount (tok : Token) (s : State) : Result :=
  match tok with
  | .err => raise (.inputReadError .hdrCounts) (consume s)
  | .eod => raise (.truncatedHeader (.count s.lidx)) (consume s)
  | .byte c =>
    need .levelIndex (writeLevel s.leaves s.lidx.toNat (countEntry c)) fun t =>
    need .registerWidth (narrow 13 (s.sum.toNat + c.toNat)) fun sum' =>
    let s1 := { consume s with leaves := t, sum := sum' }
    if isDeepest s s.lidx.toNat then .next { s1 with phase := Phase.sumCheck.bits }
    else .next { s1 with lidx := s.lidx + 1#5 }

/-- SUMCHK (40_tree_builder.md R113). -/
def execSumchk (s : State) : Result :=
  if Config.symtabEntries < s.sum.toNat + 1 then raise (.symbolTableTooLarge s.sum) s
  else .next { s with phase := Phase.eobReserve.bits }

/-- EOBRES (40_tree_builder.md R114): REM is read after the increment. -/
def execEobres (s : State) : Result :=
  andThen (bumpDeepest s) fun s1 =>
  need .levelIndex (writeLevel s1.offs 0 0#9) fun offs' =>
  need .levelIndex (readLevel s1.leaves 0) fun n =>
  .next { s1 with
    lidx := 0#5, cur := 0#9, offs := offs', rem := n, phase := Phase.symtab.bits }

/-- RD_SYM (40_tree_builder.md R115). -/
def execRdSym (tok : Token) (s : State) : Result :=
  match tok with
  | .err => raise (.inputReadError .symtab) (consume s)
  | .eod => raise (.truncatedSymbolTable s.lidx s.cur) (consume s)
  | .byte v =>
    need .symbolAddress (memWrite (consume s) s.cur.toNat v) fun s1 =>
    need .registerWidth (narrow 9 (s.cur.toNat + 1)) fun cur' =>
    need .registerWidth (decrement s.rem) fun rem' =>
    .next { s1 with cur := cur', rem := rem' }

/-- SYM_NEXT (40_tree_builder.md R116). -/
def execSymNext (s : State) : Result :=
  if isDeepest s s.lidx.toNat then .next { s with phase := Phase.eobAccount.bits }
  else
    need .levelIndex (writeLevel s.offs (s.lidx.toNat + 1) s.cur) fun offs' =>
    need .levelIndex (readLevel s.leaves (s.lidx.toNat + 1)) fun n =>
    .next { s with lidx := s.lidx + 1#5, offs := offs', rem := n }

/-- EOBACC (40_tree_builder.md R117). -/
def execEobacc (s : State) : Result :=
  andThen (bumpDeepest s) fun s1 =>
  .next { s1 with eobix := s.cur, lidx := s.depth - 1#5, phase := Phase.build.bits }

/-- The value DERIVE gives `INTN[l]` (40_tree_builder.md R118): 0 at the deepest level, else half the
nodes of the level below, truncating. -/
def internalNodes (s : State) (l : Nat) : Option Entry :=
  if isDeepest s l then some 0#9
  else
    match readLevel s.intn (l + 1), readLevel s.leaves (l + 1) with
    | some n, some k => some (BitVec.ofNat 9 ((n.toNat + k.toNat) / 2))
    | _, _ => none

/-- DERIVE (40_tree_builder.md R118). -/
def execDerive (s : State) : Result :=
  need .levelIndex (internalNodes s s.lidx.toNat) fun n =>
  need .levelIndex (writeLevel s.intn s.lidx.toNat n) fun t =>
  if s.lidx.toNat = 0 then
    .next { s with
      intn := t, lvl := 0#5, code := 0#9, sr := 0#8, bl := 0#4, opend := false
      phase := Phase.decode.bits }
  else .next { s with intn := t, lidx := s.lidx - 1#5 }

end Sys2Proof.Machine
end

