-- ==== Sys2Proof/Machine/Dispatch.lean ====
section
/-! DEFINITION. One arm for each operation of spec/opcode_table.json (spec/30_encoding.md R86). -/

namespace Sys2Proof.Machine

def exec (i : Instr) (s : State) : Host.Outcome State Fault Refusal :=
  match i with
  | .reset => Sys2Proof.Machine.execReset s
  | .start => Sys2Proof.Machine.execStart s
  | .rdDepth tok => Sys2Proof.Machine.execRdDepth tok s
  | .rdCount tok => Sys2Proof.Machine.execRdCount tok s
  | .sumchk => Sys2Proof.Machine.execSumchk s
  | .eobres => Sys2Proof.Machine.execEobres s
  | .rdSym tok => Sys2Proof.Machine.execRdSym tok s
  | .symNext => Sys2Proof.Machine.execSymNext s
  | .eobacc => Sys2Proof.Machine.execEobacc s
  | .derive => Sys2Proof.Machine.execDerive s
  | .emit => Sys2Proof.Machine.execEmit s
  | .fetch tok => Sys2Proof.Machine.execFetch tok s
  | .bit b => Sys2Proof.Machine.execBit b s

end Sys2Proof.Machine
end

