-- ==== Sys2Proof/Machine/Select.lean ====
section
/-! DEFINITION. What a step is to do (spec/42_descriptor_lifecycle.md R175), and what surrounds the
operation it runs. -/

namespace Sys2Proof.Machine

/-- A state whose ERR holds a reserved code is refused (60_exceptions.md R190, 93 I7); RESET, which
writes every register in any phase, is not (42_descriptor_lifecycle.md R170; log 7). -/
def errorReserved (s : State) : Bool := !s.pins.rst && decide (10 ≤ s.err.toNat)

/-- The operation of this step, or none, or a refusal (42_descriptor_lifecycle.md R175). -/
def select (s : State) : Selected :=
  if errorReserved s then .refuse .reservedError
  else
    match decode (opWord s) with
    | .instr i => .run i
    | .quiescent => .rest
    | .waiting => .rest
    | .reservedPhase => .refuse .reservedPhase

/-- After the operation the inputs move on. -/
def endStep (o : Result) : Result := andThen o fun s => .next (tick s)

/-- The state in which the next step runs the bare table word `w` (log 8): the token is the next one the
provider holds and is offered in this step, and the phase is HDR_DEPTH, as START leaves it. -/
def placeWord (s : State) (nbits w : Nat) : State :=
  match tableToken nbits w with
  | none => s
  | some t =>
    { s with
      phase := Phase.hdrDepth.bits, err := 0#4
      schedule := Pins.ready :: s.schedule, input := t :: s.input }

end Sys2Proof.Machine
end

