-- ==== Sys2Proof/Machine/Step.lean ====
section
/-! DEFINITION. The step (spec/42_descriptor_lifecycle.md R175): one operation or none, then the inputs of
the next step. -/

namespace Sys2Proof.Machine

/-- One step of the block. A hold and a quiescent step change nothing but the inputs
(42_descriptor_lifecycle.md R176, 70_reset_and_hazards.md R229). -/
def step (s : State) : Host.Outcome State Fault Refusal :=
  match select s with
  | .run i => endStep (exec i s)
  | .rest => endStep (.next s)
  | .refuse r => .refused r

/-- The state in which the very next step runs the table word `w` (log 8). -/
def State.withFetchWord (s : State) (nbits w : Nat) : State := placeWord s nbits w

end Sys2Proof.Machine
end

