-- ==== Sys2Proof/Machine/Flags.lean ====
section
/-! DEFINITION. The status flags and the status word (spec/10_state.md R39, R40): functions of PHASE and
ERR, written by nothing else. -/

namespace Sys2Proof.Machine

/-- `busy` is 1 exactly when PHASE is in 1..8 (10_state.md R39). -/
def busy (s : State) : Bool := decide (1 ≤ s.phase.toNat) && decide (s.phase.toNat ≤ 8)

/-- `done` is 1 exactly when PHASE = 9 (10_state.md R39). -/
def done (s : State) : Bool := decide (s.phase = Phase.done.bits)

/-- `fail` is 1 exactly when PHASE = 10 (10_state.md R39). -/
def fail (s : State) : Bool := decide (s.phase = Phase.failed.bits)

/-- STATUS (10_state.md R40): phase in 3:0, busy 4, done 5, fail 6, err_code in 11:8, the rest reads 0. -/
def status (s : State) : BitVec 32 :=
  0#20 ++ s.err ++ 0#1 ++ BitVec.ofBool (fail s) ++ BitVec.ofBool (done s) ++
    BitVec.ofBool (busy s) ++ s.phase

end Sys2Proof.Machine
end

