-- ==== Sys2Proof/Machine/Ports.lean ====
section
/-! DEFINITION. The output signals of the block (spec/30_encoding.md R83 to R85): functions of the state
and of the inputs of the step. -/

namespace Sys2Proof.Machine

/-- `in_ready`: 1 only in a step in which the block executes `take()` and a token is offered
(30_encoding.md R83). -/
def inReady (s : State) : Bool :=
  match select s with
  | .run i => i.takesToken
  | .rest => false
  | .refuse _ => false

/-- `out_valid`: 1 while EMIT makes its `put`; on an overflow no `put` is made (30_encoding.md R84,
41_bit_walker.md R143). -/
def outValid (s : State) : Bool :=
  decide (select s = .run .emit) && !decide (s.outCount = s.cfg.maxCount)

/-- `out_data[7:0]`: the byte OBUF while a `put` is made (30_encoding.md R84, 41_bit_walker.md R143). In a
step without a `put` the spec states no value of these lines and the model gives none: DESIGN CHOICE,
safe (log 17). -/
def outData (s : State) : Option Byte := if outValid s then some s.obuf else none

/-- `out_count[COUNT_W-1:0]` (30_encoding.md R85, 10_state.md R40). -/
def outCountPort (s : State) : BitVec s.cfg.countW := BitVec.ofNat s.cfg.countW s.outCount

end Sys2Proof.Machine
end

