-- ==== Sys2Proof/Machine/Container.lean ====
section
/-! DEFINITION. The container the block consumes (spec/30_encoding.md): the byte sequence of R80, the
descriptor its header stands for (spec/10_state.md R42), the canonical code of R90 and the notation of
R96 and R97. It is the host's side of the format; the step does not use it. -/

namespace Sys2Proof.Machine

/-- The descriptor as plain numbers (10_state.md, section 2), levels in order. -/
structure Descriptor where
  leaves  : List Nat
  intn    : List Nat
  offs    : List Nat
  eobix   : Nat
  symbols : List Byte
  deriving DecidableEq, Repr

/-- `EOB_EXTRA_LAST_LEVEL` (00_scope.md R7): the deepest count plus k. -/
def addToDeepest (k : Nat) : List Nat → List Nat
  | [] => []
  | [n] => [n + k]
  | n :: m :: rest => n :: addToDeepest k (m :: rest)

/-- INTN from the decoding counts: 0 at the deepest level, half of the nodes below elsewhere
(10_state.md R42). -/
def internalCounts : List Nat → List Nat
  | [] => []
  | [_] => [0]
  | _ :: n :: rest =>
    let below := internalCounts (n :: rest)
    (below.headD 0 + n) / 2 :: below

/-- OFFS: the running sums of the transmitted counts (10_state.md R42). -/
def offsets (start : Nat) : List Nat → List Nat
  | [] => []
  | n :: rest => start :: offsets (start + n) rest

/-- The descriptor a header stands for (10_state.md R42, 40_tree_builder.md R120). -/
def Descriptor.ofContainer (c : Container) : Descriptor :=
  let t := c.counts.map BitVec.toNat
  { leaves := addToDeepest 2 t
    intn := internalCounts (addToDeepest 2 t)
    offs := offsets 0 t
    eobix := c.total + 1
    symbols := c.symbols }

/-- The `n` bits of `v`, first bit most significant (30_encoding.md R90). -/
def codeBits (n v : Nat) : List Bool := (List.range n).map fun k => v.testBit (n - 1 - k)

/-- The canonical code of leaf i of level L: the value INTN[L] + i in L + 1 bits (30_encoding.md R90). -/
def leafCode (d : Descriptor) (l i : Nat) : List Bool := codeBits (l + 1) (d.intn.getD l 0 + i)

/-- A leaf is reachable if its value is one of L + 1 bits and every proper prefix of its code is internal
(30_encoding.md R90; the vectors of 95_test_vectors.md call a value above the code's length unreachable). -/
def leafReachable (d : Descriptor) (l i : Nat) : Bool :=
  decide (i < d.leaves.getD l 0) && decide (d.intn.getD l 0 + i < 2 ^ (l + 1)) &&
    (List.range l).all fun k => decide ((d.intn.getD l 0 + i) >>> (l - k) < d.intn.getD k 0)

/-- The EOB code: the last leaf of the deepest level (30_encoding.md R90). -/
def eobCode (d : Descriptor) : Option (List Bool) :=
  let l := d.leaves.length - 1
  let i := d.leaves.getD l 0 - 1
  if leafReachable d l i then some (leafCode d l i) else none

/-- The level of the stored symbol at address a, counting from level `l`: the first level whose leaves
reach past a (20_memory.md R69). -/
def levelOf (a : Nat) : Nat → List Nat → Option Nat
  | _, [] => none
  | l, n :: rest => if a < n then some l else levelOf (a - n) (l + 1) rest

/-- `.code @a` (30_encoding.md R97): the code of the stored symbol at address a, reachable or not, since R90
gives every leaf a code and R97 names no refusal here. DESIGN CHOICE (log 16): none where a holds no
stored symbol, and where the leaf's value does not fit the L + 1 bits R90 gives its code. -/
def codeOfAddress (d : Descriptor) (a : Nat) : Option (List Bool) :=
  if a < d.eobix then
    match levelOf a 0 d.leaves with
    | none => none
    | some l =>
      let i := a - d.offs.getD l 0
      if d.intn.getD l 0 + i < 2 ^ (l + 1) then some (leafCode d l i) else none
  else none

/-- The code of the stored symbol at address a, if it is reachable (30_encoding.md R90). -/
def reachableCode (d : Descriptor) (a : Nat) : Option (List Bool) :=
  match levelOf a 0 d.leaves with
  | none => none
  | some l => if leafReachable d l (a - d.offs.getD l 0) then codeOfAddress d a else none

/-- `.code x` (30_encoding.md R97): the code of the first stored symbol, in symbol-memory order, whose
byte is x and whose code is reachable. -/
def codeOfSymbol (d : Descriptor) (x : Byte) : Option (List Bool) :=
  (List.range d.eobix).findSome? fun a =>
    if d.symbols[a]? = some x then reachableCode d a else none

/-- The 0 bits that complete a byte after n bits (30_encoding.md R97). -/
def padding (n : Nat) : List Bool := List.replicate ((8 - n % 8) % 8) false

/-- The bits of a byte, bit 7 first (20_memory.md R65). -/
def byteBits (b : Byte) : List Bool := codeBits 8 b.toNat

/-- The descriptor the codes of a program are taken from: that of its header, if the builder accepts the
header (30_encoding.md R91, R92). -/
def headerDescriptor (depth : Byte) (counts symbols : List Byte) : Option Descriptor :=
  let c : Container := { counts := counts, symbols := symbols, bits := [] }
  if depth.toNat = counts.length ∧ c.wellFormed = true then some (Descriptor.ofContainer c) else none

/-- The bits a line appends after the bits `before` it, none where the assembler refuses the line
(30_encoding.md R96, R97). DESIGN CHOICE (log 16): without a descriptor a code line is refused, since R90
gives codes to a built descriptor only; the other lines assemble under any header. -/
def expandLine (d : Option Descriptor) (before : List Bool) : BitLine → Option (List Bool)
  | .bits bs => some bs
  | .bytes bs => some (padding before.length ++ bs.flatMap byteBits)
  | .code x => d.bind fun d => codeOfSymbol d x
  | .codeAt a => d.bind fun d => codeOfAddress d a
  | .eob => d.bind eobCode
  | .pad => some (padding before.length)

/-- The bits of the lines, in order, after the bits `before`. -/
def expandLines (d : Option Descriptor) (before : List Bool) : List BitLine → Option (List Bool)
  | [] => some before
  | line :: rest =>
    match expandLine d before line with
    | none => none
    | some bs => expandLines d (before ++ bs) rest

/-- A number from its bits, first bit most significant (41_bit_walker.md R146). -/
def bitsValue (bs : List Bool) : Nat := bs.foldl (fun n b => 2 * n + b.toNat) 0

/-- Bits packed into bytes, first bit at bit 7, the last byte padded with 0 bits (30_encoding.md R96). -/
def packBits : List Bool → List Byte
  | [] => []
  | b7 :: b6 :: b5 :: b4 :: b3 :: b2 :: b1 :: b0 :: rest =>
    BitVec.ofNat 8 (bitsValue [b7, b6, b5, b4, b3, b2, b1, b0]) :: packBits rest
  | short => [BitVec.ofNat 8 (bitsValue (short ++ padding short.length))]

/-- The bytes of a container (30_encoding.md R80): depth, counts, symbols, bitstream. -/
def containerBytes (c : Container) : List Byte :=
  BitVec.ofNat 8 c.counts.length :: (c.counts ++ c.symbols ++ packBits c.bits)

/-- The tokens a host offers for bytes (30_encoding.md R82). -/
def byteTokens (bs : List Byte) : List Tok := bs.map fun b => (Token.byte b).toBits

/-- A program in the notation of 30_encoding.md R96, its `.depth`, `.counts` and `.symbols` lines and then its
bitstream lines, assembled to bytes. R96 names no refusal of a header; any
header bytes assemble, also those the builder rejects: DESIGN CHOICE (log 16). -/
def assemble (depth : Byte) (counts symbols : List Byte) (lines : List BitLine) :
    Option (List Byte) :=
  (expandLines (headerDescriptor depth counts symbols) [] lines).map fun bs =>
    depth :: (counts ++ symbols ++ packBits bs)

end Sys2Proof.Machine
end

