-- ==== Sys2Proof/Safety.lean ====
section
/-! DEFINITION. The terms claims are stated in: the invariant of every state a session can reach (from
spec/10_state.md R37, R38, R42 and the bounds of spec/40_tree_builder.md and spec/41_bit_walker.md), and
what a host that answers everything offers. -/

namespace Sys2Proof.Machine

/-- Entry i of a level table as a number, 0 outside the table. -/
def entry (t : Table) (i : Nat) : Nat := ((readLevel t i).getD 0#9).toNat

/-- The sum of the first n entries. -/
def entrySum (t : Table) : Nat → Nat
  | 0 => 0
  | n + 1 => entrySum t n + entry t n

/-- Every symbol-memory address below n has been written (20_memory.md R75). -/
def Written (m : Memory) (n : Nat) : Prop := ∀ a, a < n → (lookup m a).isSome = true

/-- DEPTH holds a legal depth (10_state.md R22). -/
def DepthLegal (s : State) : Prop := 1 ≤ s.depth.toNat ∧ s.depth.toNat ≤ 24

/-- The offsets of the first n levels are the sums of the counts before them (10_state.md R42, 3). -/
def OffsetsBelow (s : State) (n : Nat) : Prop := ∀ l, l < n → entry s.offs l = entrySum s.leaves l

/-- The internal-node counts from level n down satisfy 10_state.md R42, 6. -/
def InternalFrom (s : State) (n : Nat) : Prop :=
  ∀ l, n ≤ l → l < s.depth.toNat →
    entry s.intn l =
      if l + 1 = s.depth.toNat then 0 else (entry s.intn (l + 1) + entry s.leaves (l + 1)) / 2

/-- In HDR_COUNTS: the counts before LIDX are read and summed (40_tree_builder.md R112). -/
structure Counting (s : State) : Prop where
  depth : DepthLegal s
  lidx : s.lidx.toNat < s.depth.toNat
  sum : s.sum.toNat = entrySum s.leaves s.lidx.toNat
  counts : ∀ l, l < s.lidx.toNat → entry s.leaves l ≤ 255

/-- In SUM_CHECK and EOB_RESERVE: all counts are read and summed (40_tree_builder.md R112, R113). -/
structure Counted (s : State) : Prop where
  depth : DepthLegal s
  sum : s.sum.toNat = entrySum s.leaves s.depth.toNat

/-- In SYMTAB: the symbols before CUR are stored, REM are left of level LIDX, and the deepest level's
extra slot is reserved (40_tree_builder.md R114 to R116). -/
structure ReadingSymbols (s : State) : Prop where
  depth : DepthLegal s
  lidx : s.lidx.toNat < s.depth.toNat
  reserved : 1 ≤ entry s.leaves (s.depth.toNat - 1)
  total : entrySum s.leaves s.depth.toNat ≤ 256
  cursor : s.cur.toNat + s.rem.toNat = entrySum s.leaves (s.lidx.toNat + 1)
  offsets : OffsetsBelow s (s.lidx.toNat + 1)
  stored : Written s.mem s.cur.toNat

/-- In EOB_ACCOUNT: all S + 1 symbols are stored (40_tree_builder.md R115, R117). -/
structure SymbolsRead (s : State) : Prop where
  depth : DepthLegal s
  reserved : 1 ≤ entry s.leaves (s.depth.toNat - 1)
  total : entrySum s.leaves s.depth.toNat ≤ 256
  cursor : s.cur.toNat = entrySum s.leaves s.depth.toNat
  offsets : OffsetsBelow s s.depth.toNat
  stored : Written s.mem s.cur.toNat

/-- The descriptor but for the internal-node counts above level n (10_state.md R42). -/
structure BuiltFrom (s : State) (n : Nat) : Prop where
  depth : DepthLegal s
  deepest : 2 ≤ entry s.leaves (s.depth.toNat - 1)
  total : entrySum s.leaves s.depth.toNat ≤ 257
  eob : s.eobix.toNat + 1 = entrySum s.leaves s.depth.toNat
  offsets : OffsetsBelow s s.depth.toNat
  internal : InternalFrom s n
  stored : Written s.mem s.eobix.toNat

/-- The built descriptor of 10_state.md R42. -/
def Built (s : State) : Prop := BuiltFrom s 0

/-- In DECODE: the walk stands at a node of level LVL reached by internal nodes only
(41_bit_walker.md R146, R147, R148). -/
structure Walking (s : State) : Prop where
  built : Built s
  level : s.lvl.toNat < s.depth.toNat
  root : s.lvl.toNat = 0 → s.code.toNat = 0
  inner : 0 < s.lvl.toNat → s.code.toNat < entry s.intn (s.lvl.toNat - 1)
  bits : s.bl.toNat ≤ 8

/-- What holds in each phase of a session. -/
def Promise (s : State) : Phase → Prop
  | .idle => True
  | .hdrDepth => True
  | .hdrCounts => Counting s
  | .sumCheck => Counted s
  | .eobReserve => Counted s ∧ s.sum.toNat ≤ 255
  | .symtab => ReadingSymbols s
  | .eobAccount => SymbolsRead s
  | .build => BuiltFrom s (s.lidx.toNat + 1) ∧ s.lidx.toNat < s.depth.toNat
  | .decode => Walking s
  | .done => s.opend = false
  | .failed => True

/-- PHASE is no reserved value (10_state.md R37) and its promise holds. -/
def PhaseInv (s : State) : Prop :=
  match Phase.ofBits s.phase with
  | some p => Promise s p
  | none => False

/-- The invariant of every state from which a session goes on as the spec says. -/
structure Inv (s : State) : Prop where
  /-- COUNT_W is at least 1 (00_scope.md R8). -/
  width : s.cfg.wellFormed = true
  /-- OUT_COUNT fits its COUNT_W bits (10_state.md R36). -/
  count : s.outCount < 2 ^ s.cfg.countW
  /-- The symbol memory is in canonical form. -/
  mem : Memory.wf s.mem
  /-- ERR holds a code that is not reserved (60_exceptions.md R190). -/
  err : s.err.toNat ≤ 9
  /-- ERR is nonzero exactly in FAILED (70_reset_and_hazards.md R228, 10_state.md R38). -/
  failed : s.phase = Phase.failed.bits ↔ s.err ≠ 0#4
  /-- What the phase promises; no phase is reserved (10_state.md R37). -/
  phase : PhaseInv s

/-- A host that offers a token and accepts a byte in each of the next n steps. -/
def readySchedule (n : Nat) : List Pins := List.replicate n Pins.ready

/-- The bits the walker has still to consume: the rest of SR, then the bytes of the input, up to the
first token that is no byte (41_bit_walker.md R146). -/
def inputBits : List Tok → List Bool
  | [] => []
  | t :: rest =>
    match Token.ofBits t with
    | .byte b => byteBits b ++ inputBits rest
    | .eod => []
    | .err => []

/-- The bits of SR not yet consumed, next bit first (10_state.md R33, R34), then those of the input. -/
def pendingBits (s : State) : List Bool := (byteBits s.sr).take s.bl.toNat ++ inputBits s.input

/-- The descriptor tables of the state as plain numbers (10_state.md R42). -/
def descriptorOf (s : State) : Descriptor :=
  { leaves := (s.leaves.toList.take s.depth.toNat).map BitVec.toNat
    intn := (s.intn.toList.take s.depth.toNat).map BitVec.toNat
    offs := (s.offs.toList.take s.depth.toNat).map BitVec.toNat
    eobix := s.eobix.toNat
    symbols := [] }

/-! ### What claims compare -/

/-- A 10-bit word carries a token: kind in bits 9:8, data in bits 7:0 (30_encoding.md R82, R95). -/
def TokenIs (w : Tok) : Token → Prop
  | .byte b => w.toNat / 256 = 0 ∧ w.toNat % 256 = b.toNat
  | .eod => w.toNat / 256 = 1
  | .err => w.toNat / 256 = 2 ∨ w.toNat / 256 = 3

/-- The condition and encoding columns of an operation's row in spec/opcode_table.json, with the operand
the row carries (30_encoding.md R86). -/
def RowSelects (w : OpWord) : Instr → Prop
  | .reset => w.rst = true
  | .start => w.rst = false ∧ w.start = true ∧ (w.phase = 0#4 ∨ w.phase = 9#4 ∨ w.phase = 10#4)
  | .rdDepth t => w.rst = false ∧ w.phase = 1#4 ∧ ∃ k, w.tok = some k ∧ TokenIs k t
  | .rdCount t => w.rst = false ∧ w.phase = 2#4 ∧ ∃ k, w.tok = some k ∧ TokenIs k t
  | .sumchk => w.rst = false ∧ w.phase = 3#4
  | .eobres => w.rst = false ∧ w.phase = 4#4
  | .rdSym t => w.rst = false ∧ w.phase = 5#4 ∧ w.remPos = true ∧ ∃ k, w.tok = some k ∧ TokenIs k t
  | .symNext => w.rst = false ∧ w.phase = 5#4 ∧ w.remPos = false
  | .eobacc => w.rst = false ∧ w.phase = 6#4
  | .derive => w.rst = false ∧ w.phase = 7#4
  | .emit => w.rst = false ∧ w.phase = 8#4 ∧ w.opend = true
  | .fetch t => w.rst = false ∧ w.phase = 8#4 ∧ w.opend = false ∧ w.blPos = false ∧
      ∃ k, w.tok = some k ∧ TokenIs k t
  | .bit b => w.rst = false ∧ w.phase = 8#4 ∧ w.opend = false ∧ w.blPos = true ∧ b = w.sr7

/-- The block executes a `take()` in this step if a token is offered (30_encoding.md R86). -/
def TakesNow (s : State) : Prop :=
  s.phase = 1#4 ∨ s.phase = 2#4 ∨ (s.phase = 5#4 ∧ 0 < s.rem.toNat) ∨
    (s.phase = 8#4 ∧ s.opend = false ∧ s.bl.toNat = 0)

/-- The code after the next bit of SR (41_bit_walker.md R142), as an unbounded number. -/
def nextCode (s : State) : Nat := 2 * s.code.toNat + (nextBit s.sr).toNat

/-- The index of the leaf the next bit resolves to, if it resolves to one (41_bit_walker.md R142). -/
def nextIndex (s : State) : Nat := nextCode s - entry s.intn s.lvl.toNat

/-- The address of that leaf (30_encoding.md R89 e). -/
def nextAddress (s : State) : Nat := entry s.offs s.lvl.toNat + nextIndex s

/-- The errors each operation can raise, by code (60_exceptions.md R193). -/
def raisable : Instr → List (BitVec 4)
  | .reset => []
  | .start => []
  | .rdDepth _ => [7#4, 4#4, 1#4]
  | .rdCount _ => [7#4, 4#4]
  | .sumchk => [2#4]
  | .eobres => []
  | .rdSym _ => [7#4, 3#4]
  | .symNext => []
  | .eobacc => []
  | .derive => []
  | .emit => [9#4, 8#4]
  | .fetch _ => [7#4, 6#4]
  | .bit _ => [5#4]

/-- The deepest level's count is to grow by one (40_tree_builder.md R114, R117), and LEAVES has no such level
(20_memory.md R62) or no room in its 9 bits (00_scope.md R9). -/
def BumpStops (s : State) (r : Fault) : Prop :=
  (r = .levelIndex ∧ (s.depth.toNat = 0 ∨ 24 < s.depth.toNat)) ∨
    (r = .registerWidth ∧ 1 ≤ s.depth.toNat ∧ s.depth.toNat ≤ 24 ∧
      entry s.leaves (s.depth.toNat - 1) = 511)

/-- Where each operation stops and with which fault: a level outside 0..23 (20_memory.md R62), a
symbol-memory address above 255 (20_memory.md R60), a register write that does not fit (00_scope.md R9).
That these are faults is the model's choice (log 5, 6). -/
def StopsWith (s : State) (r : Fault) : Instr → Prop
  | .rdCount (.byte c) =>
      (r = .levelIndex ∧ 24 ≤ s.lidx.toNat) ∨
        (r = .registerWidth ∧ s.lidx.toNat < 24 ∧ 8192 ≤ s.sum.toNat + c.toNat)
  | .eobres => BumpStops s r
  | .rdSym (.byte _) =>
      (r = .symbolAddress ∧ 256 ≤ s.cur.toNat) ∨
        (r = .registerWidth ∧ s.cur.toNat < 256 ∧ s.rem.toNat = 0)
  | .symNext => r = .levelIndex ∧ s.lidx.toNat + 1 ≠ s.depth.toNat ∧ 24 ≤ s.lidx.toNat + 1
  | .eobacc => BumpStops s r
  | .derive =>
      r = .levelIndex ∧
        (24 ≤ s.lidx.toNat ∨ (s.lidx.toNat + 1 ≠ s.depth.toNat ∧ 24 ≤ s.lidx.toNat + 1))
  | .emit =>
      r = .registerWidth ∧ 2 ^ s.cfg.countW - 1 < s.outCount ∧ s.pins.outReady = true ∧
        s.pins.outErr = false
  | .bit b =>
      (r = .registerWidth ∧ (s.bl.toNat = 0 ∨ 256 ≤ s.code.toNat)) ∨
        (0 < s.bl.toNat ∧ s.code.toNat < 256 ∧
          ((r = .levelIndex ∧ 24 ≤ s.lvl.toNat) ∨
            (r = .symbolAddress ∧ s.lvl.toNat < 24 ∧
              ∃ idx, 2 * s.code.toNat + b.toNat = entry s.intn s.lvl.toNat + idx ∧
                idx < entry s.leaves s.lvl.toNat ∧
                entry s.offs s.lvl.toNat + idx ≠ s.eobix.toNat ∧
                256 ≤ entry s.offs s.lvl.toNat + idx)))
  | .reset => False
  | .start => False
  | .rdDepth _ => False
  | .rdCount .eod => False
  | .rdCount .err => False
  | .sumchk => False
  | .rdSym .eod => False
  | .rdSym .err => False
  | .fetch _ => False

/-- The frame of each operation: `t` differs from `s` at most in the registers the "written by" lists of
10_state.md R22 to R38 and 20_memory.md R60 give the operation, in the token it takes, and in ERR and
PHASE where it can raise. Of a table only the named entry may change, of the symbol memory only the
byte at CUR. -/
def WritesOnly (s t : State) : Instr → Prop
  | .reset => t.cfg = s.cfg ∧ t.mem = s.mem ∧ t.schedule = s.schedule ∧ t.input = s.input ∧
      t.output = s.output
  | .start => t.cfg = s.cfg ∧ t.mem = s.mem ∧ t.schedule = s.schedule ∧ t.input = s.input ∧
      t.output = s.output
  | .rdDepth _ => t = { s with
      input := s.input.tail, depth := t.depth, lidx := t.lidx, sum := t.sum, phase := t.phase
      err := t.err }
  | .rdCount _ =>
      (∀ l, l ≠ s.lidx.toNat → entry t.leaves l = entry s.leaves l) ∧
        t = { s with
          input := s.input.tail, leaves := t.leaves, sum := t.sum, lidx := t.lidx
          phase := t.phase, err := t.err }
  | .sumchk => t = { s with phase := t.phase, err := t.err }
  | .eobres =>
      (∀ l, l + 1 ≠ s.depth.toNat → entry t.leaves l = entry s.leaves l) ∧
        (∀ l, l ≠ 0 → entry t.offs l = entry s.offs l) ∧
        t = { s with
          leaves := t.leaves, offs := t.offs, lidx := t.lidx, cur := t.cur, rem := t.rem
          phase := t.phase }
  | .rdSym _ =>
      (∀ a, a ≠ s.cur.toNat → memRead t a = memRead s a) ∧
        t = { s with
          input := s.input.tail, mem := t.mem, cur := t.cur, rem := t.rem, phase := t.phase
          err := t.err }
  | .symNext =>
      (∀ l, l ≠ s.lidx.toNat + 1 → entry t.offs l = entry s.offs l) ∧
        t = { s with offs := t.offs, lidx := t.lidx, rem := t.rem, phase := t.phase }
  | .eobacc =>
      (∀ l, l + 1 ≠ s.depth.toNat → entry t.leaves l = entry s.leaves l) ∧
        t = { s with leaves := t.leaves, eobix := t.eobix, lidx := t.lidx, phase := t.phase }
  | .derive =>
      (∀ l, l ≠ s.lidx.toNat → entry t.intn l = entry s.intn l) ∧
        t = { s with
          intn := t.intn, lidx := t.lidx, lvl := t.lvl, code := t.code, sr := t.sr, bl := t.bl
          opend := t.opend, phase := t.phase }
  | .emit => t = { s with
      outCount := t.outCount, opend := t.opend, output := t.output, phase := t.phase
      err := t.err }
  | .fetch _ => t = { s with
      input := s.input.tail, sr := t.sr, bl := t.bl, phase := t.phase, err := t.err }
  | .bit _ => t = { s with
      sr := t.sr, bl := t.bl, code := t.code, lvl := t.lvl, obuf := t.obuf, opend := t.opend
      phase := t.phase, err := t.err }

end Sys2Proof.Machine
end

