-- ==== Sys2Proof/Certificates/Slice0/Obligations.lean ====
section
/-! DEFINITION. The statements for the provers. Each docstring names the rules of spec/ it formalises. The
next states of the operations' statements are written out in full, so that each is the operation's frame
as well: every field a statement does not name is the field of the state before. -/

open Sys2Proof Sys2Proof.Machine

/-! ### Encoding and selection -/

/-- Decoding the signals of an operation gives the operation back, with its operand, for every operation
and operand; and signals decode to an operation exactly when they meet the condition and encoding
columns of its row (30_encoding.md R86, R82, 42_descriptor_lifecycle.md R175). -/
def Obligations.SelectionAgreesWithOperationMap : Prop :=
  (∀ i : Instr, decode (encode i) = .instr i) ∧
    ∀ (w : OpWord) (i : Instr), decode w = .instr i ↔ RowSelects w i

/-- A few signals written out from the tables of 30_encoding.md R82, R86 and 10_state.md R37. -/
def Obligations.WrittenOutWordsDecode : Prop :=
  decode ⟨false, false, 1#4, false, false, false, false, some 0b00_00000011#10⟩ =
      .instr (.rdDepth (.byte 3#8)) ∧
    decode ⟨false, false, 2#4, false, false, false, false, some 0b01_00000000#10⟩ =
      .instr (.rdCount .eod) ∧
    decode ⟨false, false, 5#4, true, false, false, false, some 0b00_01100011#10⟩ =
      .instr (.rdSym (.byte 0x63#8)) ∧
    decode ⟨false, false, 8#4, false, false, false, false, some 0b11_10000001#10⟩ =
      .instr (.fetch .err) ∧
    decode ⟨false, false, 8#4, false, false, true, true, none⟩ = .instr (.bit true) ∧
    decode ⟨false, true, 10#4, false, false, false, false, none⟩ = .instr .start ∧
    decode ⟨true, true, 8#4, false, true, true, false, none⟩ = .instr .reset

/-- 30_encoding.md R95: the reserved token kind raises InputReadError wherever a token is taken. -/
def Obligations.ReservedTokenKindRaisesInputReadError : Prop :=
  ∀ (s : State) (k : Tok), s.pins.rst = false → s.err.toNat ≤ 9 → TakesNow s →
    offered s = some k → k.toNat / 256 = 3 →
    step s = .next { s with
      input := s.input.tail, err := 7#4, phase := 10#4, schedule := s.schedule.tail }

/-- A step runs the operation its signals decode to, then the inputs of the next step apply; it rests
where none is selected or its token is not offered, and refuses a reserved PHASE
(42_descriptor_lifecycle.md R175, 00_scope.md R13). -/
def Obligations.StepRunsTheDecodedOperation : Prop :=
  ∀ s : State, s.pins.rst = true ∨ s.err.toNat ≤ 9 →
    (∀ i t, decode (opWord s) = .instr i → exec i s = .next t →
      step s = .next { t with schedule := t.schedule.tail }) ∧
    (∀ i r, decode (opWord s) = .instr i → exec i s = .fault r → step s = .fault r) ∧
    (decode (opWord s) = .quiescent → step s = .next { s with schedule := s.schedule.tail }) ∧
    (decode (opWord s) = .waiting → step s = .next { s with schedule := s.schedule.tail }) ∧
    (decode (opWord s) = .reservedPhase → step s = .refused .reservedPhase)

/-- 42_descriptor_lifecycle.md R175: operation selection, line by line, on a state whose ERR is not
reserved. A token operation fires only when its token is offered; EMIT's wait for the consumer's answer
is in EMIT's own meaning (log 9). -/
def Obligations.StepSelectsByPhase : Prop :=
  ∀ s : State, s.err.toNat ≤ 9 →
    (s.pins.rst = true → select s = .run .reset) ∧
    (s.pins.rst = false →
      ((s.phase = 0#4 ∨ s.phase = 9#4 ∨ s.phase = 10#4) →
        (s.pins.start = true → select s = .run .start) ∧
        (s.pins.start = false → select s = .rest)) ∧
      (s.phase = 1#4 → (∀ k, offered s = some k → select s = .run (.rdDepth (Token.ofBits k))) ∧
        (offered s = none → select s = .rest)) ∧
      (s.phase = 2#4 → (∀ k, offered s = some k → select s = .run (.rdCount (Token.ofBits k))) ∧
        (offered s = none → select s = .rest)) ∧
      (s.phase = 3#4 → select s = .run .sumchk) ∧
      (s.phase = 4#4 → select s = .run .eobres) ∧
      (s.phase = 5#4 → 0 < s.rem.toNat →
        (∀ k, offered s = some k → select s = .run (.rdSym (Token.ofBits k))) ∧
        (offered s = none → select s = .rest)) ∧
      (s.phase = 5#4 → s.rem.toNat = 0 → select s = .run .symNext) ∧
      (s.phase = 6#4 → select s = .run .eobacc) ∧
      (s.phase = 7#4 → select s = .run .derive) ∧
      (s.phase = 8#4 → s.opend = true → select s = .run .emit) ∧
      (s.phase = 8#4 → s.opend = false → s.bl.toNat = 0 →
        (∀ k, offered s = some k → select s = .run (.fetch (Token.ofBits k))) ∧
        (offered s = none → select s = .rest)) ∧
      (s.phase = 8#4 → s.opend = false → 0 < s.bl.toNat →
        select s = .run (.bit (s.sr.getLsbD 7))) ∧
      (11 ≤ s.phase.toNat → select s = .refuse .reservedPhase))

/-! ### Session control -/

/-- 42_descriptor_lifecycle.md R170: RESET writes every register its reset value in any phase and leaves
the symbol memory, and takes priority over every other operation. -/
def Obligations.ResetClearsEveryRegister : Prop :=
  ∀ s : State,
    exec .reset s = .next { s with
      phase := 0#4, err := 0#4, outCount := 0, depth := 0#5, leaves := Vector.replicate 24 0#9
      intn := Vector.replicate 24 0#9, offs := Vector.replicate 24 0#9, eobix := 0#9
      lidx := 0#5, sum := 0#13, rem := 0#9, cur := 0#9, lvl := 0#5, code := 0#9, sr := 0#8
      bl := 0#4, obuf := 0#8, opend := false } ∧
    (∀ t, exec .reset s = .next t → busy t = false ∧ done t = false ∧ fail t = false) ∧
    (s.pins.rst = true → select s = .run .reset)

/-- 42_descriptor_lifecycle.md R171: START writes every register its START value, takes no token, leaves
the symbol memory, and is selected in IDLE, DONE and FAILED (in a state whose ERR is not reserved). -/
def Obligations.StartBeginsASession : Prop :=
  ∀ s : State,
    exec .start s = .next { s with
      phase := 1#4, err := 0#4, outCount := 0, depth := 0#5, leaves := Vector.replicate 24 0#9
      intn := Vector.replicate 24 0#9, offs := Vector.replicate 24 0#9, eobix := 0#9
      lidx := 0#5, sum := 0#13, rem := 0#9, cur := 0#9, lvl := 0#5, code := 0#9, sr := 0#8
      bl := 0#4, obuf := 0#8, opend := false } ∧
    (∀ t, exec .start s = .next t → busy t = true ∧ done t = false ∧ fail t = false) ∧
    (s.pins.rst = false → s.pins.start = true → s.err.toNat ≤ 9 →
      (s.phase = 0#4 ∨ s.phase = 9#4 ∨ s.phase = 10#4) → select s = .run .start)

/-- 42_descriptor_lifecycle.md R172: START while busy is ignored; the step is the one of `start` = 0. -/
def Obligations.StartWhileBusyIsIgnored : Prop :=
  ∀ (s : State) (p : Pins) (ps : List Pins), s.schedule = p :: ps → p.start = true →
    1 ≤ s.phase.toNat → s.phase.toNat ≤ 8 →
    step s = step { s with schedule := { p with start := false } :: ps }

/-- 42_descriptor_lifecycle.md R176: in IDLE, DONE and FAILED the block takes no token, outputs nothing
and changes nothing; only RESET and START leave these phases. -/
def Obligations.QuiescentPhasesChangeNothing : Prop :=
  ∀ s : State, s.err.toNat ≤ 9 → (s.phase = 0#4 ∨ s.phase = 9#4 ∨ s.phase = 10#4) →
    (s.pins.rst = false → s.pins.start = false →
      step s = .next { s with schedule := s.schedule.tail } ∧ inReady s = false ∧
        outValid s = false) ∧
    (∀ t, step s = .next t → t.phase ≠ s.phase → s.pins.rst = true ∨ s.pins.start = true)

/-- 70_reset_and_hazards.md R229: a busy block waits in exactly two situations, a `take()` with no token
offered and a `put` not yet answered; a wait changes no state (the inputs alone move on). -/
def Obligations.BusyBlockWaitsInTwoSituations : Prop :=
  ∀ s : State, s.pins.rst = false → s.err.toNat ≤ 9 → 1 ≤ s.phase.toNat → s.phase.toNat ≤ 8 →
    (step s = .next { s with schedule := s.schedule.tail } ↔
      (TakesNow s ∧ offered s = none) ∨
        (s.phase = 8#4 ∧ s.opend = true ∧ s.outCount ≠ 2 ^ s.cfg.countW - 1 ∧
          s.pins.outReady = false))

/-! ### The tree builder -/

/-- 40_tree_builder.md R111. -/
def Obligations.RdDepthReadsTheTreeDepth : Prop :=
  ∀ s : State,
    (∀ b : Byte, 1 ≤ b.toNat → b.toNat ≤ 24 →
      exec (.rdDepth (.byte b)) s = .next { s with
        input := s.input.tail, depth := BitVec.ofNat 5 b.toNat, lidx := 0#5, sum := 0#13
        phase := 2#4 }) ∧
    (∀ b : Byte, b.toNat < 1 ∨ 24 < b.toNat →
      exec (.rdDepth (.byte b)) s = .next { s with
        input := s.input.tail, err := 1#4, phase := 10#4 }) ∧
    exec (.rdDepth .eod) s = .next { s with input := s.input.tail, err := 4#4, phase := 10#4 } ∧
    exec (.rdDepth .err) s = .next { s with input := s.input.tail, err := 7#4, phase := 10#4 }

/-- 40_tree_builder.md R112, for every level of the table and every sum that fits SUM. -/
def Obligations.RdCountReadsOneLeafCount : Prop :=
  ∀ s : State,
    (∀ c : Byte, s.lidx.toNat < 24 → s.sum.toNat + c.toNat < 8192 →
      s.lidx.toNat + 1 = s.depth.toNat →
      exec (.rdCount (.byte c)) s = .next { s with
        input := s.input.tail
        leaves := s.leaves.setIfInBounds s.lidx.toNat (BitVec.ofNat 9 c.toNat)
        sum := BitVec.ofNat 13 (s.sum.toNat + c.toNat), phase := 3#4 }) ∧
    (∀ c : Byte, s.lidx.toNat < 24 → s.sum.toNat + c.toNat < 8192 →
      s.lidx.toNat + 1 ≠ s.depth.toNat →
      exec (.rdCount (.byte c)) s = .next { s with
        input := s.input.tail
        leaves := s.leaves.setIfInBounds s.lidx.toNat (BitVec.ofNat 9 c.toNat)
        sum := BitVec.ofNat 13 (s.sum.toNat + c.toNat)
        lidx := BitVec.ofNat 5 (s.lidx.toNat + 1) }) ∧
    exec (.rdCount .eod) s = .next { s with input := s.input.tail, err := 4#4, phase := 10#4 } ∧
    exec (.rdCount .err) s = .next { s with input := s.input.tail, err := 7#4, phase := 10#4 }

/-- 40_tree_builder.md R113. -/
def Obligations.SumchkRaisesAboveTwoHundredFiftySix : Prop :=
  ∀ s : State,
    (256 < s.sum.toNat + 1 → exec .sumchk s = .next { s with err := 2#4, phase := 10#4 }) ∧
    (s.sum.toNat + 1 ≤ 256 → exec .sumchk s = .next { s with phase := 4#4 })

/-- 40_tree_builder.md R114: REM is LEAVES[0] read after the increment. -/
def Obligations.EobresReservesTheExtraSlot : Prop :=
  ∀ (s : State) (l : Nat), l + 1 = s.depth.toNat → l < 24 → entry s.leaves l < 511 →
    exec .eobres s = .next { s with
      leaves := s.leaves.setIfInBounds l (BitVec.ofNat 9 (entry s.leaves l + 1))
      lidx := 0#5, cur := 0#9, offs := s.offs.setIfInBounds 0 0#9
      rem := BitVec.ofNat 9 (if l = 0 then entry s.leaves 0 + 1 else entry s.leaves 0)
      phase := 5#4 }

/-- 40_tree_builder.md R115; the byte is then read back at CUR and every other address is as before. -/
def Obligations.RdSymStoresOneSymbol : Prop :=
  ∀ s : State,
    (∀ v : Byte, s.cur.toNat ≤ 255 → 0 < s.rem.toNat →
      ∃ m : Memory,
        exec (.rdSym (.byte v)) s = .next { s with
          input := s.input.tail, mem := m, cur := BitVec.ofNat 9 (s.cur.toNat + 1)
          rem := BitVec.ofNat 9 (s.rem.toNat - 1) } ∧
        lookup m s.cur.toNat = some v ∧ ∀ a, a ≠ s.cur.toNat → lookup m a = lookup s.mem a) ∧
    exec (.rdSym .eod) s = .next { s with input := s.input.tail, err := 3#4, phase := 10#4 } ∧
    exec (.rdSym .err) s = .next { s with input := s.input.tail, err := 7#4, phase := 10#4 }

/-- 40_tree_builder.md R116. -/
def Obligations.SymNextMovesToTheNextLevel : Prop :=
  ∀ s : State,
    (s.lidx.toNat + 1 = s.depth.toNat → exec .symNext s = .next { s with phase := 6#4 }) ∧
    (s.lidx.toNat + 1 ≠ s.depth.toNat → s.lidx.toNat + 1 < 24 →
      exec .symNext s = .next { s with
        lidx := BitVec.ofNat 5 (s.lidx.toNat + 1)
        offs := s.offs.setIfInBounds (s.lidx.toNat + 1) s.cur
        rem := BitVec.ofNat 9 (entry s.leaves (s.lidx.toNat + 1)) })

/-- 40_tree_builder.md R117. -/
def Obligations.EobaccAccountsForTheEobSlot : Prop :=
  ∀ (s : State) (l : Nat), l + 1 = s.depth.toNat → l < 24 → entry s.leaves l < 511 →
    exec .eobacc s = .next { s with
      leaves := s.leaves.setIfInBounds l (BitVec.ofNat 9 (entry s.leaves l + 1))
      eobix := s.cur, lidx := BitVec.ofNat 5 l, phase := 7#4 }

/-- 40_tree_builder.md R118. -/
def Obligations.DeriveComputesOneInternalCount : Prop :=
  ∀ (s : State) (n : Nat), s.lidx.toNat < 24 →
    (s.lidx.toNat + 1 = s.depth.toNat ∧ n = 0 ∨
      s.lidx.toNat + 1 ≠ s.depth.toNat ∧ s.lidx.toNat + 1 < 24 ∧
        n = (entry s.intn (s.lidx.toNat + 1) + entry s.leaves (s.lidx.toNat + 1)) / 2) →
    (s.lidx.toNat = 0 → exec .derive s = .next { s with
      intn := s.intn.setIfInBounds 0 (BitVec.ofNat 9 n), lvl := 0#5, code := 0#9, sr := 0#8
      bl := 0#4, opend := false, phase := 8#4 }) ∧
    (s.lidx.toNat ≠ 0 → exec .derive s = .next { s with
      intn := s.intn.setIfInBounds s.lidx.toNat (BitVec.ofNat 9 n)
      lidx := BitVec.ofNat 5 (s.lidx.toNat - 1) })

/-! ### The bit walker -/

/-- 41_bit_walker.md R141: LVL and CODE are not changed. -/
def Obligations.FetchLoadsTheNextByte : Prop :=
  ∀ s : State,
    (∀ b : Byte, exec (.fetch (.byte b)) s = .next { s with
      input := s.input.tail, sr := b, bl := 8#4 }) ∧
    exec (.fetch .eod) s = .next { s with input := s.input.tail, err := 6#4, phase := 10#4 } ∧
    exec (.fetch .err) s = .next { s with input := s.input.tail, err := 7#4, phase := 10#4 }

/-- 41_bit_walker.md R142, for every level of the tables and every CODE of 8 bits: descend, resolve to the
EOB, resolve to a stored symbol, or raise CorruptStream with the step's other writes cancelled. A leaf's
address that nothing was written to gives OBUF some value (a free value, log 4). -/
def Obligations.BitWalksOneLevel : Prop :=
  ∀ (s : State) (b : Bool) (c : Nat), 0 < s.bl.toNat → s.code.toNat ≤ 255 → s.lvl.toNat < 24 →
    c = 2 * s.code.toNat + b.toNat →
    (c < entry s.intn s.lvl.toNat → s.lvl.toNat + 2 ≤ s.depth.toNat →
      exec (.bit b) s = .next { s with
        sr := BitVec.ofNat 8 (2 * s.sr.toNat), bl := BitVec.ofNat 4 (s.bl.toNat - 1)
        code := BitVec.ofNat 9 c, lvl := BitVec.ofNat 5 (s.lvl.toNat + 1) }) ∧
    (c < entry s.intn s.lvl.toNat → s.depth.toNat < s.lvl.toNat + 2 →
      exec (.bit b) s = .next { s with err := 5#4, phase := 10#4 }) ∧
    (∀ idx, c = entry s.intn s.lvl.toNat + idx → entry s.leaves s.lvl.toNat ≤ idx →
      exec (.bit b) s = .next { s with err := 5#4, phase := 10#4 }) ∧
    (∀ idx, c = entry s.intn s.lvl.toNat + idx → idx < entry s.leaves s.lvl.toNat →
      entry s.offs s.lvl.toNat + idx = s.eobix.toNat →
      exec (.bit b) s = .next { s with
        sr := BitVec.ofNat 8 (2 * s.sr.toNat), bl := BitVec.ofNat 4 (s.bl.toNat - 1)
        code := BitVec.ofNat 9 c, phase := 9#4 }) ∧
    (∀ idx, c = entry s.intn s.lvl.toNat + idx → idx < entry s.leaves s.lvl.toNat →
      entry s.offs s.lvl.toNat + idx ≠ s.eobix.toNat →
      entry s.offs s.lvl.toNat + idx < 256 →
      ∃ v : Byte,
        (∀ u, lookup s.mem (entry s.offs s.lvl.toNat + idx) = some u → v = u) ∧
        exec (.bit b) s = .next { s with
          sr := BitVec.ofNat 8 (2 * s.sr.toNat), bl := BitVec.ofNat 4 (s.bl.toNat - 1)
          obuf := v, opend := true, lvl := 0#5, code := 0#9 })

/-- 41_bit_walker.md R143: the overflow test, the wait, the failed write and the accepted byte. -/
def Obligations.EmitHandsOneByteToTheConsumer : Prop :=
  ∀ s : State,
    (s.outCount = 2 ^ s.cfg.countW - 1 →
      exec .emit s = .next { s with err := 9#4, phase := 10#4 }) ∧
    (s.outCount ≠ 2 ^ s.cfg.countW - 1 → s.pins.outReady = false → exec .emit s = .next s) ∧
    (s.outCount ≠ 2 ^ s.cfg.countW - 1 → s.pins.outReady = true → s.pins.outErr = true →
      exec .emit s = .next { s with err := 8#4, phase := 10#4 }) ∧
    (s.outCount < 2 ^ s.cfg.countW - 1 → s.pins.outReady = true → s.pins.outErr = false →
      exec .emit s = .next { s with
        output := s.output ++ [s.obuf], outCount := s.outCount + 1, opend := false })

/-! ### The model's own stops -/

/-- The operations stop exactly on the accesses and register writes that 20_memory.md R60, R62 and
00_scope.md R9 rule out, each with the fault named for it, and no operation is refused. That these are
faults is the model's choice (log 5, 6). -/
def Obligations.OperationsStopOnlyOutsideTheirTables : Prop :=
  ∀ (i : Instr) (s : State),
    (∀ r, exec i s = .fault r ↔ StopsWith s r i) ∧ ∀ r, exec i s ≠ .refused r

/-! ### Whole-machine rules -/

/-- The frame of every operation: it writes only the registers that 10_state.md R22 to R38 and
20_memory.md R60 say it writes, and no operation writes the parameter or the inputs' schedule. -/
def Obligations.OperationsWriteOnlyTheirRegisters : Prop :=
  ∀ (i : Instr) (s t : State), exec i s = .next t → WritesOnly s t i

/-- 60_exceptions.md R195, R196: a step that fails writes ERR and PHASE, loses the token it took, and has
no other effect. -/
def Obligations.FailureWritesOnlyErrAndPhase : Prop :=
  ∀ (i : Instr) (s t : State), exec i s = .next t → s.phase ≠ 10#4 → t.phase = 10#4 →
    1 ≤ t.err.toNat ∧ t.err.toNat ≤ 9 ∧
      t = { s with
        input := if i.takesToken then s.input.tail else s.input, err := t.err, phase := 10#4 }

/-- 60_exceptions.md R193: the errors each operation can raise. -/
def Obligations.OperationsRaiseOnlyTheirErrors : Prop :=
  ∀ (i : Instr) (s t : State), exec i s = .next t → s.phase ≠ 10#4 → t.phase = 10#4 →
    t.err ∈ raisable i

/-- 10_state.md R38: ERR is written by a raise, by START and by RESET only, and once nonzero it does not
change until the next START or RESET (in the states of the invariant, where a nonzero ERR stands in
FAILED). -/
def Obligations.ErrIsWrittenByRaiseStartAndReset : Prop :=
  (∀ (i : Instr) (s t : State), exec i s = .next t → t.err ≠ s.err →
    (t.phase = 10#4 ∧ 1 ≤ t.err.toNat ∧ t.err.toNat ≤ 9) ∨
      (t.err = 0#4 ∧ (i = .start ∨ i = .reset))) ∧
  (∀ s t : State, Inv s → s.err ≠ 0#4 → step s = .next t → t.err ≠ s.err →
    select s = .run .start ∨ select s = .run .reset)

/-- 10_state.md R43: the descriptor and the symbol memory are not written in DECODE, DONE and FAILED
(but for the RESET and START that leave them; the symbol memory not even by these). -/
def Obligations.DescriptorIsReadOnlyWhileDecoding : Prop :=
  ∀ s t : State, (s.phase = 8#4 ∨ s.phase = 9#4 ∨ s.phase = 10#4) → step s = .next t →
    t.mem = s.mem ∧
      (select s ≠ .run .reset → select s ≠ .run .start →
        t.depth = s.depth ∧ t.leaves = s.leaves ∧ t.intn = s.intn ∧ t.offs = s.offs ∧
          t.eobix = s.eobix)

/-- 20_memory.md R60: the symbol memory is written only by RD_SYM, one byte at CUR. -/
def Obligations.SymbolMemoryIsWrittenByRdSymOnly : Prop :=
  ∀ s t : State, step s = .next t → t.mem ≠ s.mem →
    ∃ v : Byte, select s = .run (.rdSym (.byte v)) ∧ lookup t.mem s.cur.toNat = some v ∧
      ∀ a, a ≠ s.cur.toNat → lookup t.mem a = lookup s.mem a

/-- 20_memory.md R72, 10_state.md R36: the output grows only by EMIT, by the byte of OBUF, and each
accepted byte is counted once; only START and RESET clear the count. -/
def Obligations.EachAcceptedByteIsCountedOnce : Prop :=
  ∀ s t : State, step s = .next t →
    (t.output = s.output ++ [s.obuf] ∧ t.outCount = s.outCount + 1 ∧ select s = .run .emit ∧
      s.pins.outReady = true ∧ s.pins.outErr = false) ∨
    (t.output = s.output ∧
      (t.outCount = s.outCount ∨
        t.outCount = 0 ∧ (select s = .run .start ∨ select s = .run .reset)))

/-- 20_memory.md R68, 30_encoding.md R83: a step takes at most one token, the one offered, exactly when
`in_ready` is 1; the rest stays in order. -/
def Obligations.TakeConsumesExactlyTheOfferedToken : Prop :=
  ∀ s t : State, step s = .next t →
    (inReady s = true → ∃ k, offered s = some k ∧ s.input = k :: t.input) ∧
    (inReady s = false → t.input = s.input)

/-- 42_descriptor_lifecycle.md R173: the session ends successfully exactly when BIT finds the EOB leaf;
no byte is pending then and nothing is output. -/
def Obligations.SuccessIsBitFindingTheEob : Prop :=
  ∀ s t : State, s.phase ≠ 9#4 → step s = .next t →
    (t.phase = 9#4 ↔
      select s = .run (.bit (nextBit s.sr)) ∧ entry s.intn s.lvl.toNat ≤ nextCode s ∧
        nextIndex s < entry s.leaves s.lvl.toNat ∧ nextAddress s = s.eobix.toNat) ∧
    (t.phase = 9#4 → t.opend = false ∧ t.output = s.output ∧ t.outCount = s.outCount ∧
      t.input = s.input)

/-- 20_memory.md R71: the builder finishes before the first bit: DECODE is entered only by the DERIVE step
of level 0. -/
def Obligations.DecodeIsEnteredByDeriveOfLevelZero : Prop :=
  ∀ s t : State, step s = .next t → s.phase ≠ 8#4 → t.phase = 8#4 →
    select s = .run .derive ∧ s.lidx.toNat = 0 ∧ s.phase = 7#4 ∧ t.lvl = 0#5 ∧ t.code = 0#9 ∧
      t.bl = 0#4 ∧ t.opend = false

/-- 10_state.md R39: the flags are functions of PHASE. -/
def Obligations.FlagsAreFunctionsOfPhase : Prop :=
  ∀ s : State,
    (busy s = true ↔ 1 ≤ s.phase.toNat ∧ s.phase.toNat ≤ 8) ∧
    (done s = true ↔ s.phase.toNat = 9) ∧ (fail s = true ↔ s.phase.toNat = 10)

/-- 10_state.md R40: the fields of STATUS, the reserved bits reading 0. -/
def Obligations.StatusWordHoldsItsFields : Prop :=
  ∀ s : State,
    (status s).toNat = s.phase.toNat + 16 * (busy s).toNat + 32 * (done s).toNat +
      64 * (fail s).toNat + 256 * s.err.toNat

/-- 70_reset_and_hazards.md R220 and 10_state.md R41: what reset leaves, in State.reset and after a RESET
step: PHASE = IDLE and every register 0. -/
def Obligations.ResetStateIsAllZero : Prop :=
  ∀ r : State, (r = State.reset ∨ ∃ s, s.pins.rst = true ∧ step s = .next r) →
    r.phase = 0#4 ∧ r.err = 0#4 ∧ r.outCount = 0 ∧ r.depth = 0#5 ∧
      (∀ l, entry r.leaves l = 0 ∧ entry r.intn l = 0 ∧ entry r.offs l = 0) ∧
      r.eobix = 0#9 ∧ r.lidx = 0#5 ∧ r.sum = 0#13 ∧ r.rem = 0#9 ∧ r.cur = 0#9 ∧ r.lvl = 0#5 ∧
      r.code = 0#9 ∧ r.sr = 0#8 ∧ r.bl = 0#4 ∧ r.obuf = 0#8 ∧ r.opend = false ∧
      status r = 0#32

/-! ### The symbol memory -/

/-- A byte written is read back at its address and every other address reads as before (00_scope.md R11,
20_memory.md R60); the address exists exactly when it is below 256. -/
def Obligations.SymbolWriteIsReadBack : Prop :=
  ∀ (s : State) (a : Nat) (v : Byte),
    (256 ≤ a → memWrite s a v = none ∧ memRead s a = none) ∧
    (a < 256 → ∃ t, memWrite s a v = some t ∧ memRead t a = some v ∧
      ∀ b, b ≠ a → memRead t b = memRead s b)

/-- Two memories in canonical form that hold the same bytes are the same list (the model's canonical
form of the 256-entry memory of 20_memory.md R60). -/
def Obligations.CanonicalMemoryIsUnique : Prop :=
  ∀ m n : Memory, Memory.wf m → Memory.wf n → (∀ a, lookup m a = lookup n a) → m = n

/-! ### The built descriptor -/

/-- 41_bit_walker.md R147: bounds of a built descriptor and of BIT on it. -/
def Obligations.BuiltDescriptorBounds : Prop :=
  (∀ s : State, Built s → ∀ l, l < s.depth.toNat → entry s.intn l ≤ 128) ∧
  (∀ s : State, Inv s → s.phase = 8#4 → s.opend = false → 0 < s.bl.toNat →
    nextCode s ≤ 255 ∧ nextIndex s ≤ 255 ∧
      (entry s.intn s.lvl.toNat ≤ nextCode s → nextIndex s < entry s.leaves s.lvl.toNat →
        nextAddress s ≤ 256))

/-- 41_bit_walker.md R150 and R148: CorruptStream arises only at level 0 of an under-full root, so never
from the descend check. -/
def Obligations.CorruptStreamOnlyAtAnUnderfullRoot : Prop :=
  ∀ s t : State, Inv s → s.phase = 8#4 → step s = .next t → t.err = 5#4 →
    s.lvl.toNat = 0 ∧ entry s.intn 0 + entry s.leaves 0 ≤ nextCode s ∧ nextCode s ≤ 1

/-- 41_bit_walker.md R149, 20_memory.md R75: a symbol that BIT puts in OBUF was stored, below EOBIX. -/
def Obligations.DecodedSymbolWasStored : Prop :=
  ∀ s t : State, Inv s → s.phase = 8#4 → s.opend = false → step s = .next t →
    t.opend = true →
    nextAddress s < s.eobix.toNat ∧ lookup s.mem (nextAddress s) = some t.obuf

/-- 41_bit_walker.md R151: the EOB is reached only at the deepest level, by the code of value
INTN[DEPTH-1] + LEAVES[DEPTH-1] - 1. -/
def Obligations.EobIsReachedAtTheDeepestLevel : Prop :=
  ∀ s t : State, Inv s → s.phase = 8#4 → step s = .next t → t.phase = 9#4 →
    s.lvl.toNat + 1 = s.depth.toNat ∧
      nextCode s + 1 = entry s.intn s.lvl.toNat + entry s.leaves s.lvl.toNat ∧
      t.output = s.output

/-- 30_encoding.md R90, 41_bit_walker.md R153: no code of a reachable leaf is a prefix of another. -/
def Obligations.ReachableCodesArePrefixFree : Prop :=
  ∀ (d : Descriptor) (l i l' i' : Nat), leafReachable d l i = true →
    leafReachable d l' i' = true → leafCode d l i <+: leafCode d l' i' → l = l' ∧ i = i'

/-! ### Headline results -/

/-- The invariant holds in the reset state. -/
def Obligations.ResetMeetsTheInvariant : Prop := Inv State.reset

/-- From every state of the invariant a step answers a next state, again of the invariant: a session
never meets one of the model's stops, whatever the host does. -/
def Obligations.EveryStepKeepsTheInvariant : Prop :=
  ∀ s : State, Inv s → ∃ t, step s = .next t ∧ Inv t

/-- 40_tree_builder.md R110, R119, R121 and 10_state.md R42: from HDR_DEPTH, with a legal header offered
token by token, the builder enters DECODE after exactly S + 3·DEPTH + 5 steps, has consumed exactly the
1 + DEPTH + (S + 1) tokens of the header, and has built the descriptor of the header. -/
def Obligations.BuilderBuildsTheDescriptor : Prop :=
  ∀ (c : Container) (s : State) (rest : List Tok) (later : List Pins),
    c.wellFormed = true → s.phase = 1#4 → s.err = 0#4 →
    s.input = byteTokens (BitVec.ofNat 8 c.counts.length :: (c.counts ++ c.symbols)) ++ rest →
    s.schedule = readySchedule (c.total + 3 * c.counts.length + 5) ++ later →
    ∃ t : State,
      Host.Core.run Sys2Proof.core (c.total + 3 * c.counts.length + 5) s = .next t ∧
      t.phase = 8#4 ∧ t.err = 0#4 ∧ t.input = rest ∧ t.schedule = later ∧
      t.depth.toNat = c.counts.length ∧
      descriptorOf t = { Descriptor.ofContainer c with symbols := [] } ∧
      (∀ a, a ≤ c.total → lookup t.mem a = c.symbols[a]?) ∧
      t.lvl = 0#5 ∧ t.code = 0#9 ∧ t.bl = 0#4 ∧ t.opend = false ∧
      t.outCount = s.outCount ∧ t.output = s.output

/-- 41_bit_walker.md R153 and R151: where the walker stands at the root with the codes of the reachable
leaves `xs` (none of them the EOB), then the EOB code, before it, and the host answers, the session ends
in DONE with the stored bytes of `xs` output in order and counted. -/
def Obligations.CodesDecodeToTheirSymbols : Prop :=
  ∀ (s : State) (xs : List (Nat × Nat)) (eob junk : List Bool) (later : List Pins) (n : Nat),
    Inv s → s.phase = 8#4 → s.opend = false → s.lvl.toNat = 0 →
    (∀ x, x ∈ xs → leafReachable (descriptorOf s) x.1 x.2 = true ∧
      entry s.offs x.1 + x.2 ≠ s.eobix.toNat) →
    eobCode (descriptorOf s) = some eob →
    pendingBits s = (xs.flatMap fun x => leafCode (descriptorOf s) x.1 x.2) ++ eob ++ junk →
    s.outCount + xs.length < 2 ^ s.cfg.countW →
    n = 3 * ((xs.flatMap fun x => leafCode (descriptorOf s) x.1 x.2).length + eob.length) →
    s.schedule = readySchedule n ++ later →
    ∃ (k : Nat) (t : State) (ys : List Byte), k ≤ n ∧
      Host.Core.run Sys2Proof.core k s = .next t ∧ t.phase = 9#4 ∧ t.err = 0#4 ∧
      ys.map some = xs.map (fun x => lookup s.mem (entry s.offs x.1 + x.2)) ∧
      t.output = s.output ++ ys ∧ t.outCount = s.outCount + xs.length

/-- 41_bit_walker.md R152 and 40_tree_builder.md R120: what a session makes does not depend on what the
block held before its START. Two states that the same inputs await and that both START go on with the
same PHASE, ERR, OUT_COUNT, input and new output after any number of steps. -/
def Obligations.SessionIgnoresThePast : Prop :=
  ∀ (s t : State) (n : Nat), Inv s → Inv t → s.cfg = t.cfg → s.schedule = t.schedule →
    s.input = t.input → select s = .run .start → select t = .run .start →
    ∃ (s' t' : State) (ys : List Byte),
      Host.Core.run Sys2Proof.core (n + 1) s = .next s' ∧
      Host.Core.run Sys2Proof.core (n + 1) t = .next t' ∧
      s'.phase = t'.phase ∧ s'.err = t'.err ∧ s'.outCount = t'.outCount ∧
      s'.input = t'.input ∧ s'.output = s.output ++ ys ∧ t'.output = t.output ++ ys

/-- 70_reset_and_hazards.md R230: if the host answers every take and every put and the input is finite and
ends with End, a busy block reaches DONE or FAILED, within a bound that grows by 17 steps a token. -/
def Obligations.AnsweredSessionEnds : Prop :=
  ∀ (s : State) (bs : List Byte) (later : List Pins), Inv s → 1 ≤ s.phase.toNat →
    s.phase.toNat ≤ 8 → s.input = byteTokens bs ++ [Token.eod.toBits] →
    s.schedule = readySchedule (400 + 17 * bs.length) ++ later →
    ∃ (k : Nat) (t : State), k ≤ 400 + 17 * bs.length ∧
      Host.Core.run Sys2Proof.core k s = .next t ∧ (t.phase = 9#4 ∨ t.phase = 10#4)
end

