-- ==== Sys2Proof/Laws/Decode.lean ====
section
/-! SUPPORT. Laws of decoding: tokens, phases and the selection. -/

namespace Sys2Proof

@[simp] theorem Phase.ofBits_bits (p : Phase) : Phase.ofBits p.bits = some p := by
  cases p <;> rfl

theorem Phase.bits_of_ofBits {v : BitVec 4} {p : Phase} (h : Phase.ofBits v = some p) :
    v = p.bits := by
  revert h
  revert v
  cases p <;> decide

theorem Phase.ofBits_eq_some {v : BitVec 4} {p : Phase} : Phase.ofBits v = some p ↔ v = p.bits :=
  ⟨Phase.bits_of_ofBits, fun h => by rw [h, Phase.ofBits_bits]⟩

theorem Phase.ofBits_eq_none {v : BitVec 4} : Phase.ofBits v = none ↔ 11 ≤ v.toNat := by
  revert v
  decide

theorem Token.ofBits_byte (b : Byte) : Token.ofBits (Token.byte b).toBits = .byte b := by
  revert b
  decide

/-- A token's 10 bits read back as the token (30_encoding.md R82). -/
@[simp] theorem Token.ofBits_toBits (t : Token) : Token.ofBits t.toBits = t := by
  cases t with
  | byte b => exact Token.ofBits_byte b
  | eod => decide
  | err => decide

/-- The kind of a token word, bits 9:8, as a number. -/
theorem Token.kind_toNat (w : Tok) : (w.extractLsb' 8 2).toNat = w.toNat / 256 := by
  have := w.isLt
  simp only [BitVec.extractLsb'_toNat, Nat.shiftRight_eq_div_pow]
  omega

/-- The data of a token word, bits 7:0, as a number. -/
theorem Token.data_toNat (w : Tok) : (w.extractLsb' 0 8).toNat = w.toNat % 256 := by
  simp [BitVec.extractLsb'_toNat]

/-- A byte token is kind 0b00 with the byte in the data bits (30_encoding.md R82). -/
theorem Token.ofBits_eq_byte {w : Tok} {b : Byte} :
    Token.ofBits w = .byte b ↔ w.toNat / 256 = 0 ∧ w.toNat % 256 = b.toNat := by
  have hk := Token.kind_toNat w
  have hd := Token.data_toNat w
  unfold Token.ofBits
  rw [hk]
  split
  · rename_i h
    rw [Token.byte.injEq, ← BitVec.toNat_inj, hd]
    simp [h]
  · simp_all
  · simp_all

/-- End is kind 0b01; its data bits are ignored (30_encoding.md R82). -/
theorem Token.ofBits_eq_eod {w : Tok} : Token.ofBits w = .eod ↔ w.toNat / 256 = 1 := by
  unfold Token.ofBits
  rw [Token.kind_toNat w]
  split <;> rename_i h
  · simp only [reduceCtorEq, false_iff]
    omega
  · exact ⟨fun _ => h, fun _ => rfl⟩
  · simp only [reduceCtorEq, false_iff]
    omega

/-- Err is kind 0b10 or the reserved kind 0b11 (30_encoding.md R82, R95). -/
theorem Token.ofBits_eq_err {w : Tok} : Token.ofBits w = .err ↔ 2 ≤ w.toNat / 256 := by
  unfold Token.ofBits
  rw [Token.kind_toNat w]
  split <;> rename_i h
  · simp only [reduceCtorEq, false_iff]
    omega
  · simp only [reduceCtorEq, false_iff]
    omega
  · rename_i h0
    simp only [true_iff]
    have : w.toNat / 256 ≠ 0 := h0
    have : w.toNat / 256 ≠ 1 := h
    omega

/-- A token operation is decoded exactly when a token is offered. -/
theorem decodeToken_eq_instr {w : OpWord} {op : Token → Instr} {i : Instr} :
    decodeToken w op = .instr i ↔ ∃ k, w.tok = some k ∧ op (Token.ofBits k) = i := by
  unfold decodeToken
  cases w.tok <;> simp

end Sys2Proof
end

