-- ==== Sys2Proof/Laws/State.lean ====
section
/-! SUPPORT. The fields of State after each named update, one lemma a field, so that no later proof
unfolds an update. -/

namespace Sys2Proof.Machine

/-! ### consume -/

@[simp] theorem consume_cfg (s : State) : (consume s).cfg = s.cfg := rfl
@[simp] theorem consume_phase (s : State) : (consume s).phase = s.phase := rfl
@[simp] theorem consume_err (s : State) : (consume s).err = s.err := rfl
@[simp] theorem consume_outCount (s : State) : (consume s).outCount = s.outCount := rfl
@[simp] theorem consume_depth (s : State) : (consume s).depth = s.depth := rfl
@[simp] theorem consume_leaves (s : State) : (consume s).leaves = s.leaves := rfl
@[simp] theorem consume_intn (s : State) : (consume s).intn = s.intn := rfl
@[simp] theorem consume_offs (s : State) : (consume s).offs = s.offs := rfl
@[simp] theorem consume_eobix (s : State) : (consume s).eobix = s.eobix := rfl
@[simp] theorem consume_lidx (s : State) : (consume s).lidx = s.lidx := rfl
@[simp] theorem consume_sum (s : State) : (consume s).sum = s.sum := rfl
@[simp] theorem consume_rem (s : State) : (consume s).rem = s.rem := rfl
@[simp] theorem consume_cur (s : State) : (consume s).cur = s.cur := rfl
@[simp] theorem consume_lvl (s : State) : (consume s).lvl = s.lvl := rfl
@[simp] theorem consume_code (s : State) : (consume s).code = s.code := rfl
@[simp] theorem consume_sr (s : State) : (consume s).sr = s.sr := rfl
@[simp] theorem consume_bl (s : State) : (consume s).bl = s.bl := rfl
@[simp] theorem consume_obuf (s : State) : (consume s).obuf = s.obuf := rfl
@[simp] theorem consume_opend (s : State) : (consume s).opend = s.opend := rfl
@[simp] theorem consume_mem (s : State) : (consume s).mem = s.mem := rfl
@[simp] theorem consume_schedule (s : State) : (consume s).schedule = s.schedule := rfl
@[simp] theorem consume_input (s : State) : (consume s).input = s.input.tail := rfl
@[simp] theorem consume_output (s : State) : (consume s).output = s.output := rfl

/-! ### accept -/

@[simp] theorem accept_cfg (s : State) (b : Byte) : (accept s b).cfg = s.cfg := rfl
@[simp] theorem accept_phase (s : State) (b : Byte) : (accept s b).phase = s.phase := rfl
@[simp] theorem accept_err (s : State) (b : Byte) : (accept s b).err = s.err := rfl
@[simp] theorem accept_outCount (s : State) (b : Byte) : (accept s b).outCount = s.outCount := rfl
@[simp] theorem accept_depth (s : State) (b : Byte) : (accept s b).depth = s.depth := rfl
@[simp] theorem accept_leaves (s : State) (b : Byte) : (accept s b).leaves = s.leaves := rfl
@[simp] theorem accept_intn (s : State) (b : Byte) : (accept s b).intn = s.intn := rfl
@[simp] theorem accept_offs (s : State) (b : Byte) : (accept s b).offs = s.offs := rfl
@[simp] theorem accept_eobix (s : State) (b : Byte) : (accept s b).eobix = s.eobix := rfl
@[simp] theorem accept_lidx (s : State) (b : Byte) : (accept s b).lidx = s.lidx := rfl
@[simp] theorem accept_sum (s : State) (b : Byte) : (accept s b).sum = s.sum := rfl
@[simp] theorem accept_rem (s : State) (b : Byte) : (accept s b).rem = s.rem := rfl
@[simp] theorem accept_cur (s : State) (b : Byte) : (accept s b).cur = s.cur := rfl
@[simp] theorem accept_lvl (s : State) (b : Byte) : (accept s b).lvl = s.lvl := rfl
@[simp] theorem accept_code (s : State) (b : Byte) : (accept s b).code = s.code := rfl
@[simp] theorem accept_sr (s : State) (b : Byte) : (accept s b).sr = s.sr := rfl
@[simp] theorem accept_bl (s : State) (b : Byte) : (accept s b).bl = s.bl := rfl
@[simp] theorem accept_obuf (s : State) (b : Byte) : (accept s b).obuf = s.obuf := rfl
@[simp] theorem accept_opend (s : State) (b : Byte) : (accept s b).opend = s.opend := rfl
@[simp] theorem accept_mem (s : State) (b : Byte) : (accept s b).mem = s.mem := rfl
@[simp] theorem accept_schedule (s : State) (b : Byte) : (accept s b).schedule = s.schedule := rfl
@[simp] theorem accept_input (s : State) (b : Byte) : (accept s b).input = s.input := rfl
@[simp] theorem accept_output (s : State) (b : Byte) : (accept s b).output = s.output ++ [b] := rfl

/-! ### tick -/

@[simp] theorem tick_cfg (s : State) : (tick s).cfg = s.cfg := rfl
@[simp] theorem tick_phase (s : State) : (tick s).phase = s.phase := rfl
@[simp] theorem tick_err (s : State) : (tick s).err = s.err := rfl
@[simp] theorem tick_outCount (s : State) : (tick s).outCount = s.outCount := rfl
@[simp] theorem tick_depth (s : State) : (tick s).depth = s.depth := rfl
@[simp] theorem tick_leaves (s : State) : (tick s).leaves = s.leaves := rfl
@[simp] theorem tick_intn (s : State) : (tick s).intn = s.intn := rfl
@[simp] theorem tick_offs (s : State) : (tick s).offs = s.offs := rfl
@[simp] theorem tick_eobix (s : State) : (tick s).eobix = s.eobix := rfl
@[simp] theorem tick_lidx (s : State) : (tick s).lidx = s.lidx := rfl
@[simp] theorem tick_sum (s : State) : (tick s).sum = s.sum := rfl
@[simp] theorem tick_rem (s : State) : (tick s).rem = s.rem := rfl
@[simp] theorem tick_cur (s : State) : (tick s).cur = s.cur := rfl
@[simp] theorem tick_lvl (s : State) : (tick s).lvl = s.lvl := rfl
@[simp] theorem tick_code (s : State) : (tick s).code = s.code := rfl
@[simp] theorem tick_sr (s : State) : (tick s).sr = s.sr := rfl
@[simp] theorem tick_bl (s : State) : (tick s).bl = s.bl := rfl
@[simp] theorem tick_obuf (s : State) : (tick s).obuf = s.obuf := rfl
@[simp] theorem tick_opend (s : State) : (tick s).opend = s.opend := rfl
@[simp] theorem tick_mem (s : State) : (tick s).mem = s.mem := rfl
@[simp] theorem tick_schedule (s : State) : (tick s).schedule = s.schedule.tail := rfl
@[simp] theorem tick_input (s : State) : (tick s).input = s.input := rfl
@[simp] theorem tick_output (s : State) : (tick s).output = s.output := rfl

/-! ### clearRegisters -/

@[simp] theorem clearRegisters_cfg (s : State) : (clearRegisters s).cfg = s.cfg := rfl
@[simp] theorem clearRegisters_phase (s : State) : (clearRegisters s).phase = Phase.idle.bits := rfl
@[simp] theorem clearRegisters_err (s : State) : (clearRegisters s).err = 0#4 := rfl
@[simp] theorem clearRegisters_outCount (s : State) : (clearRegisters s).outCount = 0 := rfl
@[simp] theorem clearRegisters_depth (s : State) : (clearRegisters s).depth = 0#5 := rfl
@[simp] theorem clearRegisters_leaves (s : State) :
    (clearRegisters s).leaves = Vector.replicate 24 0#9 := rfl
@[simp] theorem clearRegisters_intn (s : State) :
    (clearRegisters s).intn = Vector.replicate 24 0#9 := rfl
@[simp] theorem clearRegisters_offs (s : State) :
    (clearRegisters s).offs = Vector.replicate 24 0#9 := rfl
@[simp] theorem clearRegisters_eobix (s : State) : (clearRegisters s).eobix = 0#9 := rfl
@[simp] theorem clearRegisters_lidx (s : State) : (clearRegisters s).lidx = 0#5 := rfl
@[simp] theorem clearRegisters_sum (s : State) : (clearRegisters s).sum = 0#13 := rfl
@[simp] theorem clearRegisters_rem (s : State) : (clearRegisters s).rem = 0#9 := rfl
@[simp] theorem clearRegisters_cur (s : State) : (clearRegisters s).cur = 0#9 := rfl
@[simp] theorem clearRegisters_lvl (s : State) : (clearRegisters s).lvl = 0#5 := rfl
@[simp] theorem clearRegisters_code (s : State) : (clearRegisters s).code = 0#9 := rfl
@[simp] theorem clearRegisters_sr (s : State) : (clearRegisters s).sr = 0#8 := rfl
@[simp] theorem clearRegisters_bl (s : State) : (clearRegisters s).bl = 0#4 := rfl
@[simp] theorem clearRegisters_obuf (s : State) : (clearRegisters s).obuf = 0#8 := rfl
@[simp] theorem clearRegisters_opend (s : State) : (clearRegisters s).opend = false := rfl
@[simp] theorem clearRegisters_mem (s : State) : (clearRegisters s).mem = s.mem := rfl
@[simp] theorem clearRegisters_schedule (s : State) :
    (clearRegisters s).schedule = s.schedule := rfl
@[simp] theorem clearRegisters_input (s : State) : (clearRegisters s).input = s.input := rfl
@[simp] theorem clearRegisters_output (s : State) : (clearRegisters s).output = s.output := rfl

/-! ### The inputs -/

@[simp] theorem consume_pins (s : State) : (consume s).pins = s.pins := rfl
@[simp] theorem accept_pins (s : State) (b : Byte) : (accept s b).pins = s.pins := rfl
@[simp] theorem clearRegisters_pins (s : State) : (clearRegisters s).pins = s.pins := rfl

theorem pins_nil {s : State} (h : s.schedule = []) : s.pins = Pins.low := by
  simp [State.pins, h]

theorem pins_cons {s : State} {p : Pins} {ps : List Pins} (h : s.schedule = p :: ps) :
    s.pins = p := by
  simp [State.pins, h]

end Sys2Proof.Machine
end

