-- ==== Sys2Proof/Laws/Ops.lean ====
section
/-! SUPPORT. One lemma for each shared operation that says all it can do. -/

namespace Sys2Proof.Machine

/-! ### Putting meanings together -/

@[simp] theorem need_some {α : Type} (r : Fault) (a : α) (k : α → Result) :
    need r (some a) k = k a := rfl

@[simp] theorem need_none {α : Type} (r : Fault) (k : α → Result) :
    need r none k = .fault r := rfl

/-- A next state after `need` comes from a value that is there. -/
theorem need_eq_next {α : Type} {r : Fault} {o : Option α} {k : α → Result} {t : State} :
    need r o k = .next t ↔ ∃ a, o = some a ∧ k a = .next t := by
  cases o <;> simp

/-- A fault of `need` is its own, or that of the rest. -/
theorem need_eq_fault {α : Type} {r r' : Fault} {o : Option α} {k : α → Result} :
    need r o k = .fault r' ↔ (o = none ∧ r' = r) ∨ ∃ a, o = some a ∧ k a = .fault r' := by
  cases o <;> simp [eq_comm]

/-- `need` refuses nothing itself. -/
theorem need_eq_refused {α : Type} {r : Fault} {q : Refusal} {o : Option α} {k : α → Result} :
    need r o k = .refused q ↔ ∃ a, o = some a ∧ k a = .refused q := by
  cases o <;> simp

@[simp] theorem andThen_next (s : State) (k : State → Result) :
    andThen (.next s) k = k s := rfl

/-- A next state after `andThen` comes from a next state of the first part. -/
theorem andThen_eq_next {o : Result} {k : State → Result} {t : State} :
    andThen o k = .next t ↔ ∃ s, o = .next s ∧ k s = .next t := by
  cases o <;> simp [andThen]

/-- A fault of `andThen` is that of the first part, or of the rest. -/
theorem andThen_eq_fault {o : Result} {k : State → Result} {r : Fault} :
    andThen o k = .fault r ↔ o = .fault r ∨ ∃ s, o = .next s ∧ k s = .fault r := by
  cases o <;> simp [andThen]

theorem andThen_eq_refused {o : Result} {k : State → Result} {q : Refusal} :
    andThen o k = .refused q ↔ o = .refused q ∨ ∃ s, o = .next s ∧ k s = .refused q := by
  cases o <;> simp [andThen]

@[simp] theorem endStep_next (s : State) : endStep (.next s) = .next (tick s) := rfl

/-- A step's next state is an operation's next state with the inputs moved on. -/
theorem endStep_eq_next {o : Result} {t : State} :
    endStep o = .next t ↔ ∃ s, o = .next s ∧ tick s = t := by
  simp [endStep, andThen_eq_next]

/-- `raise` always answers, with ERR and PHASE written (60_exceptions.md R195). -/
theorem raise_eq_next {e : Error} {s t : State} :
    raise e s = .next t ↔ t = { s with err := e.code, phase := Phase.failed.bits } := by
  simp [raise, eq_comm]

@[simp] theorem raise_ne_fault (e : Error) (s : State) (r : Fault) : raise e s ≠ .fault r := by
  simp [raise]

@[simp] theorem raise_ne_refused (e : Error) (s : State) (q : Refusal) :
    raise e s ≠ .refused q := by
  simp [raise]

/-! ### Operands -/

theorem readLevel_of_lt {t : Table} {i : Nat} (h : i < 24) : readLevel t i = some t[i] := by
  simp [readLevel, h]

theorem readLevel_of_ge {t : Table} {i : Nat} (h : 24 ≤ i) : readLevel t i = none := by
  simp [readLevel, h]

theorem readLevel_eq_some {t : Table} {i : Nat} {v : Entry} :
    readLevel t i = some v ↔ ∃ h : i < 24, t[i] = v := by
  simp [readLevel, Vector.getElem?_eq_some_iff]

theorem writeLevel_of_lt {t : Table} {i : Nat} (v : Entry) (h : i < 24) :
    writeLevel t i v = some (t.setIfInBounds i v) := by
  simp only [writeLevel, h, dite_true, Option.some.injEq]
  ext j hj
  simp [Vector.getElem_set, Vector.getElem_setIfInBounds]

theorem writeLevel_of_ge {t : Table} {i : Nat} (v : Entry) (h : 24 ≤ i) :
    writeLevel t i v = none := by
  simp [writeLevel, h]

theorem writeLevel_eq_some {t t' : Table} {i : Nat} {v : Entry} :
    writeLevel t i v = some t' ↔ i < 24 ∧ t' = t.setIfInBounds i v := by
  by_cases h : i < 24
  · simp [writeLevel_of_lt v h, h, eq_comm]
  · simp [writeLevel_of_ge v (Nat.le_of_not_lt h), h]

theorem narrow_of_lt {w n : Nat} (h : n < 2 ^ w) : narrow w n = some (BitVec.ofNat w n) := by
  simp [narrow, h]

theorem narrow_eq_some {w n : Nat} {v : BitVec w} : narrow w n = some v ↔ v.toNat = n := by
  unfold narrow
  split
  · rename_i h
    rw [Option.some.injEq, ← BitVec.toNat_inj, BitVec.toNat_ofNat, Nat.mod_eq_of_lt h, eq_comm]
  · rename_i h
    simp only [reduceCtorEq, false_iff]
    intro hv
    exact h (hv ▸ v.isLt)

theorem decrement_of_pos {w : Nat} {r : BitVec w} (h : 0 < r.toNat) :
    decrement r = some (r - 1#w) := by
  simp [decrement, Nat.ne_of_gt h]

theorem decrement_eq_some {w : Nat} {r v : BitVec w} :
    decrement r = some v ↔ v.toNat + 1 = r.toNat := by
  unfold decrement
  split
  · simp_all
  · rename_i h
    rw [Option.some.injEq, ← BitVec.toNat_inj]
    have hr := r.isLt
    have hw : 1 < 2 ^ w := by omega
    have h1 : (1#w).toNat = 1 := by simp [BitVec.toNat_ofNat, Nat.mod_eq_of_lt hw]
    have hs : (r - 1#w).toNat = r.toNat - 1 := by
      rw [BitVec.toNat_sub_of_le, h1]
      rw [BitVec.le_def, h1]
      omega
    omega

theorem deepest_eq_some {s : State} {l : Nat} : deepest s = some l ↔ l + 1 = s.depth.toNat := by
  unfold deepest
  split <;> simp <;> omega

@[simp] theorem isDeepest_iff {s : State} {l : Nat} :
    isDeepest s l = true ↔ l + 1 = s.depth.toNat := by
  simp [isDeepest]

/-! ### Where an operand is absent -/

theorem readLevel_eq_none {t : Table} {i : Nat} : readLevel t i = none ↔ 24 ≤ i := by
  simp [readLevel]

theorem writeLevel_eq_none {t : Table} {i : Nat} {v : Entry} :
    writeLevel t i v = none ↔ 24 ≤ i := by
  simp [writeLevel]

theorem narrow_eq_none {w n : Nat} : narrow w n = none ↔ 2 ^ w ≤ n := by
  simp [narrow]

theorem decrement_eq_none {w : Nat} {r : BitVec w} : decrement r = none ↔ r.toNat = 0 := by
  unfold decrement
  split <;> simp_all

theorem deepest_eq_none {s : State} : deepest s = none ↔ s.depth.toNat = 0 := by
  unfold deepest
  split <;> simp_all

theorem memRead_eq_none {s : State} {a : Nat} : memRead s a = none ↔ 256 ≤ a := by
  unfold memRead Config.symtabEntries
  split <;> simp <;> omega

theorem memWrite_eq_none {s : State} {a : Nat} {v : Byte} :
    memWrite s a v = none ↔ 256 ≤ a := by
  unfold memWrite Config.symtabEntries
  split <;> simp <;> omega

/-! ### The symbol memory -/

@[simp] theorem lookup_store_same (m : Memory) (a : Nat) (v : Byte) :
    lookup (store m a v) a = some v := by
  induction m with
  | nil => simp [store, lookup]
  | cons c rest ih =>
    obtain ⟨b, u⟩ := c
    unfold store
    split
    · simp [lookup]
    · split
      · simp [lookup]
      · rename_i h
        simp [lookup, h, ih]

/-- A write leaves every other address alone. -/
theorem lookup_store_other (m : Memory) {a b : Nat} (v : Byte) (h : b ≠ a) :
    lookup (store m a v) b = lookup m b := by
  induction m with
  | nil => simp [store, lookup, h]
  | cons c rest ih =>
    obtain ⟨d, u⟩ := c
    unfold store
    split
    · simp [lookup, h]
    · split
      · rename_i hd
        subst hd
        simp [lookup, h]
      · simp [lookup, ih]

/-- The addresses listed after a write. -/
theorem mem_store {m : Memory} {a : Nat} {v : Byte} {c : Host.Cell} (h : c ∈ store m a v) :
    c = (a, v) ∨ c ∈ m := by
  induction m with
  | nil => simp_all [store]
  | cons d rest ih =>
    obtain ⟨b, u⟩ := d
    unfold store at h
    split at h
    · simpa using h
    · split at h
      · rcases List.mem_cons.mp h with h | h
        · exact .inl h
        · exact .inr (List.mem_cons_of_mem _ h)
      · rcases List.mem_cons.mp h with h | h
        · exact .inr (by simp [h])
        · rcases ih h with h | h
          · exact .inl h
          · exact .inr (List.mem_cons_of_mem _ h)

/-- A write inside the memory keeps the canonical form. -/
theorem store_wf {m : Memory} {a : Nat} (v : Byte) (hm : Memory.wf m)
    (ha : a < Config.symtabEntries) : Memory.wf (store m a v) := by
  obtain ⟨hp, hb⟩ := hm
  refine ⟨?_, fun c hc => ?_⟩
  · induction m with
    | nil => simp [store]
    | cons d rest ih =>
      obtain ⟨b, u⟩ := d
      obtain ⟨hd, hr⟩ := List.pairwise_cons.mp hp
      unfold store
      split
      · rename_i hab
        refine List.pairwise_cons.mpr ⟨fun c hc => ?_, hp⟩
        rcases List.mem_cons.mp hc with rfl | hc
        · exact hab
        · exact Nat.lt_trans hab (hd c hc)
      · split
        · rename_i hab
          exact List.pairwise_cons.mpr ⟨fun c hc => by have := hd c hc; simp_all, hr⟩
        · rename_i hlt hne
          refine List.pairwise_cons.mpr
            ⟨fun c hc => ?_, ih hr fun c hc => hb c (List.mem_cons_of_mem _ hc)⟩
          rcases mem_store hc with rfl | hc
          · show b < a
            omega
          · exact hd c hc
  · rcases mem_store hc with rfl | hc
    · exact ha
    · exact hb c hc

theorem memWrite_eq_some {s t : State} {a : Nat} {v : Byte} :
    memWrite s a v = some t ↔
      a < Config.symtabEntries ∧ t = { s with mem := store s.mem a v } := by
  unfold memWrite
  split
  · rename_i h
    simp [h, eq_comm]
  · rename_i h
    simp [h]

theorem memRead_of_lookup {s : State} {a : Nat} {v : Byte} (ha : a < Config.symtabEntries)
    (h : lookup s.mem a = some v) : memRead s a = some v := by
  simp [memRead, ha, h]

theorem memRead_eq_some {s : State} {a : Nat} {v : Byte} :
    memRead s a = some v ↔
      a < Config.symtabEntries ∧ (lookup s.mem a).getD (Config.powerOnSymbol a) = v := by
  unfold memRead
  split
  · rename_i h
    simp [h]
  · rename_i h
    simp [h]

/-! ### The deepest level's count -/

/-- All that `bumpDeepest` can do (40_tree_builder.md R114, R117): one table entry grows by one. -/
theorem bumpDeepest_eq_next {s t : State} :
    bumpDeepest s = .next t ↔
      ∃ l n n', l + 1 = s.depth.toNat ∧ readLevel s.leaves l = some n ∧
        BitVec.toNat n' = n.toNat + 1 ∧ l < 24 ∧
        t = { s with leaves := s.leaves.setIfInBounds l n' } := by
  unfold bumpDeepest
  simp only [need_eq_next, deepest_eq_some, narrow_eq_some, writeLevel_eq_some,
    Host.Outcome.next.injEq]
  constructor
  · rintro ⟨l, hl, n, hn, n', hn', tb, ⟨h24, rfl⟩, rfl⟩
    exact ⟨l, n, n', hl, hn, hn', h24, rfl⟩
  · rintro ⟨l, n, n', hl, hn, hn', h24, rfl⟩
    exact ⟨l, hl, n, hn, n', hn', _, ⟨h24, rfl⟩, rfl⟩

end Sys2Proof.Machine
end

