-- ==== Sys2Proof/Laws/Exec.lean ====
section
/-! SUPPORT. One inversion lemma for each operation: everything a next state of it can be. The raising
cases say ERR's code; `consume`d states keep every field but `input`. -/

namespace Sys2Proof.Machine

/-- The state a raise of code `c` from `s` leaves (60_exceptions.md R195). -/
def failedWith (c : BitVec 4) (s : State) : State :=
  { s with err := c, phase := Phase.failed.bits }

theorem raise_eq (e : Error) (s : State) : raise e s = .next (failedWith e.code s) := rfl

theorem execReset_eq (s : State) : execReset s = .next (clearRegisters s) := rfl

theorem execStart_eq (s : State) :
    execStart s = .next { clearRegisters s with phase := Phase.hdrDepth.bits } := rfl

/-- RD_DEPTH always answers (40_tree_builder.md R111). -/
theorem execRdDepth_cases (tok : Token) (s : State) :
    (∃ b, tok = .byte b ∧ 1 ≤ b.toNat ∧ b.toNat ≤ 24 ∧
      execRdDepth tok s = .next { consume s with
        depth := b.extractLsb' 0 5, lidx := 0#5, sum := 0#13, phase := Phase.hdrCounts.bits }) ∨
    (∃ b, tok = .byte b ∧ (b.toNat = 0 ∨ 25 ≤ b.toNat) ∧
      execRdDepth tok s = .next (failedWith 1#4 (consume s))) ∨
    (tok = .eod ∧ execRdDepth tok s = .next (failedWith 4#4 (consume s))) ∨
    (tok = .err ∧ execRdDepth tok s = .next (failedWith 7#4 (consume s))) := by
  cases tok with
  | byte b =>
    by_cases h : b.toNat < Config.minLevels ∨ Config.maxLevels < b.toNat
    · refine .inr (.inl ⟨b, rfl, ?_, ?_⟩)
      · simp only [Config.minLevels, Config.maxLevels] at h
        omega
      · simp only [execRdDepth, if_pos h]
        rfl
    · refine .inl ⟨b, rfl, ?_, ?_, ?_⟩
      · simp only [Config.minLevels, Config.maxLevels] at h
        omega
      · simp only [Config.minLevels, Config.maxLevels] at h
        omega
      · simp only [execRdDepth, if_neg h]
  | eod => exact .inr (.inr (.inl ⟨rfl, rfl⟩))
  | err => exact .inr (.inr (.inr ⟨rfl, rfl⟩))

/-- The depth byte's low five bits are its value when it is legal. -/
theorem depth_toNat {b : Byte} (h : b.toNat ≤ 24) : (b.extractLsb' 0 5).toNat = b.toNat := by
  simp only [BitVec.extractLsb'_toNat, Nat.shiftRight_zero]
  exact Nat.mod_eq_of_lt (by omega)

@[simp] theorem countEntry_toNat (c : Byte) : (countEntry c).toNat = c.toNat := by
  have := c.isLt
  simp [countEntry, BitVec.toNat_setWidth]
  omega

/-- All RD_COUNT can do when it answers (40_tree_builder.md R112). -/
theorem execRdCount_cases {tok : Token} {s t : State} (h : execRdCount tok s = .next t) :
    (∃ c sum', tok = .byte c ∧ s.lidx.toNat < 24 ∧
      BitVec.toNat sum' = s.sum.toNat + c.toNat ∧
      ((s.lidx.toNat + 1 = s.depth.toNat ∧ t = { consume s with
          leaves := s.leaves.setIfInBounds s.lidx.toNat (countEntry c), sum := sum'
          phase := Phase.sumCheck.bits }) ∨
        (s.lidx.toNat + 1 ≠ s.depth.toNat ∧ t = { consume s with
          leaves := s.leaves.setIfInBounds s.lidx.toNat (countEntry c), sum := sum'
          lidx := s.lidx + 1#5 }))) ∨
    (tok = .eod ∧ t = failedWith 4#4 (consume s)) ∨
    (tok = .err ∧ t = failedWith 7#4 (consume s)) := by
  cases tok with
  | byte c =>
    simp only [execRdCount, need_eq_next, writeLevel_eq_some, narrow_eq_some] at h
    obtain ⟨_, ⟨hl, rfl⟩, sum', hs, h⟩ := h
    refine .inl ⟨c, sum', rfl, hl, hs, ?_⟩
    split at h <;> rename_i hd <;> rw [isDeepest_iff] at hd <;> cases h
    · exact .inl ⟨hd, rfl⟩
    · exact .inr ⟨hd, rfl⟩
  | eod =>
    cases h
    exact .inr (.inl ⟨rfl, rfl⟩)
  | err =>
    cases h
    exact .inr (.inr ⟨rfl, rfl⟩)

/-- SUMCHK always answers (40_tree_builder.md R113). -/
theorem execSumchk_cases (s : State) :
    (s.sum.toNat ≤ 255 ∧ execSumchk s = .next { s with phase := Phase.eobReserve.bits }) ∨
    (256 ≤ s.sum.toNat ∧ execSumchk s = .next (failedWith 2#4 s)) := by
  by_cases h : Config.symtabEntries < s.sum.toNat + 1
  · refine .inr ⟨?_, ?_⟩
    · simp only [Config.symtabEntries] at h
      omega
    · simp only [execSumchk, if_pos h]
      rfl
  · refine .inl ⟨?_, ?_⟩
    · simp only [Config.symtabEntries] at h
      omega
    · simp only [execSumchk, if_neg h]

/-- All EOBRES can do when it answers (40_tree_builder.md R114). -/
theorem execEobres_cases {s t : State} (h : execEobres s = .next t) :
    ∃ l n n' r, l + 1 = s.depth.toNat ∧ readLevel s.leaves l = some n ∧
      BitVec.toNat n' = n.toNat + 1 ∧ l < 24 ∧
      readLevel (s.leaves.setIfInBounds l n') 0 = some r ∧
      t = { s with
        leaves := s.leaves.setIfInBounds l n', lidx := 0#5, cur := 0#9
        offs := s.offs.setIfInBounds 0 0#9, rem := r, phase := Phase.symtab.bits } := by
  simp only [execEobres, andThen_eq_next, bumpDeepest_eq_next, need_eq_next,
    writeLevel_eq_some] at h
  obtain ⟨_, ⟨l, n, n', hl, hn, hn', h24, rfl⟩, _, ⟨_, rfl⟩, r, hr, h⟩ := h
  cases h
  exact ⟨l, n, n', r, hl, hn, hn', h24, hr, rfl⟩

/-- All RD_SYM can do when it answers (40_tree_builder.md R115). -/
theorem execRdSym_cases {tok : Token} {s t : State} (h : execRdSym tok s = .next t) :
    (∃ v cur' rem', tok = .byte v ∧ s.cur.toNat < 256 ∧ BitVec.toNat cur' = s.cur.toNat + 1 ∧
      BitVec.toNat rem' + 1 = s.rem.toNat ∧
      t = { consume s with mem := store s.mem s.cur.toNat v, cur := cur', rem := rem' }) ∨
    (tok = .eod ∧ t = failedWith 3#4 (consume s)) ∨
    (tok = .err ∧ t = failedWith 7#4 (consume s)) := by
  cases tok with
  | byte v =>
    simp only [execRdSym, need_eq_next, memWrite_eq_some, narrow_eq_some,
      decrement_eq_some] at h
    obtain ⟨_, ⟨hc, rfl⟩, cur', hcur, rem', hrem, h⟩ := h
    cases h
    exact .inl ⟨v, cur', rem', rfl, hc, hcur, hrem, rfl⟩
  | eod =>
    cases h
    exact .inr (.inl ⟨rfl, rfl⟩)
  | err =>
    cases h
    exact .inr (.inr ⟨rfl, rfl⟩)

/-- All SYM_NEXT can do when it answers (40_tree_builder.md R116). -/
theorem execSymNext_cases {s t : State} (h : execSymNext s = .next t) :
    (s.lidx.toNat + 1 = s.depth.toNat ∧ t = { s with phase := Phase.eobAccount.bits }) ∨
    (s.lidx.toNat + 1 ≠ s.depth.toNat ∧ s.lidx.toNat + 1 < 24 ∧
      ∃ n, readLevel s.leaves (s.lidx.toNat + 1) = some n ∧
        t = { s with
          lidx := s.lidx + 1#5, offs := s.offs.setIfInBounds (s.lidx.toNat + 1) s.cur
          rem := n }) := by
  unfold execSymNext at h
  split at h <;> rename_i hd <;> rw [isDeepest_iff] at hd
  · cases h
    exact .inl ⟨hd, rfl⟩
  · simp only [need_eq_next, writeLevel_eq_some] at h
    obtain ⟨_, ⟨h24, rfl⟩, n, hn, h⟩ := h
    cases h
    exact .inr ⟨hd, h24, n, hn, rfl⟩

/-- All EOBACC can do when it answers (40_tree_builder.md R117). -/
theorem execEobacc_cases {s t : State} (h : execEobacc s = .next t) :
    ∃ l n n', l + 1 = s.depth.toNat ∧ readLevel s.leaves l = some n ∧
      BitVec.toNat n' = n.toNat + 1 ∧ l < 24 ∧
      t = { s with
        leaves := s.leaves.setIfInBounds l n', eobix := s.cur, lidx := s.depth - 1#5
        phase := Phase.build.bits } := by
  simp only [execEobacc, andThen_eq_next, bumpDeepest_eq_next] at h
  obtain ⟨_, ⟨l, n, n', hl, hn, hn', h24, rfl⟩, h⟩ := h
  cases h
  exact ⟨l, n, n', hl, hn, hn', h24, rfl⟩

/-- The value DERIVE writes (40_tree_builder.md R118). -/
theorem internalNodes_eq_some {s : State} {l : Nat} {v : Entry} :
    internalNodes s l = some v ↔
      (l + 1 = s.depth.toNat ∧ v = 0#9) ∨
      (l + 1 ≠ s.depth.toNat ∧ ∃ n k, readLevel s.intn (l + 1) = some n ∧
        readLevel s.leaves (l + 1) = some k ∧ v = BitVec.ofNat 9 ((n.toNat + k.toNat) / 2)) := by
  unfold internalNodes
  split <;> rename_i hd <;> rw [isDeepest_iff] at hd
  · simp only [Option.some.injEq, hd, true_and, ne_eq, not_true_eq_false, false_and, or_false]
    exact eq_comm
  · simp only [hd, false_and, ne_eq, not_false_eq_true, true_and, false_or]
    cases readLevel s.intn (l + 1) <;> cases readLevel s.leaves (l + 1)
    · simp
    · simp
    · simp
    · simp only [Option.some.injEq]
      exact ⟨fun h => ⟨_, _, rfl, rfl, h.symm⟩, fun ⟨_, _, hn, hk, hv⟩ => by rw [hv, hn, hk]⟩

/-- All DERIVE can do when it answers (40_tree_builder.md R118). -/
theorem execDerive_cases {s t : State} (h : execDerive s = .next t) :
    ∃ n, internalNodes s s.lidx.toNat = some n ∧ s.lidx.toNat < 24 ∧
      ((s.lidx.toNat = 0 ∧ t = { s with
          intn := s.intn.setIfInBounds s.lidx.toNat n
          lvl := 0#5, code := 0#9, sr := 0#8, bl := 0#4, opend := false
          phase := Phase.decode.bits }) ∨
        (s.lidx.toNat ≠ 0 ∧ t = { s with
          intn := s.intn.setIfInBounds s.lidx.toNat n, lidx := s.lidx - 1#5 })) := by
  simp only [execDerive, need_eq_next, writeLevel_eq_some] at h
  obtain ⟨n, hn, _, ⟨h24, rfl⟩, h⟩ := h
  refine ⟨n, hn, h24, ?_⟩
  split at h <;> rename_i h0 <;> cases h
  · exact .inl ⟨h0, rfl⟩
  · exact .inr ⟨h0, rfl⟩

/-- FETCH always answers (41_bit_walker.md R141). -/
theorem execFetch_cases (tok : Token) (s : State) :
    (∃ b, tok = .byte b ∧ execFetch tok s = .next { consume s with sr := b, bl := 8#4 }) ∨
    (tok = .eod ∧ execFetch tok s = .next (failedWith 6#4 (consume s))) ∨
    (tok = .err ∧ execFetch tok s = .next (failedWith 7#4 (consume s))) := by
  cases tok with
  | byte b => exact .inl ⟨b, rfl, rfl⟩
  | eod => exact .inr (.inl ⟨rfl, rfl⟩)
  | err => exact .inr (.inr ⟨rfl, rfl⟩)

/-- All the leaf branch of BIT can do when it answers (41_bit_walker.md R142). -/
theorem resolveLeaf_cases {s s1 t : State} {idx : Nat} (h : resolveLeaf s s1 idx = .next t) :
    ∃ n, readLevel s.leaves s.lvl.toNat = some n ∧
      ((n.toNat ≤ idx ∧ t = failedWith 5#4 s) ∨
        (idx < n.toNat ∧ ∃ o, readLevel s.offs s.lvl.toNat = some o ∧
          ((o.toNat + idx = s.eobix.toNat ∧ t = { s1 with phase := Phase.done.bits }) ∨
            (o.toNat + idx ≠ s.eobix.toNat ∧ ∃ v, memRead s (o.toNat + idx) = some v ∧
              t = { s1 with obuf := v, opend := true, lvl := 0#5, code := 0#9 })))) := by
  simp only [resolveLeaf, need_eq_next] at h
  obtain ⟨n, hn, h⟩ := h
  refine ⟨n, hn, ?_⟩
  split at h
  · rename_i hle
    cases h
    exact .inl ⟨hle, rfl⟩
  · rename_i hle
    rw [need_eq_next] at h
    obtain ⟨o, ho, h⟩ := h
    refine .inr ⟨by omega, o, ho, ?_⟩
    split at h
    · rename_i he
      cases h
      exact .inl ⟨he, rfl⟩
    · rename_i he
      rw [need_eq_next] at h
      obtain ⟨v, hv, h⟩ := h
      cases h
      exact .inr ⟨he, v, hv, rfl⟩

/-- The state with SR, BL and CODE written by BIT. -/
def shifted (s : State) (bl' : BitVec 4) (code' : BitVec 9) : State :=
  { s with sr := shiftSr s.sr, bl := bl', code := code' }

/-- All BIT can do when it answers (41_bit_walker.md R142). -/
theorem execBit_cases {b : Bool} {s t : State} (h : execBit b s = .next t) :
    ∃ bl' code' n, BitVec.toNat bl' + 1 = s.bl.toNat ∧
      BitVec.toNat code' = 2 * s.code.toNat + b.toNat ∧
      readLevel s.intn s.lvl.toNat = some n ∧
      ((code'.toNat < n.toNat ∧ s.depth.toNat < s.lvl.toNat + 2 ∧ t = failedWith 5#4 s) ∨
        (code'.toNat < n.toNat ∧ s.lvl.toNat + 2 ≤ s.depth.toNat ∧
          t = { shifted s bl' code' with lvl := s.lvl + 1#5 }) ∨
        (n.toNat ≤ code'.toNat ∧
          resolveLeaf s (shifted s bl' code') (code'.toNat - n.toNat) = .next t)) := by
  simp only [execBit, need_eq_next, decrement_eq_some, narrow_eq_some, shiftCode] at h
  obtain ⟨bl', hbl, code', hcode, n, hn, h⟩ := h
  refine ⟨bl', code', n, hbl, hcode, hn, ?_⟩
  split at h
  · rename_i hlt
    split at h <;> rename_i hd <;> cases h
    · exact .inl ⟨hlt, hd, rfl⟩
    · exact .inr (.inl ⟨hlt, by omega, rfl⟩)
  · rename_i hlt
    exact .inr (.inr ⟨by omega, h⟩)

/-- All EMIT can do when it answers (41_bit_walker.md R143). -/
theorem execEmit_cases {s t : State} (h : execEmit s = .next t) :
    (s.outCount = s.cfg.maxCount ∧ t = failedWith 9#4 s) ∨
    (s.outCount ≠ s.cfg.maxCount ∧ s.pins.outReady = false ∧ t = s) ∨
    (s.outCount ≠ s.cfg.maxCount ∧ s.pins.outReady = true ∧ s.pins.outErr = true ∧
      t = failedWith 8#4 s) ∨
    (s.outCount < s.cfg.maxCount ∧ s.pins.outReady = true ∧ s.pins.outErr = false ∧
      t = { accept s s.obuf with outCount := s.outCount + 1, opend := false }) := by
  unfold execEmit at h
  split at h
  · rename_i hm
    cases h
    exact .inl ⟨hm, rfl⟩
  · rename_i hm
    unfold putAnswer at h
    cases hr : s.pins.outReady
    · simp only [hr] at h
      cases h
      exact .inr (.inl ⟨hm, rfl, rfl⟩)
    · cases he : s.pins.outErr
      · simp only [hr, he] at h
        by_cases hlt : s.outCount < s.cfg.maxCount
        · simp only [reduceIte, hlt] at h
          cases h
          exact .inr (.inr (.inr ⟨hlt, rfl, rfl, rfl⟩))
        · simp [hlt] at h
      · simp only [hr, he] at h
        cases h
        exact .inr (.inr (.inl ⟨hm, rfl, rfl, rfl⟩))

/-- All a step can do when it answers (42_descriptor_lifecycle.md R175). -/
theorem step_cases {s t : State} (h : step s = .next t) :
    (∃ i t', select s = .run i ∧ exec i s = .next t' ∧ t = tick t') ∨
    (select s = .rest ∧ t = tick s) := by
  unfold step at h
  split at h
  · rename_i i hi
    obtain ⟨t', ht', rfl⟩ := endStep_eq_next.mp h
    exact .inl ⟨i, t', hi, ht', rfl⟩
  · rename_i hr
    cases h
    exact .inr ⟨hr, rfl⟩
  · cases h

end Sys2Proof.Machine
end

