-- ==== Sys2Proof/Laws/Tables.lean ====
section
/-! SUPPORT. Level tables read as numbers: entries and their sums under a write. -/

namespace Sys2Proof.Machine

theorem entry_of_readLevel {t : Table} {i : Nat} {v : Entry} (h : readLevel t i = some v) :
    entry t i = v.toNat := by
  simp [entry, h]

theorem entry_of_ge {t : Table} {i : Nat} (h : 24 ≤ i) : entry t i = 0 := by
  simp [entry, readLevel_of_ge h]

theorem readLevel_eq_some_entry {t : Table} {i : Nat} {v : Entry} :
    readLevel t i = some v ↔ i < 24 ∧ v.toNat = entry t i := by
  by_cases h : i < 24
  · simp only [readLevel_of_lt h, Option.some.injEq, h, true_and, entry, Option.getD_some]
    rw [← BitVec.toNat_inj, eq_comm]
  · simp [readLevel_of_ge (Nat.le_of_not_lt h), h]

theorem entry_lt (t : Table) (i : Nat) : entry t i < 512 :=
  ((readLevel t i).getD 0#9).isLt

@[simp] theorem entry_set_same {t : Table} {i : Nat} (v : Entry) (h : i < 24) :
    entry (t.setIfInBounds i v) i = v.toNat := by
  simp [entry, readLevel, h]

@[simp] theorem entry_set_other {t : Table} {i j : Nat} (v : Entry) (h : i ≠ j) :
    entry (t.setIfInBounds i v) j = entry t j := by
  simp [entry, readLevel, h]

@[simp] theorem entrySum_zero (t : Table) : entrySum t 0 = 0 := rfl

theorem entrySum_succ (t : Table) (n : Nat) : entrySum t (n + 1) = entrySum t n + entry t n := rfl

theorem entrySum_mono {t : Table} {m n : Nat} (h : m ≤ n) : entrySum t m ≤ entrySum t n := by
  induction n with
  | zero => simp_all
  | succ n ih =>
    rcases Nat.lt_or_ge m (n + 1) with h' | h'
    · exact Nat.le_trans (ih (by omega)) (Nat.le_add_right _ _)
    · rw [Nat.le_antisymm h h']

/-- A write at or above n does not change the sum of the first n entries. -/
theorem entrySum_set_of_le {t : Table} {i n : Nat} (v : Entry) (h : n ≤ i) :
    entrySum (t.setIfInBounds i v) n = entrySum t n := by
  induction n with
  | zero => rfl
  | succ n ih =>
    rw [entrySum_succ, entrySum_succ, ih (by omega), entry_set_other v (by omega)]

/-- A write below n changes the sum by the difference of the entry. -/
theorem entrySum_set_of_lt {t : Table} {i n : Nat} (v : Entry) (hi : i < 24) (h : i < n) :
    entrySum (t.setIfInBounds i v) n + entry t i = entrySum t n + v.toNat := by
  induction n with
  | zero => omega
  | succ n ih =>
    rw [entrySum_succ, entrySum_succ]
    rcases Nat.lt_or_ge i n with h' | h'
    · rw [entry_set_other v (by omega)]
      have := ih h'
      omega
    · have : i = n := by omega
      subst this
      rw [entrySum_set_of_le v (Nat.le_refl _), entry_set_same v hi]
      omega

/-- An entry among the first n is at most their sum. -/
theorem entry_le_entrySum {t : Table} {i n : Nat} (h : i < n) : entry t i ≤ entrySum t n := by
  have h1 := entrySum_succ t i
  have h2 : entrySum t (i + 1) ≤ entrySum t n := entrySum_mono h
  omega

/-- A sum of n entries, each at most b, is at most n times b. -/
theorem entrySum_le {t : Table} {n b : Nat} (h : ∀ l, l < n → entry t l ≤ b) :
    entrySum t n ≤ n * b := by
  induction n with
  | zero => simp
  | succ n ih =>
    rw [entrySum_succ]
    have h1 := ih fun l hl => h l (by omega)
    have h2 := h n (by omega)
    have h3 : (n + 1) * b = n * b + b := Nat.succ_mul n b
    omega

/-- Storing at the first unwritten address extends the written part. -/
theorem Written.store {m : Memory} {n : Nat} (h : Written m n) (v : Byte) :
    Written (store m n v) (n + 1) := by
  intro a ha
  by_cases hne : a = n
  · subst hne
    simp
  · rw [lookup_store_other m v hne]
    exact h a (by omega)

theorem Written.mono {m : Memory} {k n : Nat} (h : Written m n) (hk : k ≤ n) : Written m k :=
  fun a ha => h a (by omega)

end Sys2Proof.Machine
end

