-- ==== Sys2Proof/Laws/Invariant.lean ====
section
/-! SUPPORT. The invariant of Sys2Proof/Safety.lean: how to read it in one phase and how to build it again
after a step, and the accesses that its bounds make succeed. -/

namespace Sys2Proof.Machine

/-! ### Accesses in bounds -/

theorem readLevel_in_bounds {t : Table} {i : Nat} (h : i < 24) :
    ∃ v, readLevel t i = some v ∧ v.toNat = entry t i :=
  ⟨_, readLevel_of_lt h, (entry_of_readLevel (readLevel_of_lt h)).symm⟩

theorem narrow_in_bounds {w n : Nat} (h : n < 2 ^ w) :
    ∃ v : BitVec w, narrow w n = some v ∧ v.toNat = n :=
  ⟨_, narrow_of_lt h, by simp [Nat.mod_eq_of_lt h]⟩

theorem decrement_in_bounds {w : Nat} {r : BitVec w} (h : 0 < r.toNat) :
    ∃ v : BitVec w, decrement r = some v ∧ v.toNat + 1 = r.toNat :=
  ⟨_, decrement_of_pos h, decrement_eq_some.mp (decrement_of_pos h)⟩

theorem toNat_add_one {r : BitVec 5} (h : r.toNat < 31) : (r + 1#5).toNat = r.toNat + 1 := by
  rw [BitVec.toNat_add]; simp; omega

theorem toNat_sub_one {r : BitVec 5} (h : 0 < r.toNat) : (r - 1#5).toNat = r.toNat - 1 := by
  have := decrement_eq_some.mp (decrement_of_pos h); omega

theorem bumpDeepest_in_bounds {s : State} (hd : DepthLegal s)
    (h : entry s.leaves (s.depth.toNat - 1) ≤ 510) :
    ∃ n : Entry, n.toNat = entry s.leaves (s.depth.toNat - 1) + 1 ∧
      bumpDeepest s =
        .next { s with leaves := s.leaves.setIfInBounds (s.depth.toNat - 1) n } := by
  obtain ⟨h1, h2⟩ := hd
  have h24 : s.depth.toNat - 1 < 24 := by omega
  obtain ⟨n, hn, hnv⟩ := readLevel_in_bounds (t := s.leaves) h24
  obtain ⟨n', hn', hnv'⟩ := narrow_in_bounds (w := 9) (n := n.toNat + 1) (by omega)
  have hdp : deepest s = some (s.depth.toNat - 1) := deepest_eq_some.mpr (by omega)
  exact ⟨n', by omega, by
    simp only [bumpDeepest, hdp, need_some, hn, hn', writeLevel_of_lt _ h24]⟩

/-- Where the shared increment stops, and with which fault. -/
theorem bumpDeepest_eq_fault {s : State} {r : Fault} :
    bumpDeepest s = .fault r ↔ BumpStops s r := by
  unfold bumpDeepest BumpStops
  by_cases h0 : s.depth.toNat = 0
  · simp [deepest_eq_none.mpr h0, h0, eq_comm]
  have hd : deepest s = some (s.depth.toNat - 1) := deepest_eq_some.mpr (by omega)
  simp only [hd, need_some, h0, false_or]
  by_cases h : 24 < s.depth.toNat
  · rw [readLevel_of_ge (by omega)]
    simp [h, eq_comm]
  obtain ⟨n, hn, hv⟩ :=
    readLevel_in_bounds (t := s.leaves) (i := s.depth.toNat - 1) (by omega)
  have := n.isLt
  simp only [hn, need_some, need_eq_fault, narrow_eq_none, writeLevel_eq_none, reduceCtorEq,
    and_false, exists_false, or_false]
  constructor
  · rintro (⟨h1, h2⟩ | ⟨_, _, h1, _⟩)
    · exact .inr ⟨h2, by omega, by omega, by omega⟩
    · omega
  · rintro (⟨_, h1⟩ | ⟨h1, h2, h3, h4⟩)
    · exact absurd h1 h
    · exact .inl ⟨by omega, h1⟩

theorem bumpDeepest_ne_refused {s : State} {q : Refusal} : bumpDeepest s ≠ .refused q := by
  simp [bumpDeepest, need_eq_refused]

/-! ### The promise of a phase -/

theorem phaseInv_iff {s : State} {p : Phase} (hp : s.phase = p.bits) :
    PhaseInv s ↔ Promise s p := by
  unfold PhaseInv
  rw [hp, Phase.ofBits_bits]

theorem Inv.promise {s : State} (h : Inv s) {p : Phase} (hp : s.phase = p.bits) : Promise s p :=
  (phaseInv_iff hp).mp h.phase

theorem Inv.err_zero {s : State} (h : Inv s) {p : Phase} (hp : s.phase = p.bits)
    (hf : p ≠ .failed) : s.err = 0#4 := by
  by_contra hne
  have := h.failed.mpr hne
  rw [hp] at this
  cases p <;> simp_all [Phase.bits]

/-! ### Building the invariant again -/

/-- The host's side is no part of the promise. -/
theorem Promise.host {s : State} {p : Phase} (h : Promise s p) (i : List Tok) (q : List Pins)
    (o : List Byte) : Promise { s with input := i, schedule := q, output := o } p := by
  cases p with
  | idle => trivial
  | hdrDepth => trivial
  | hdrCounts => exact ⟨h.1, h.2, h.3, h.4⟩
  | sumCheck => exact ⟨h.1, h.2⟩
  | eobReserve => exact ⟨⟨h.1.1, h.1.2⟩, h.2⟩
  | symtab => exact ⟨h.1, h.2, h.3, h.4, h.5, h.6, h.7⟩
  | eobAccount => exact ⟨h.1, h.2, h.3, h.4, h.5, h.6⟩
  | build => exact ⟨⟨h.1.1, h.1.2, h.1.3, h.1.4, h.1.5, h.1.6, h.1.7⟩, h.2⟩
  | decode =>
    exact ⟨⟨h.1.1, h.1.2, h.1.3, h.1.4, h.1.5, h.1.6, h.1.7⟩, h.2, h.3, h.4, h.5⟩
  | done => exact h
  | failed => trivial

/-- The host's side is no part of the invariant. -/
theorem Inv.host {s : State} (h : Inv s) (i : List Tok) (q : List Pins) (o : List Byte) :
    Inv { s with input := i, schedule := q, output := o } := by
  refine ⟨h.width, h.count, h.mem, h.err, h.failed, ?_⟩
  have hp := h.phase
  unfold PhaseInv at hp ⊢
  dsimp only
  cases hq : Phase.ofBits s.phase with
  | none => rw [hq] at hp; exact hp
  | some p => rw [hq] at hp; exact Promise.host hp i q o

theorem Inv.consume {s : State} (h : Inv s) : Inv (consume s) := h.host _ _ _

theorem Inv.tick {s : State} (h : Inv s) : Inv (tick s) := h.host _ _ _

/-- A raise keeps the invariant. -/
theorem Inv.failedWith {s : State} (h : Inv s) {c : BitVec 4} (h0 : c ≠ 0#4) (h9 : c.toNat ≤ 9) :
    Inv (failedWith c s) :=
  { width := h.width, count := h.count, mem := h.mem, err := h9
    failed := ⟨fun _ => h0, fun _ => rfl⟩
    phase := (phaseInv_iff (p := .failed) rfl).mpr trivial }

/-- A state that goes on in a session from one of the invariant. -/
theorem Inv.goesOn {s t : State} (h : Inv s) (p : Phase) (hs : s.err = 0#4) (hp : t.phase = p.bits)
    (hf : p ≠ .failed) (hcfg : t.cfg = s.cfg) (hcount : t.outCount = s.outCount)
    (hmem : Memory.wf t.mem) (herr : t.err = s.err) (hpr : Promise t p) : Inv t := by
  refine ⟨hcfg ▸ h.width, hcfg ▸ hcount ▸ h.count, hmem, herr ▸ h.err, ?_,
    (phaseInv_iff hp).mpr hpr⟩
  rw [herr, hs, hp]
  constructor
  · cases p <;> simp_all [Phase.bits]
  · simp

end Sys2Proof.Machine
end

