-- ==== Sys2Proof/Laws/PerInstr.lean ====
section
/-! SUPPORT. Facts about every operation as syntax, one lemma a constructor. -/

/-- The signals that select an operation offer a token exactly when the operation takes one
(30_encoding.md R86, column "consumes"). -/
def Sys2Proof.Laws.TokenOffer.Statement (i : Sys2Proof.Instr) : Prop :=
  (Sys2Proof.encode i).tok.isSome = i.takesToken

namespace Sys2Proof.Laws.TokenOffer

theorem reset : Statement .reset := rfl
theorem start : Statement .start := rfl
theorem rdDepth (tok : Token) : Statement (.rdDepth tok) := rfl
theorem rdCount (tok : Token) : Statement (.rdCount tok) := rfl
theorem sumchk : Statement .sumchk := rfl
theorem eobres : Statement .eobres := rfl
theorem rdSym (tok : Token) : Statement (.rdSym tok) := rfl
theorem symNext : Statement .symNext := rfl
theorem eobacc : Statement .eobacc := rfl
theorem derive : Statement .derive := rfl
theorem emit : Statement .emit := rfl
theorem fetch (tok : Token) : Statement (.fetch tok) := rfl
theorem bit (b : Bool) : Statement (.bit b) := rfl

end Sys2Proof.Laws.TokenOffer
end

