-- ==== Sys2Proof/Laws/Select.lean ====
section
/-! SUPPORT. What the selection of an operation says about the state (spec/42_descriptor_lifecycle.md
R175), and what a step is once its operation is known. -/

namespace Sys2Proof.Machine

/-- What holds of a state in which R175 selects `i`, operation by operation. -/
def SelectedIn (s : State) : Instr → Prop
  | .reset => s.pins.rst = true
  | .start => s.pins.rst = false ∧ s.pins.start = true ∧
      (s.phase = Phase.idle.bits ∨ s.phase = Phase.done.bits ∨ s.phase = Phase.failed.bits)
  | .rdDepth t => s.pins.rst = false ∧ s.phase = Phase.hdrDepth.bits ∧
      ∃ k, offered s = some k ∧ Token.ofBits k = t
  | .rdCount t => s.pins.rst = false ∧ s.phase = Phase.hdrCounts.bits ∧
      ∃ k, offered s = some k ∧ Token.ofBits k = t
  | .sumchk => s.pins.rst = false ∧ s.phase = Phase.sumCheck.bits
  | .eobres => s.pins.rst = false ∧ s.phase = Phase.eobReserve.bits
  | .rdSym t => s.pins.rst = false ∧ s.phase = Phase.symtab.bits ∧ 0 < s.rem.toNat ∧
      ∃ k, offered s = some k ∧ Token.ofBits k = t
  | .symNext => s.pins.rst = false ∧ s.phase = Phase.symtab.bits ∧ s.rem.toNat = 0
  | .eobacc => s.pins.rst = false ∧ s.phase = Phase.eobAccount.bits
  | .derive => s.pins.rst = false ∧ s.phase = Phase.build.bits
  | .emit => s.pins.rst = false ∧ s.phase = Phase.decode.bits ∧ s.opend = true
  | .fetch t => s.pins.rst = false ∧ s.phase = Phase.decode.bits ∧ s.opend = false ∧
      s.bl.toNat = 0 ∧ ∃ k, offered s = some k ∧ Token.ofBits k = t
  | .bit b => s.pins.rst = false ∧ s.phase = Phase.decode.bits ∧ s.opend = false ∧
      0 < s.bl.toNat ∧ b = nextBit s.sr

theorem select_eq_run {s : State} {i : Instr} :
    select s = .run i ↔ errorReserved s = false ∧ decode (opWord s) = .instr i := by
  unfold select
  cases errorReserved s
  · cases decode (opWord s) <;> simp
  · simp

theorem phase_eq_of_ofBits {s : State} {p : Phase} (h : Phase.ofBits (opWord s).phase = some p) :
    s.phase = p.bits := Phase.bits_of_ofBits h

/-- A selected operation tells where the block stands. -/
theorem selectedIn_of_select {s : State} {i : Instr} (h : select s = .run i) :
    SelectedIn s i := by
  replace h := (select_eq_run.mp h).2
  unfold decode at h
  cases hr : (opWord s).rst with
  | true =>
    rw [hr] at h
    cases h
    exact hr
  | false =>
    rw [hr] at h
    have hr' : s.pins.rst = false := hr
    simp only [Bool.false_eq_true, if_false] at h
    split at h
    · rename_i hp
      split at h
      · rename_i hs
        cases h
        exact ⟨hr', hs, .inl (phase_eq_of_ofBits hp)⟩
      · cases h
    · rename_i hp
      obtain ⟨k, hk, rfl⟩ := decodeToken_eq_instr.mp h
      exact ⟨hr', phase_eq_of_ofBits hp, k, hk, rfl⟩
    · rename_i hp
      obtain ⟨k, hk, rfl⟩ := decodeToken_eq_instr.mp h
      exact ⟨hr', phase_eq_of_ofBits hp, k, hk, rfl⟩
    · rename_i hp
      cases h
      exact ⟨hr', phase_eq_of_ofBits hp⟩
    · rename_i hp
      cases h
      exact ⟨hr', phase_eq_of_ofBits hp⟩
    · rename_i hp
      split at h
      · rename_i hrem
        obtain ⟨k, hk, rfl⟩ := decodeToken_eq_instr.mp h
        exact ⟨hr', phase_eq_of_ofBits hp, of_decide_eq_true hrem, k, hk, rfl⟩
      · rename_i hrem
        cases h
        refine ⟨hr', phase_eq_of_ofBits hp, ?_⟩
        simpa [opWord] using hrem
    · rename_i hp
      cases h
      exact ⟨hr', phase_eq_of_ofBits hp⟩
    · rename_i hp
      cases h
      exact ⟨hr', phase_eq_of_ofBits hp⟩
    · rename_i hp
      split at h
      · rename_i ho
        cases h
        exact ⟨hr', phase_eq_of_ofBits hp, ho⟩
      · rename_i ho
        have ho' : s.opend = false := by simpa [opWord] using ho
        split at h
        · rename_i hb
          cases h
          exact ⟨hr', phase_eq_of_ofBits hp, ho', of_decide_eq_true hb, rfl⟩
        · rename_i hb
          obtain ⟨k, hk, rfl⟩ := decodeToken_eq_instr.mp h
          refine ⟨hr', phase_eq_of_ofBits hp, ho', ?_, k, hk, rfl⟩
          simpa [opWord] using hb
    · rename_i hp
      split at h
      · rename_i hs
        cases h
        exact ⟨hr', hs, .inr (.inl (phase_eq_of_ofBits hp))⟩
      · cases h
    · rename_i hp
      split at h
      · rename_i hs
        cases h
        exact ⟨hr', hs, .inr (.inr (phase_eq_of_ofBits hp))⟩
      · cases h
    · cases h

/-- An offered token is the head of the provider's queue (30_encoding.md R83). -/
theorem offered_eq_some {s : State} {k : Tok} :
    offered s = some k ↔ s.pins.inValid = true ∧ ∃ rest, s.input = k :: rest := by
  unfold offered
  cases s.pins.inValid <;> cases s.input <;> simp

/-- The step that runs a selected operation. -/
theorem step_of_select {s : State} {i : Instr} (h : select s = .run i) :
    step s = endStep (exec i s) := by
  simp [step, h]

end Sys2Proof.Machine
end

