-- ==== Sys2Proof/Tests/Slice0.lean ====
section
/-! SUPPORT. The model's own tests, each with the vector of spec/95_test_vectors.md or the table of spec/
its expected result comes from, and for each statement with hypotheses a state that meets them. -/

namespace Sys2Proof.Tests

open Sys2Proof.Machine

/-! ### Helpers -/

/-- The next state, if the outcome is one. -/
def after (o : Result) : Option State :=
  match o with
  | .next s => some s
  | .fault _ => none
  | .refused _ => none

/-- A level table from the entries of its first levels. -/
def table (l : List Nat) : Table := Vector.ofFn fun i => BitVec.ofNat 9 (l.getD i.val 0)

/-- A step in which the host offers a token and accepts a byte. -/
def at_ (p : Phase) : State :=
  { State.reset with phase := p.bits, schedule := [Pins.ready] }

/-- The tables of `03 00 02 02 61 62 63 64 65` in DECODE (95_test_vectors.md, section 2). -/
def walker3 : State :=
  { at_ .decode with
    depth := 3#5, leaves := table [0, 2, 4], intn := table [2, 2, 0], offs := table [0, 0, 2]
    eobix := 5#9
    mem := [(0, 0x61#8), (1, 0x62#8), (2, 0x63#8), (3, 0x64#8), (4, 0x65#8)] }

/-- The tables of `02 00 00 5A` in DECODE (95_test_vectors.md, section 2). -/
def walker2 : State :=
  { at_ .decode with
    depth := 2#5, leaves := table [0, 2], intn := table [1, 0], offs := table [0, 0]
    eobix := 1#9, mem := [(0, 0x5A#8)] }

/-! ### Well-formedness refuses -/

theorem test_wf_refuses_countW_zero : Config.wellFormed ⟨0⟩ = false := by decide
theorem test_wf_default : Config.wellFormed Config.default = true := by decide
theorem test_wf_refuses_token_after_eod :
    Token.sequenceWellFormed [.byte 1#8, .eod, .byte 2#8] = false := by decide
theorem test_wf_refuses_token_after_err : Token.sequenceWellFormed [.err, .eod] = false := by decide
theorem test_wf_session_tokens :
    Token.sequenceWellFormed [.byte 1#8, .byte 0#8, .eod] = true := by decide
theorem test_wf_refuses_no_level : Container.wellFormed ⟨[], [1#8], []⟩ = false := by decide
theorem test_wf_refuses_25_levels :
    Container.wellFormed ⟨List.replicate 25 0#8, [1#8], []⟩ = false := by decide
theorem test_wf_refuses_large_sum :
    Container.wellFormed ⟨[255#8, 1#8], List.replicate 257 0#8, []⟩ = false := by decide
theorem test_wf_refuses_missing_symbol : Container.wellFormed ⟨[1#8], [1#8], []⟩ = false := by
  decide
theorem test_wf_container : Container.wellFormed ⟨[0#8], [0x41#8], []⟩ = true := by decide

/-! ### Decoding (30_encoding.md R82, R86; 10_state.md R37) -/

theorem test_decode_token_byte : Token.ofBits 0b00_11010100#10 = .byte 0xD4#8 := by decide
theorem test_decode_token_end : Token.ofBits 0b01_11111111#10 = .eod := by decide
theorem test_decode_token_err : Token.ofBits 0b10_00000000#10 = .err := by decide
theorem test_decode_token_reserved : Token.ofBits 0b11_00000000#10 = .err := by decide
theorem test_decode_reset :
    decode ⟨true, false, 3#4, false, false, false, false, none⟩ = .instr .reset := by decide
theorem test_decode_start :
    decode ⟨false, true, 0#4, false, false, false, false, none⟩ = .instr .start := by decide
theorem test_decode_rdDepth :
    decode ⟨false, false, 1#4, false, false, false, false, some 0b00_00011000#10⟩ =
      .instr (.rdDepth (.byte 24#8)) := by decide
theorem test_decode_rdCount :
    decode ⟨false, false, 2#4, false, false, false, false, some 0b00_11111111#10⟩ =
      .instr (.rdCount (.byte 255#8)) := by decide
theorem test_decode_sumchk :
    decode ⟨false, false, 3#4, false, false, false, false, none⟩ = .instr .sumchk := by decide
theorem test_decode_eobres :
    decode ⟨false, false, 4#4, false, false, false, false, none⟩ = .instr .eobres := by decide
theorem test_decode_rdSym :
    decode ⟨false, false, 5#4, true, false, false, false, some 0b00_01100001#10⟩ =
      .instr (.rdSym (.byte 0x61#8)) := by decide
theorem test_decode_symNext :
    decode ⟨false, false, 5#4, false, false, false, false, some 0b00_01100001#10⟩ =
      .instr .symNext := by decide
theorem test_decode_eobacc :
    decode ⟨false, false, 6#4, false, false, false, false, none⟩ = .instr .eobacc := by decide
theorem test_decode_derive :
    decode ⟨false, false, 7#4, false, false, false, false, none⟩ = .instr .derive := by decide
theorem test_decode_emit :
    decode ⟨false, false, 8#4, false, true, true, true, none⟩ = .instr .emit := by decide
theorem test_decode_fetch :
    decode ⟨false, false, 8#4, false, false, false, true, some 0b00_01011000#10⟩ =
      .instr (.fetch (.byte 0x58#8)) := by decide
theorem test_decode_bit :
    decode ⟨false, false, 8#4, false, false, true, true, none⟩ = .instr (.bit true) := by decide
theorem test_decode_waiting :
    decode ⟨false, false, 1#4, false, false, false, false, none⟩ = .waiting := by decide
theorem test_decode_reserved :
    decode ⟨false, true, 11#4, false, false, false, false, none⟩ = .reservedPhase := by decide
theorem test_decodeTableWord :
    decodeTableWord 16 0x003 = some (.rdDepth (.byte 3#8)) := by decide
theorem test_decodeTableWord_refuses : decodeTableWord 16 0x400 = none := by decide

/-! ### Operations, one step each -/

/-- Vector C-7. -/
theorem test_reset_over_start :
    (after (step { walker3 with
      outCount := 5, schedule := [{ Pins.ready with rst := true, start := true }] })).map
        (fun s => (s.phase, s.outCount, s.mem.length)) = some (0#4, 0, 5) := by decide

/-- Vector C-5. -/
theorem test_start_from_failed :
    (after (step { at_ .failed with
      err := 5#4, schedule := [{ Pins.low with start := true }] })).map
        (fun s => (s.phase, s.err)) = some (1#4, 0#4) := by decide

/-- Vector C-3: START while busy is ignored. -/
theorem test_start_while_busy :
    (after (step { walker3 with
      input := [0x0D4#10], schedule := [{ Pins.ready with start := true }] })).map
        (fun s => (s.phase, s.sr, s.bl)) = some (8#4, 0xD4#8, 8#4) := by decide

/-- Vector B-2. -/
theorem test_rdDepth_24 :
    (after (step { at_ .hdrDepth with input := [0x018#10] })).map
      (fun s => (s.depth, s.phase, s.input)) = some (24#5, 2#4, []) := by decide

/-- Vector B-3. -/
theorem test_rdDepth_25 :
    (after (step { at_ .hdrDepth with input := [0x019#10] })).map
      (fun s => (s.depth, s.phase, s.err)) = some (0#5, 10#4, 1#4) := by decide

/-- Vector B-6. -/
theorem test_rdCount_255 :
    (after (step { at_ .hdrCounts with depth := 2#5, input := [0x0FF#10] })).map
      (fun s => (entry s.leaves 0, s.sum, s.lidx, s.phase)) =
        some (255, 255#13, 1#5, 2#4) := by decide

/-- Vector B-9: the size test has not run. -/
theorem test_rdCount_end :
    (after (step { at_ .hdrCounts with
      depth := 3#5, lidx := 1#5, sum := 128#13, input := [0x100#10] })).map
        (fun s => (s.phase, s.err)) = some (10#4, 4#4) := by decide

/-- Vector B-10. -/
theorem test_sumchk_256 :
    (after (step { at_ .sumCheck with sum := 256#13 })).map (fun s => (s.phase, s.err)) =
      some (10#4, 2#4) := by decide

/-- Vector B-11. -/
theorem test_sumchk_255 :
    (after (step { at_ .sumCheck with sum := 255#13 })).map (fun s => (s.phase, s.err)) =
      some (4#4, 0#4) := by decide

/-- Vector B-12: REM is read after the increment. -/
theorem test_eobres_one_level :
    (after (step { at_ .eobReserve with depth := 1#5 })).map
      (fun s => (entry s.leaves 0, s.rem, s.phase)) = some (1, 1#9, 5#4) := by decide

/-- Vector B-13. -/
theorem test_eobres_three_levels :
    (after (step { at_ .eobReserve with depth := 3#5, leaves := table [0, 2, 2] })).map
      (fun s => (s.leaves, s.rem)) = some (table [0, 2, 3], 0#9) := by decide

/-- Vector B-15. -/
theorem test_rdSym_stores :
    (after (step { at_ .symtab with lidx := 1#5, rem := 2#9, input := [0x061#10] })).map
      (fun s => (s.mem, s.cur, s.rem)) = some ([(0, 0x61#8)], 1#9, 1#9) := by decide

/-- Vector B-16. -/
theorem test_rdSym_end :
    (after (step { at_ .symtab with
      lidx := 2#5, cur := 3#9, rem := 2#9, input := [0x100#10] })).map
        (fun s => (s.phase, s.err, s.mem)) = some (10#4, 3#4, []) := by decide

/-- Vector B-14. -/
theorem test_symNext_advances :
    (after (step { at_ .symtab with depth := 3#5, leaves := table [0, 2, 3] })).map
      (fun s => (s.lidx, entry s.offs 1, s.rem)) = some (1#5, 0, 2#9) := by decide

/-- Vector B-17. -/
theorem test_symNext_deepest :
    (after (step { at_ .symtab with depth := 3#5, lidx := 2#5, cur := 5#9 })).map
      (fun s => (s.phase, s.lidx)) = some (6#4, 2#5) := by decide

/-- Vector B-18. -/
theorem test_eobacc :
    (after (step { at_ .eobAccount with
      depth := 3#5, leaves := table [0, 2, 3], cur := 5#9 })).map
        (fun s => (s.leaves, s.eobix, s.lidx, s.phase)) =
          some (table [0, 2, 4], 5#9, 2#5, 7#4) := by decide

/-- Vector B-20. -/
theorem test_derive_inner :
    (after (step { at_ .build with
      depth := 3#5, lidx := 1#5, leaves := table [0, 2, 4] })).map
        (fun s => (entry s.intn 1, s.lidx, s.phase)) = some (2, 0#5, 7#4) := by decide

/-- Vector L1-8: (0 + 3) div 2 = 1, truncating; level 0 enters DECODE. -/
theorem test_derive_truncates :
    (after (step { at_ .build with depth := 2#5, leaves := table [1, 3] })).map
      (fun s => (entry s.intn 0, s.phase)) = some (1, 8#4) := by decide

/-- Vector W-1. -/
theorem test_fetch_byte :
    (after (step { walker3 with lvl := 1#5, code := 1#9, input := [0x0D4#10, 0x100#10] })).map
      (fun s => (s.sr, s.bl, s.lvl, s.code, s.input)) =
        some (0xD4#8, 8#4, 1#5, 1#9, [0x100#10]) := by decide

/-- Vector W-2. -/
theorem test_fetch_end :
    (after (step { walker3 with outCount := 3, input := [0x100#10] })).map
      (fun s => (s.phase, s.err, s.outCount)) = some (10#4, 6#4, 3) := by decide

/-- Vector W-5. -/
theorem test_bit_leaf :
    (after (step { walker3 with lvl := 1#5, code := 1#9, sr := 0xA8#8, bl := 7#4 })).map
      (fun s => (s.obuf, s.opend, s.lvl, s.code, s.sr, s.bl)) =
        some (0x62#8, true, 0#5, 0#9, 0x50#8, 6#4) := by decide

/-- Vector W-7: the raising step's other writes are cancelled. -/
theorem test_bit_corrupt :
    (after (step { walker2 with sr := 0x80#8, bl := 8#4 })).map
      (fun s => (s.phase, s.err, s.sr, s.bl, s.code)) =
        some (10#4, 5#4, 0x80#8, 8#4, 0#9) := by decide

/-- Vector W-6: DONE; LVL and CODE stay and nothing is output. -/
theorem test_bit_eob :
    (after (step { walker3 with lvl := 2#5, code := 1#9, sr := 0x80#8, bl := 4#4 })).map
      (fun s => (s.phase, s.lvl, s.code, s.opend)) = some (9#4, 2#5, 3#9, false) := by decide

/-- Vector W-10. -/
theorem test_emit_ok :
    (after (step { walker3 with obuf := 0x41#8, opend := true, outCount := 2 })).map
      (fun s => (s.output, s.outCount, s.opend)) = some ([0x41#8], 3, false) := by decide

/-- Vector W-12: COUNT_W = 2, no put is made. -/
theorem test_emit_overflow :
    (after (step { walker3 with cfg := ⟨2⟩, opend := true, outCount := 3 })).map
      (fun s => (s.phase, s.err, s.outCount, s.output)) = some (10#4, 9#4, 3, []) := by decide

/-! ### Ports, flags, stops -/

/-- The STATUS words of 95_test_vectors.md, section 5. -/
theorem test_status_words :
    status State.reset = 0x00000000#32 ∧ status (at_ .hdrDepth) = 0x00000011#32 ∧
      status (at_ .decode) = 0x00000018#32 ∧ status (at_ .done) = 0x00000029#32 ∧
      status { at_ .failed with err := 5#4 } = 0x0000054A#32 := by decide

/-- 30_encoding.md R83, R84: `in_ready` only with a token, `out_valid` only while a byte is offered. -/
theorem test_ports :
    inReady { at_ .hdrDepth with input := [0x003#10] } = true ∧
      inReady (at_ .hdrDepth) = false ∧ outValid { walker3 with opend := true } = true ∧
      outValid { walker3 with cfg := ⟨2⟩, opend := true, outCount := 3 } = false := by decide

/-- 93_implementation_defined.md I6: a reserved phase is refused. -/
theorem test_reserved_phase :
    step { State.reset with phase := 12#4 } = .refused .reservedPhase := rfl

/-- The word that `withFetchWord` places is the first operation after reset. -/
theorem test_withFetchWord :
    (after (step (State.reset.withFetchWord 16 0x003))).map (fun s => (s.depth, s.phase)) =
      some (3#5, 2#4) := by decide

/-- 30_encoding.md R84: `out_data` carries OBUF while EMIT makes its put. -/
theorem test_outData :
    outData { walker3 with opend := true, obuf := 0x41#8 } = some 0x41#8 ∧
      outData { walker3 with obuf := 0x41#8 } = none := by decide

/-- Program P1 in the notation of 30_encoding.md R96 and R97. -/
theorem test_assemble_p1 :
    assemble 1#8 [0#8] [0x41#8] [.code 0x41#8, .code 0x41#8, .code 0x41#8, .eob, .pad] =
      some [0x01#8, 0x00#8, 0x41#8, 0x10#8] := by decide

/-- The tables of `01 02 41 42 43`: the EOB is unreachable and the assembler refuses `.eob`. -/
theorem test_assemble_refuses_eob :
    assemble 1#8 [2#8] [0x41#8, 0x42#8, 0x43#8] [.eob] = none := by decide

/-- 30_encoding.md R90, R97, counts 1, 0, 1: INTN is 0, 1, 0, so the leaf at address 1 has the code 000, which
is unreachable because its prefix 0 is no internal node; `.code @1` has it, `.code` refuses it. -/
theorem test_assemble_unreachable :
    assemble 3#8 [1#8, 0#8, 1#8] [0x41#8, 0x42#8, 0x43#8] [.bits [true], .codeAt 1, .bits [true]] =
        some [0x03#8, 0x01#8, 0x00#8, 0x01#8, 0x41#8, 0x42#8, 0x43#8, 0x88#8] ∧
      assemble 3#8 [1#8, 0#8, 1#8] [0x41#8, 0x42#8, 0x43#8] [.code 0x42#8] = none := by decide

/-- 30_encoding.md R96: an illegal depth byte assembles. -/
theorem test_assemble_illegal_depth :
    assemble 0x19#8 [] [] [.bytes [0x5F#8]] = some [0x19#8, 0x5F#8] := by decide

/-! ### The hypotheses of the statements are met

One theorem for each statement that has hypotheses, named after it: states and operands that meet all of
them together, clause by clause, at the ends of the clause's range. -/

theorem inv_walker3 (lvl : BitVec 5) (code : BitVec 9) (sr : Byte) (bl : BitVec 4) (o : Bool)
    (sch : List Pins) (inp : List Tok) (hl : lvl.toNat < 3) (hr : lvl.toNat = 0 → code.toNat = 0)
    (hi : 0 < lvl.toNat → code.toNat < entry walker3.intn (lvl.toNat - 1)) (hb : bl.toNat ≤ 8) :
    Inv { walker3 with
      lvl := lvl, code := code, sr := sr, bl := bl, opend := o, schedule := sch, input := inp } :=
  { width := (by decide : walker3.cfg.wellFormed = true)
    count := Nat.two_pow_pos _
    mem := (by decide : Memory.wf walker3.mem)
    err := (by decide : walker3.err.toNat ≤ 9)
    failed := (by decide : walker3.phase = Phase.failed.bits ↔ walker3.err ≠ 0#4)
    phase :=
      { built :=
          { depth := (by decide : 1 ≤ walker3.depth.toNat ∧ walker3.depth.toNat ≤ 24)
            deepest := (by decide : 2 ≤ entry walker3.leaves (walker3.depth.toNat - 1))
            total := (by decide : entrySum walker3.leaves walker3.depth.toNat ≤ 257)
            eob := (by decide :
              walker3.eobix.toNat + 1 = entrySum walker3.leaves walker3.depth.toNat)
            offsets := (by decide :
              ∀ l, l < walker3.depth.toNat → entry walker3.offs l = entrySum walker3.leaves l)
            internal := fun l _ h => (by decide :
              ∀ l, l < walker3.depth.toNat → entry walker3.intn l =
                if l + 1 = walker3.depth.toNat then 0
                else (entry walker3.intn (l + 1) + entry walker3.leaves (l + 1)) / 2) l h
            stored := (by decide :
              ∀ a, a < walker3.eobix.toNat → (lookup walker3.mem a).isSome = true) }
        level := hl
        root := hr
        inner := hi
        bits := hb } }

/-- The under-full tables before the bit 1 (program P4). -/
def underfull : State := { walker2 with sr := 0x80#8, bl := 8#4 }

theorem inv_underfull : Inv underfull :=
  { width := by decide
    count := Nat.two_pow_pos _
    mem := by decide
    err := by decide
    failed := by decide
    phase :=
      { built :=
          { depth := (by decide : 1 ≤ underfull.depth.toNat ∧ underfull.depth.toNat ≤ 24)
            deepest := by decide
            total := by decide
            eob := by decide
            offsets := (by decide :
              ∀ l, l < underfull.depth.toNat →
                entry underfull.offs l = entrySum underfull.leaves l)
            internal := fun l _ h => (by decide :
              ∀ l, l < underfull.depth.toNat → entry underfull.intn l =
                if l + 1 = underfull.depth.toNat then 0
                else (entry underfull.intn (l + 1) + entry underfull.leaves (l + 1)) / 2) l h
            stored := (by decide :
              ∀ a, a < underfull.eobix.toNat → (lookup underfull.mem a).isSome = true) }
        level := by decide
        root := by decide
        inner := by decide
        bits := by decide } }

/-- A quiescent state (IDLE, DONE) satisfies the invariant whatever the host offers. -/
theorem inv_quiet (sch : List Pins) (inp : List Tok) (c : BitVec 9) :
    Inv { at_ .done with schedule := sch, input := inp, cur := c } :=
  { width := (by decide : (at_ .done).cfg.wellFormed = true), count := Nat.two_pow_pos _
    mem := (by decide : Memory.wf (at_ .done).mem), err := (by decide : (at_ .done).err.toNat ≤ 9)
    failed := (by decide : (at_ .done).phase = Phase.failed.bits ↔ (at_ .done).err ≠ 0#4)
    phase := rfl }

theorem inv_failed : Inv { at_ .failed with err := 5#4, schedule := [{ Pins.low with start := true }] } :=
  { width := by decide, count := Nat.two_pow_pos _, mem := by decide, err := by decide
    failed := by decide, phase := trivial }

theorem witness_ReservedTokenKindRaisesInputReadError :
    ∀ s ∈ [{ at_ .hdrDepth with input := [0x300#10] }, { at_ .hdrCounts with input := [0x300#10] },
        { at_ .symtab with rem := 1#9, input := [0x300#10] }, { walker3 with input := [0x300#10] }],
      s.pins.rst = false ∧ s.err.toNat ≤ 9 ∧
        (s.phase = 1#4 ∨ s.phase = 2#4 ∨ (s.phase = 5#4 ∧ 0 < s.rem.toNat) ∨
          (s.phase = 8#4 ∧ s.opend = false ∧ s.bl.toNat = 0)) ∧
        offered s = some 0x300#10 ∧ (0x300#10).toNat / 256 = 3 := by decide

theorem witness_StepRunsTheDecodedOperation :
    (decode (opWord (at_ .sumCheck)) = .instr .sumchk ∧ ∃ t, exec .sumchk (at_ .sumCheck) = .next t) ∧
    (decode (opWord (at_ .eobReserve)) = .instr .eobres ∧
      exec .eobres (at_ .eobReserve) = .fault .levelIndex) ∧
    decode (opWord (at_ .idle)) = .quiescent ∧ decode (opWord (at_ .hdrDepth)) = .waiting ∧
    decode (opWord { at_ .idle with phase := 15#4 }) = .reservedPhase :=
  ⟨⟨by decide, _, rfl⟩, ⟨by decide, rfl⟩, by decide, by decide, by decide⟩

theorem witness_StepSelectsByPhase :
    (∀ p ∈ [0#4, 9#4, 10#4], select { at_ .idle with phase := p } = .rest ∧
      select { at_ .idle with phase := p, schedule := [{ Pins.low with start := true }] } =
        .run .start) ∧
    select { at_ .hdrDepth with input := [0x001#10] } = .run (.rdDepth (.byte 1#8)) ∧
    select { at_ .hdrCounts with input := [0x101#10] } = .run (.rdCount .eod) ∧
    select (at_ .hdrDepth) = .rest ∧ select (at_ .hdrCounts) = .rest ∧
    select (at_ .sumCheck) = .run .sumchk ∧ select (at_ .eobReserve) = .run .eobres ∧
    select { at_ .symtab with rem := 1#9, input := [0x0FF#10] } = .run (.rdSym (.byte 255#8)) ∧
    select { at_ .symtab with rem := 1#9 } = .rest ∧ select (at_ .symtab) = .run .symNext ∧
    select (at_ .eobAccount) = .run .eobacc ∧ select (at_ .build) = .run .derive ∧
    select { at_ .decode with opend := true } = .run .emit ∧
    select { at_ .decode with input := [0x010#10] } = .run (.fetch (.byte 16#8)) ∧
    select (at_ .decode) = .rest ∧ select { at_ .decode with bl := 1#4 } = .run (.bit false) ∧
    select { at_ .idle with phase := 11#4 } = .refuse .reservedPhase := by decide

theorem witness_ResetClearsEveryRegister :
    State.pins { walker3 with schedule := [{ Pins.low with rst := true }] } =
      { Pins.low with rst := true } := by decide

theorem witness_StartBeginsASession :
    ∀ p ∈ [0#4, 9#4, 10#4],
      let s := { at_ .idle with phase := p, schedule := [{ Pins.low with start := true }] }
      s.pins.rst = false ∧ s.pins.start = true ∧ s.err.toNat ≤ 9 := by decide

theorem witness_StartWhileBusyIsIgnored :
    ∃ p : Pins, p.start = true ∧
      { walker3 with schedule := [p] }.schedule = p :: [] ∧ 1 ≤ walker3.phase.toNat ∧
      walker3.phase.toNat ≤ 8 := ⟨{ Pins.low with start := true }, rfl, rfl, by decide, by decide⟩

theorem witness_QuiescentPhasesChangeNothing :
    ((at_ .idle).pins.rst = false ∧ (at_ .idle).pins.start = false ∧ (at_ .idle).err.toNat ≤ 9) ∧
    ∃ t, step { at_ .failed with schedule := [{ Pins.low with start := true }] } = .next t ∧
      t.phase ≠ 10#4 := ⟨by decide, _, rfl, by decide⟩

theorem witness_BusyBlockWaitsInTwoSituations :
    (step (at_ .hdrDepth) = .next { at_ .hdrDepth with schedule := [] }) ∧
    (step { walker3 with opend := true, schedule := [Pins.low] } =
      .next { walker3 with opend := true, schedule := [] }) ∧
    (∃ t, step (at_ .sumCheck) = .next t ∧ t ≠ { at_ .sumCheck with schedule := [] }) :=
  ⟨rfl, rfl, _, rfl, by decide⟩

theorem witness_RdDepthReadsTheTreeDepth :
    (1 ≤ (1#8).toNat ∧ (24#8).toNat ≤ 24) ∧ (0#8).toNat < 1 ∧ 24 < (25#8).toNat := by decide

theorem witness_RdCountReadsOneLeafCount :
    (let s := { at_ .hdrCounts with depth := 24#5, lidx := 23#5, sum := 7936#13 };
      s.lidx.toNat < 24 ∧ s.sum.toNat + (255#8).toNat < 8192 ∧
        s.lidx.toNat + 1 = s.depth.toNat) ∧
    (let s := { at_ .hdrCounts with depth := 2#5 };
      s.lidx.toNat < 24 ∧ s.sum.toNat + (255#8).toNat < 8192 ∧
        s.lidx.toNat + 1 ≠ s.depth.toNat) := by decide

theorem witness_SumchkRaisesAboveTwoHundredFiftySix :
    256 < (256#13).toNat + 1 ∧ (255#13).toNat + 1 ≤ 256 := by decide

theorem witness_EobresReservesTheExtraSlot :
    (let s := { at_ .eobReserve with depth := 1#5, leaves := table [510] };
      0 + 1 = s.depth.toNat ∧ entry s.leaves 0 < 511) ∧
    (let s := { at_ .eobReserve with depth := 24#5 };
      23 + 1 = s.depth.toNat ∧ entry s.leaves 23 < 511) := by decide

theorem witness_RdSymStoresOneSymbol :
    let s := { at_ .symtab with cur := 255#9, rem := 1#9 }
    s.cur.toNat ≤ 255 ∧ 0 < s.rem.toNat := by decide

theorem witness_SymNextMovesToTheNextLevel :
    (let s := { at_ .symtab with depth := 24#5, lidx := 23#5 };
      s.lidx.toNat + 1 = s.depth.toNat) ∧
    (let s := { at_ .symtab with depth := 24#5, lidx := 22#5 };
      s.lidx.toNat + 1 ≠ s.depth.toNat ∧ s.lidx.toNat + 1 < 24) := by decide

theorem witness_EobaccAccountsForTheEobSlot :
    let s := { at_ .eobAccount with depth := 1#5, leaves := table [256] }
    0 + 1 = s.depth.toNat ∧ entry s.leaves 0 < 511 := by decide

theorem witness_DeriveComputesOneInternalCount :
    (let s := { at_ .build with depth := 24#5, lidx := 23#5 };
      s.lidx.toNat < 24 ∧ s.lidx.toNat + 1 = s.depth.toNat ∧ s.lidx.toNat ≠ 0) ∧
    (let s := { at_ .build with depth := 2#5, leaves := table [1, 3] };
      s.lidx.toNat = 0 ∧ s.lidx.toNat + 1 ≠ s.depth.toNat ∧ s.lidx.toNat + 1 < 24 ∧
        1 = (entry s.intn (s.lidx.toNat + 1) + entry s.leaves (s.lidx.toNat + 1)) / 2) := by
  decide

/-- Descend, past the deepest level, no node, the EOB, a stored symbol. -/
theorem witness_BitWalksOneLevel :
    (let s := { walker3 with bl := 1#4 };
      0 < s.bl.toNat ∧ s.code.toNat ≤ 255 ∧ s.lvl.toNat < 24 ∧
        2 * s.code.toNat + true.toNat < entry s.intn s.lvl.toNat ∧
        s.lvl.toNat + 2 ≤ s.depth.toNat) ∧
    (let s := { walker3 with bl := 1#4, depth := 1#5 };
      2 * s.code.toNat + true.toNat < entry s.intn s.lvl.toNat ∧
        s.depth.toNat < s.lvl.toNat + 2) ∧
    (2 * underfull.code.toNat + true.toNat = entry underfull.intn 0 + 0 ∧
      entry underfull.leaves 0 ≤ 0) ∧
    (let s := { walker3 with bl := 1#4, lvl := 2#5, code := 1#9 };
      2 * s.code.toNat + true.toNat = entry s.intn 2 + 3 ∧ 3 < entry s.leaves 2 ∧
        entry s.offs 2 + 3 = s.eobix.toNat) ∧
    (let s := { walker3 with bl := 1#4, lvl := 2#5, code := 1#9 };
      2 * s.code.toNat + false.toNat = entry s.intn 2 + 2 ∧ 2 < entry s.leaves 2 ∧
        entry s.offs 2 + 2 ≠ s.eobix.toNat ∧ entry s.offs 2 + 2 < 256 ∧
        lookup s.mem 4 = some 0x65#8) := by decide

theorem witness_EmitHandsOneByteToTheConsumer :
    (let s := { walker3 with cfg := ⟨1⟩, outCount := 1 };
      s.outCount = 2 ^ s.cfg.countW - 1) ∧
    (let s := { walker3 with cfg := ⟨1⟩, schedule := [] };
      s.outCount ≠ 2 ^ s.cfg.countW - 1 ∧ s.pins.outReady = false) ∧
    (let s := { walker3 with cfg := ⟨1⟩, schedule := [{ Pins.ready with outErr := true }] };
      s.outCount ≠ 2 ^ s.cfg.countW - 1 ∧ s.pins.outReady = true ∧ s.pins.outErr = true) ∧
    (let s := { walker3 with cfg := ⟨1⟩ };
      s.outCount < 2 ^ s.cfg.countW - 1 ∧ s.pins.outReady = true ∧ s.pins.outErr = false) := by
  decide

/-- Each kind of stop at the first value of its range, and beside it a state that does not stop. -/
theorem witness_OperationsStopOnlyOutsideTheirTables :
    exec (.rdCount (.byte 0#8)) { at_ .hdrCounts with lidx := 24#5 } = .fault .levelIndex ∧
    exec (.rdCount (.byte 1#8)) { at_ .hdrCounts with lidx := 23#5, sum := 8191#13 } =
      .fault .registerWidth ∧
    (∃ t, exec (.rdCount (.byte 0#8)) { at_ .hdrCounts with lidx := 23#5, sum := 8191#13 } =
      .next t) ∧
    exec .eobres (at_ .eobReserve) = .fault .levelIndex ∧
    exec .eobacc { at_ .eobAccount with depth := 25#5 } = .fault .levelIndex ∧
    exec .eobres { at_ .eobReserve with depth := 1#5, leaves := table [511] } =
      .fault .registerWidth ∧
    (∃ t, exec .eobres { at_ .eobReserve with depth := 24#5 } = .next t) ∧
    exec (.rdSym (.byte 0#8)) { at_ .symtab with cur := 256#9, rem := 1#9 } =
      .fault .symbolAddress ∧
    exec (.rdSym (.byte 0#8)) { at_ .symtab with cur := 255#9 } = .fault .registerWidth ∧
    (∃ t, exec (.rdSym (.byte 0#8)) { at_ .symtab with cur := 255#9, rem := 1#9 } = .next t) ∧
    exec .symNext { at_ .symtab with lidx := 23#5 } = .fault .levelIndex ∧
    (∃ t, exec .symNext { at_ .symtab with depth := 24#5, lidx := 23#5 } = .next t) ∧
    exec .derive { at_ .build with lidx := 23#5 } = .fault .levelIndex ∧
    exec .derive { at_ .build with depth := 25#5, lidx := 24#5 } = .fault .levelIndex ∧
    (∃ t, exec .derive { at_ .build with depth := 24#5, lidx := 23#5 } = .next t) :=
  ⟨rfl, rfl, ⟨_, rfl⟩, rfl, rfl, rfl, ⟨_, rfl⟩, rfl, rfl, ⟨_, rfl⟩, rfl, ⟨_, rfl⟩, rfl, rfl, _, rfl⟩

/-- The same of the walker: BL = 0, CODE = 256, LVL = 24, address 256, and OUT_COUNT above its width. -/
theorem witness_OperationsStopOnlyOutsideTheirTables_walker :
    exec (.bit true) walker3 = .fault .registerWidth ∧
    exec (.bit false) { walker3 with bl := 1#4, code := 256#9 } = .fault .registerWidth ∧
    exec (.bit true) { walker3 with bl := 1#4, lvl := 24#5 } = .fault .levelIndex ∧
    exec (.bit true) { walker3 with bl := 1#4, lvl := 2#5, offs := table [0, 0, 255] } =
      .fault .symbolAddress ∧
    (∃ t, exec (.bit false) { walker3 with bl := 1#4, lvl := 2#5, offs := table [0, 0, 255] } =
      .next t) ∧
    exec .emit { walker3 with cfg := ⟨1⟩, outCount := 2 } = .fault .registerWidth ∧
    (∃ t, exec .emit { walker3 with cfg := ⟨1⟩, outCount := 0 } = .next t) :=
  ⟨rfl, rfl, rfl, rfl, ⟨_, rfl⟩, rfl, _, rfl⟩

theorem witness_OperationsWriteOnlyTheirRegisters :
    ∃ t, exec .derive { at_ .build with depth := 1#5 } = .next t ∧ t.phase = 8#4 :=
  ⟨_, rfl, by decide⟩

theorem witness_FailureWritesOnlyErrAndPhase :
    underfull.phase ≠ 10#4 ∧ ∃ t, exec (.bit true) underfull = .next t ∧ t.phase = 10#4 :=
  ⟨by decide, _, rfl, by decide⟩

theorem witness_OperationsRaiseOnlyTheirErrors :
    (at_ .symtab).phase ≠ 10#4 ∧
      ∃ t, exec (.rdSym .eod) (at_ .symtab) = .next t ∧ t.phase = 10#4 :=
  ⟨by decide, _, rfl, by decide⟩

theorem witness_ErrIsWrittenByRaiseStartAndReset :
    (∃ t, exec .start { at_ .failed with err := 5#4 } = .next t ∧ t.err ≠ 5#4) ∧
    ∃ s t, Inv s ∧ s.err ≠ 0#4 ∧ step s = .next t ∧ t.err ≠ s.err :=
  ⟨⟨_, rfl, by decide⟩, _, _, inv_failed, by decide, rfl, by decide⟩

theorem witness_DescriptorIsReadOnlyWhileDecoding :
    (∃ t, step underfull = .next t) ∧ select underfull ≠ .run .reset ∧
      select underfull ≠ .run .start ∧ (∃ t, step (at_ .done) = .next t) ∧
      ∃ t, step (at_ .failed) = .next t :=
  ⟨⟨_, rfl⟩, by decide, by decide, ⟨_, rfl⟩, _, rfl⟩

theorem witness_SymbolMemoryIsWrittenByRdSymOnly :
    ∃ t, step { at_ .symtab with rem := 1#9, input := [0x061#10] } = .next t ∧ t.mem ≠ [] :=
  ⟨_, rfl, by decide⟩

theorem witness_EachAcceptedByteIsCountedOnce :
    ∃ t, step { walker3 with opend := true } = .next t ∧ t.output = [0#8] := ⟨_, rfl, by decide⟩

theorem witness_TakeConsumesExactlyTheOfferedToken :
    (inReady { walker3 with input := [0x0D4#10] } = true ∧
      ∃ t, step { walker3 with input := [0x0D4#10] } = .next t) ∧
    inReady underfull = false ∧ ∃ t, step underfull = .next t :=
  ⟨⟨by decide, _, rfl⟩, by decide, _, rfl⟩

theorem witness_SuccessIsBitFindingTheEob :
    let s := { walker3 with lvl := 2#5, code := 1#9, sr := 0x80#8, bl := 4#4 }
    s.phase ≠ 9#4 ∧ ∃ t, step s = .next t ∧ t.phase = 9#4 := ⟨by decide, _, rfl, by decide⟩

theorem witness_DecodeIsEnteredByDeriveOfLevelZero :
    ∃ t, step { at_ .build with depth := 1#5 } = .next t ∧ t.phase = 8#4 := ⟨_, rfl, by decide⟩

theorem witness_ResetStateIsAllZero :
    ∃ r s : State, s.pins.rst = true ∧ step s = .next r ∧ s.phase = 8#4 :=
  ⟨_, { walker3 with schedule := [{ Pins.low with rst := true }] }, rfl, rfl, by decide⟩

theorem witness_SymbolWriteIsReadBack :
    (memWrite State.reset 256 1#8 = none) ∧ (memWrite State.reset 255 1#8).isSome = true := by
  decide

theorem witness_CanonicalMemoryIsUnique :
    Memory.wf [(0, 1#8), (255, 2#8)] ∧
      ∀ a, lookup (store [(255, 2#8)] 0 1#8) a = lookup [(0, 1#8), (255, 2#8)] a :=
  ⟨by decide, fun _ => rfl⟩

theorem witness_BuiltDescriptorBounds :
    Built { walker3 with bl := 1#4 } ∧ Inv { walker3 with bl := 1#4 } ∧
      0 < ({ walker3 with bl := 1#4 } : State).bl.toNat :=
  have h := inv_walker3 0#5 0#9 0#8 1#4 false [Pins.ready] [] (by decide) (by decide) (by decide)
    (by decide)
  ⟨(show Walking _ from h.phase).built, h, by decide⟩

theorem witness_CorruptStreamOnlyAtAnUnderfullRoot :
    ∃ t, Inv underfull ∧ underfull.phase = 8#4 ∧ step underfull = .next t ∧ t.err = 5#4 :=
  ⟨_, inv_underfull, rfl, rfl, by decide⟩

theorem witness_DecodedSymbolWasStored :
    ∃ s t, Inv s ∧ s.phase = 8#4 ∧ s.opend = false ∧ step s = .next t ∧ t.opend = true :=
  ⟨_, _, inv_walker3 1#5 1#9 0xA8#8 7#4 false [Pins.ready] [] (by decide) (by decide) (by decide)
    (by decide), rfl, rfl, rfl, by decide⟩

theorem witness_EobIsReachedAtTheDeepestLevel :
    ∃ s t, Inv s ∧ s.phase = 8#4 ∧ step s = .next t ∧ t.phase = 9#4 :=
  ⟨_, _, inv_walker3 2#5 1#9 0x80#8 4#4 false [Pins.ready] [] (by decide) (by decide) (by decide)
    (by decide), rfl, rfl, by decide⟩

theorem witness_ReachableCodesArePrefixFree :
    leafReachable (descriptorOf walker3) 1 0 = true ∧
      leafCode (descriptorOf walker3) 1 0 <+: leafCode (descriptorOf walker3) 1 0 := by decide

theorem witness_EveryStepKeepsTheInvariant : Inv underfull ∧ ∃ s, Inv s ∧ s.phase = 9#4 :=
  ⟨inv_underfull, _, inv_quiet [] [] 0#9, rfl⟩

theorem witness_BuilderBuildsTheDescriptor :
    let c : Container := ⟨[0#8], [0x41#8], []⟩
    let s := { at_ .hdrDepth with input := [0x001#10, 0x000#10, 0x041#10], schedule := readySchedule 8 }
    c.wellFormed = true ∧ s.phase = 1#4 ∧ s.err = 0#4 ∧
      s.input = byteTokens (BitVec.ofNat 8 c.counts.length :: (c.counts ++ c.symbols)) ++ [] ∧
      s.schedule = readySchedule (c.total + 3 * c.counts.length + 5) ++ [] := by decide

/-- Program P2 from the first bitstream byte: "bead", then the EOB. -/
theorem witness_CodesDecodeToTheirSymbols :
    ∃ s : State, Inv s ∧ s.phase = 8#4 ∧ s.opend = false ∧ s.lvl.toNat = 0 ∧
      (∀ x ∈ [(1, 1), (2, 2), (1, 0), (2, 1)], leafReachable (descriptorOf s) x.1 x.2 = true ∧
        entry s.offs x.1 + x.2 ≠ s.eobix.toNat) ∧
      eobCode (descriptorOf s) = some [false, true, true] ∧
      pendingBits s = ([(1, 1), (2, 2), (1, 0), (2, 1)].flatMap fun x =>
        leafCode (descriptorOf s) x.1 x.2) ++ [false, true, true] ++ [false, false, false] ∧
      s.outCount + 4 < 2 ^ s.cfg.countW ∧ s.schedule = readySchedule 39 ++ [] :=
  ⟨_, inv_walker3 0#5 0#9 0#8 0#4 false (readySchedule 39) [0x0D4#10, 0x058#10] (by decide)
    (by decide) (by decide) (by decide), rfl, rfl, rfl, by decide, by decide, by decide, by decide,
    by decide⟩

theorem witness_SessionIgnoresThePast :
    ∃ s t : State, Inv s ∧ Inv t ∧ s.cfg = t.cfg ∧ s.schedule = t.schedule ∧ s.input = t.input ∧
      select s = .run .start ∧ select t = .run .start ∧ s.cur ≠ t.cur :=
  ⟨_, _, inv_quiet [{ Pins.low with start := true }] [0x001#10] 0#9,
    inv_quiet [{ Pins.low with start := true }] [0x001#10] 5#9, rfl, rfl, rfl, by decide, by decide,
    by decide⟩

theorem witness_AnsweredSessionEnds :
    ∃ s : State, Inv s ∧ 1 ≤ s.phase.toNat ∧ s.phase.toNat ≤ 8 ∧
      s.input = byteTokens [0xD4#8, 0x58#8] ++ [Token.eod.toBits] ∧
      s.schedule = readySchedule (400 + 17 * [0xD4#8, 0x58#8].length) ++ [] :=
  ⟨_, inv_walker3 0#5 0#9 0#8 0#4 false (readySchedule 434) [0x0D4#10, 0x058#10, 0x100#10]
    (by decide) (by decide) (by decide) (by decide), by decide, by decide, by decide,
    (List.append_nil _).symm⟩

end Sys2Proof.Tests
end

/-! PROOFS. The scope family: where an operation stops (20_memory.md R60, R62, 00_scope.md R9) and what
a write to the symbol memory leaves (20_memory.md R60). -/

namespace Sys2Proof.Machine

/-! ### The symbol memory, read after a write -/

/-- The address written reads as the byte (00_scope.md R11). -/
theorem memRead_store_same {s : State} {a : Nat} (v : Byte) (h : a < Config.symtabEntries) :
    memRead { s with mem := store s.mem a v } a = some v :=
  memRead_of_lookup h (lookup_store_same s.mem a v)

/-- Every other address, in range or not, reads as before. -/
theorem memRead_store_other {s : State} {a b : Nat} (v : Byte) (h : b ≠ a) :
    memRead { s with mem := store s.mem a v } b = memRead s b := by
  simp only [memRead, lookup_store_other s.mem v h]

/-- Settles O36: below 256 from the two rules of a read after a write, from 256 on from the range of
the accesses. -/
theorem symbolWriteIsReadBack : Obligations.SymbolWriteIsReadBack := by
  intro s a v
  refine ⟨fun h => ⟨memWrite_eq_none.mpr h, memRead_eq_none.mpr h⟩, fun h => ?_⟩
  exact ⟨_, memWrite_eq_some.mpr ⟨h, rfl⟩, memRead_store_same v h,
    fun b hb => memRead_store_other v hb⟩

/-! ### An access stops, or goes on with its value -/

section
variable {f r : Fault}

theorem need_readLevel_eq_fault {t : Table} {i : Nat} {k : Entry → Result} :
    need f (readLevel t i) k = .fault r ↔
      (r = f ∧ 24 ≤ i) ∨ (i < 24 ∧ k (BitVec.ofNat 9 (entry t i)) = .fault r) := by
  rcases Nat.lt_or_ge i 24 with h | h
  · simp [entry, readLevel_of_lt h, h]
  · simp [readLevel_of_ge h, h, eq_comm]

theorem need_writeLevel_eq_fault {t : Table} {i : Nat} {v : Entry} {k : Table → Result} :
    need f (writeLevel t i v) k = .fault r ↔
      (r = f ∧ 24 ≤ i) ∨ (i < 24 ∧ k (t.setIfInBounds i v) = .fault r) := by
  rcases Nat.lt_or_ge i 24 with h | h
  · simp [writeLevel_of_lt v h, h]
  · simp [writeLevel_of_ge v h, h, eq_comm]

theorem need_narrow_eq_fault {w n : Nat} {k : BitVec w → Result} :
    need f (narrow w n) k = .fault r ↔
      (r = f ∧ 2 ^ w ≤ n) ∨ (n < 2 ^ w ∧ k (BitVec.ofNat w n) = .fault r) := by
  rcases Nat.lt_or_ge n (2 ^ w) with h | h
  · simp [narrow_of_lt h, h]
  · simp [narrow_eq_none.mpr h, h, eq_comm]

theorem need_decrement_eq_fault {w : Nat} {v : BitVec w} {k : BitVec w → Result} :
    need f (decrement v) k = .fault r ↔
      (r = f ∧ v.toNat = 0) ∨ (0 < v.toNat ∧ k (v - 1#w) = .fault r) := by
  rcases Nat.eq_zero_or_pos v.toNat with h | h
  · simp [decrement_eq_none.mpr h, h, eq_comm]
  · simp [decrement_of_pos h, h, Nat.ne_of_gt h]

/-- A read after which the operation answers, whatever byte it is. -/
theorem need_memRead_next_eq_fault {s : State} {a : Nat} {k : Byte → State} :
    need f (memRead s a) (fun v => .next (k v)) = .fault r ↔ r = f ∧ 256 ≤ a := by
  simp [need_eq_fault, memRead_eq_none, and_comm]

theorem need_memWrite_eq_fault {s : State} {a : Nat} {v : Byte} {k : State → Result} :
    need f (memWrite s a v) k = .fault r ↔
      (r = f ∧ 256 ≤ a) ∨ (a < 256 ∧ k { s with mem := store s.mem a v } = .fault r) := by
  rcases Nat.lt_or_ge a 256 with h | h
  · simp [memWrite_eq_some.mpr ⟨h, rfl⟩, h]
  · simp [memWrite_eq_none.mpr h, h, eq_comm]

/-- The bits of an entry lose nothing of it. -/
theorem ofNat_entry_toNat (t : Table) (i : Nat) :
    (BitVec.ofNat 9 (entry t i)).toNat = entry t i :=
  Nat.mod_eq_of_lt (entry_lt t i)

theorem internalNodes_eq_none {s : State} {l : Nat} :
    internalNodes s l = none ↔ l + 1 ≠ s.depth.toNat ∧ 24 ≤ l + 1 := by
  unfold internalNodes
  split <;> rename_i hd <;> rw [isDeepest_iff] at hd
  · simp [hd]
  · rcases Nat.lt_or_ge (l + 1) 24 with h | h
    · simp [readLevel_of_lt h, Nat.not_le.mpr h]
    · simp [readLevel_of_ge h, hd, h]

end

/-! ### Where each operation stops -/

theorem execRdDepth_answers (tok : Token) (s : State) : ∃ t, execRdDepth tok s = .next t := by
  rcases execRdDepth_cases tok s with ⟨_, _, _, _, h⟩ | ⟨_, _, _, h⟩ | ⟨_, h⟩ | ⟨_, h⟩ <;>
    exact ⟨_, h⟩

theorem execSumchk_answers (s : State) : ∃ t, execSumchk s = .next t := by
  rcases execSumchk_cases s with ⟨_, h⟩ | ⟨_, h⟩ <;> exact ⟨_, h⟩

theorem execFetch_answers (tok : Token) (s : State) : ∃ t, execFetch tok s = .next t := by
  rcases execFetch_cases tok s with ⟨_, _, h⟩ | ⟨_, h⟩ | ⟨_, h⟩ <;> exact ⟨_, h⟩

section
variable {s : State} {r : Fault}

/-- RD_COUNT of End or Err answers; of a byte it stops at its level, then at the sum
(40_tree_builder.md R112). -/
theorem execRdCount_eq_fault (tok : Token) :
    execRdCount tok s = .fault r ↔ StopsWith s r (.rdCount tok) := by
  cases tok with
  | byte c =>
    simp only [execRdCount, StopsWith, need_writeLevel_eq_fault, need_narrow_eq_fault, ite_eq_iff,
      reduceCtorEq, and_false, or_false, and_left_comm, Nat.reducePow]
  | eod => simp [execRdCount, StopsWith]
  | err => simp [execRdCount, StopsWith]

/-- EOBRES stops where the deepest count does not grow: level 0 always exists (40_tree_builder.md
R114). -/
theorem execEobres_eq_fault : execEobres s = .fault r ↔ BumpStops s r := by
  simp [execEobres, andThen_eq_fault, bumpDeepest_eq_fault, need_writeLevel_eq_fault,
    need_readLevel_eq_fault]

/-- RD_SYM of End or Err answers; of a byte it stops at its address, then at REM: below
address 256, CUR + 1 fits its 9 bits (40_tree_builder.md R115). -/
theorem execRdSym_eq_fault (tok : Token) :
    execRdSym tok s = .fault r ↔ StopsWith s r (.rdSym tok) := by
  cases tok with
  | byte v =>
    simp only [execRdSym, StopsWith, need_memWrite_eq_fault, need_narrow_eq_fault,
      need_decrement_eq_fault, reduceCtorEq, and_false, or_false]
    rcases Nat.lt_or_ge s.cur.toNat 256 with h | h
    · have hfits : s.cur.toNat + 1 < 2 ^ 9 := by omega
      simp only [h, hfits, Nat.not_le.mpr h, Nat.not_le.mpr hfits, and_false, true_and, false_or]
    · simp [h, Nat.not_lt.mpr h]
  | eod => simp [execRdSym, StopsWith]
  | err => simp [execRdSym, StopsWith]

/-- SYM_NEXT stops where the next level does not exist (40_tree_builder.md R116). -/
theorem execSymNext_eq_fault : execSymNext s = .fault r ↔ StopsWith s r .symNext := by
  simp only [execSymNext, StopsWith, ite_eq_iff, isDeepest_iff, need_writeLevel_eq_fault,
    need_readLevel_eq_fault, reduceCtorEq, and_false, false_or, or_false]
  rcases Nat.lt_or_ge (s.lidx.toNat + 1) 24 with h | h
  · simp [Nat.not_le.mpr h]
  · simp [h, Nat.not_lt.mpr h, and_comm]

/-- EOBACC stops where the deepest count does not grow (40_tree_builder.md R117). -/
theorem execEobacc_eq_fault : execEobacc s = .fault r ↔ BumpStops s r := by
  simp [execEobacc, andThen_eq_fault, bumpDeepest_eq_fault]

/-- DERIVE stops where the level it reads or the level it writes does not exist (40_tree_builder.md
R118). -/
theorem execDerive_eq_fault : execDerive s = .fault r ↔ StopsWith s r .derive := by
  unfold execDerive
  cases hn : internalNodes s s.lidx.toNat with
  | none =>
    have habsent := internalNodes_eq_none.mp hn
    simp [StopsWith, habsent, eq_comm]
  | some n =>
    have hpresent : ¬(s.lidx.toNat + 1 ≠ s.depth.toNat ∧ 24 ≤ s.lidx.toNat + 1) := by
      rw [← internalNodes_eq_none, hn]
      exact Option.some_ne_none n
    simp only [need_some, need_writeLevel_eq_fault, ite_eq_iff, reduceCtorEq, and_false, or_false,
      StopsWith, hpresent]

/-- EMIT stops only where it would count an accepted byte (41_bit_walker.md R143). -/
theorem execEmit_eq_fault : execEmit s = .fault r ↔ StopsWith s r .emit := by
  by_cases hm : s.outCount = 2 ^ s.cfg.countW - 1
  · simp [execEmit, StopsWith, Config.maxCount, hm]
  · cases hr : s.pins.outReady with
    | false => simp [execEmit, StopsWith, Config.maxCount, putAnswer, hm, hr]
    | true =>
      cases he : s.pins.outErr with
      | true => simp [execEmit, StopsWith, Config.maxCount, putAnswer, hm, hr, he]
      | false =>
        rcases Nat.lt_or_gt_of_ne hm with h | h
        · simp [execEmit, StopsWith, Config.maxCount, putAnswer, hm, hr, he, h, Nat.lt_asymm h]
        · simp [execEmit, StopsWith, Config.maxCount, putAnswer, hm, hr, he, h, Nat.lt_asymm h,
            eq_comm]

/-- The leaf branch of BIT stops at its level, or at the address of a stored symbol
(41_bit_walker.md R142). -/
theorem resolveLeaf_eq_fault {s1 : State} {idx : Nat} :
    resolveLeaf s s1 idx = .fault r ↔
      (r = .levelIndex ∧ 24 ≤ s.lvl.toNat) ∨
        (r = .symbolAddress ∧ s.lvl.toNat < 24 ∧ idx < entry s.leaves s.lvl.toNat ∧
          entry s.offs s.lvl.toNat + idx ≠ s.eobix.toNat ∧
          256 ≤ entry s.offs s.lvl.toNat + idx) := by
  simp only [resolveLeaf, need_readLevel_eq_fault, need_memRead_next_eq_fault, ite_eq_iff,
    ofNat_entry_toNat, raise_ne_fault, reduceCtorEq, and_false, false_or, Nat.not_le]
  rcases Nat.lt_or_ge s.lvl.toNat 24 with h | h
  · simp [h, Nat.not_le.mpr h, and_left_comm]
  · simp [h, Nat.not_lt.mpr h]

/-- A number `n + idx` is one at least `n`, and `idx` the difference. -/
theorem exists_index_iff {c n : Nat} {P : Nat → Prop} :
    (∃ idx, c = n + idx ∧ P idx) ↔ n ≤ c ∧ P (c - n) := by
  constructor
  · rintro ⟨idx, rfl, h⟩
    exact ⟨Nat.le_add_right n idx, by rwa [Nat.add_sub_cancel_left]⟩
  · rintro ⟨h, hP⟩
    exact ⟨c - n, (Nat.add_sub_of_le h).symm, hP⟩

/-- BIT stops at BL, at the code, at the level, and in the leaf branch (41_bit_walker.md R142). -/
theorem execBit_eq_fault (b : Bool) : execBit b s = .fault r ↔ StopsWith s r (.bit b) := by
  have hb := b.toNat_le
  simp only [StopsWith, exists_index_iff]
  rcases Nat.eq_zero_or_pos s.bl.toNat with hbl | hbl
  · simp [execBit, decrement_eq_none.mpr hbl, hbl, eq_comm]
  simp only [execBit, decrement_of_pos hbl, need_some, shiftCode]
  rcases Nat.lt_or_ge s.code.toNat 256 with hcode | hcode
  · obtain ⟨code', hc, hv⟩ :=
      narrow_in_bounds (w := 9) (n := 2 * s.code.toNat + b.toNat) (by omega)
    rcases Nat.lt_or_ge s.lvl.toNat 24 with hl | hl
    · obtain ⟨n, hn, hnv⟩ := readLevel_in_bounds (t := s.intn) hl
      simp only [hc, hn, need_some, hv, hnv, resolveLeaf_eq_fault, ite_eq_iff, raise_ne_fault,
        reduceCtorEq, and_false, false_or]
      simp [hbl, Nat.ne_of_gt hbl, hcode, Nat.not_le.mpr hcode, hl, Nat.not_le.mpr hl,
        and_left_comm]
    · simp [hc, readLevel_of_ge hl, hbl, Nat.ne_of_gt hbl, hcode, Nat.not_le.mpr hcode, hl,
        Nat.not_lt.mpr hl, eq_comm]
  · have hwide : 2 ^ 9 ≤ 2 * s.code.toNat + b.toNat := by omega
    simp [narrow_eq_none.mpr hwide, hcode, Nat.not_lt.mpr hcode, eq_comm]

/-! ### Every operation -/

theorem exec_eq_fault (i : Instr) : exec i s = .fault r ↔ StopsWith s r i := by
  cases i with
  | reset => simp [exec, execReset_eq, StopsWith]
  | start => simp [exec, execStart_eq, StopsWith]
  | rdDepth tok =>
    obtain ⟨t, ht⟩ := execRdDepth_answers tok s
    simp [exec, ht, StopsWith]
  | rdCount tok => exact execRdCount_eq_fault tok
  | sumchk =>
    obtain ⟨t, ht⟩ := execSumchk_answers s
    simp [exec, ht, StopsWith]
  | eobres => exact execEobres_eq_fault
  | rdSym tok => exact execRdSym_eq_fault tok
  | symNext => exact execSymNext_eq_fault
  | eobacc => exact execEobacc_eq_fault
  | derive => exact execDerive_eq_fault
  | emit => exact execEmit_eq_fault
  | fetch tok =>
    obtain ⟨t, ht⟩ := execFetch_answers tok s
    simp [exec, ht, StopsWith]
  | bit b => exact execBit_eq_fault b

end

/-- No arm is refused: the parts of an operation answer or fault. -/
theorem exec_ne_refused (i : Instr) (s : State) (q : Refusal) : exec i s ≠ .refused q := by
  cases i with
  | reset => simp [exec, execReset_eq]
  | start => simp [exec, execStart_eq]
  | rdDepth tok =>
    obtain ⟨t, ht⟩ := execRdDepth_answers tok s
    simp [exec, ht]
  | rdCount tok => cases tok <;> simp [exec, execRdCount, need_eq_refused, ite_eq_iff]
  | sumchk =>
    obtain ⟨t, ht⟩ := execSumchk_answers s
    simp [exec, ht]
  | eobres =>
    simp [exec, execEobres, andThen_eq_refused, bumpDeepest_ne_refused, need_eq_refused]
  | rdSym tok => cases tok <;> simp [exec, execRdSym, need_eq_refused]
  | symNext => simp [exec, execSymNext, need_eq_refused, ite_eq_iff]
  | eobacc => simp [exec, execEobacc, andThen_eq_refused, bumpDeepest_ne_refused]
  | derive => simp [exec, execDerive, need_eq_refused, ite_eq_iff]
  | emit =>
    simp only [exec, execEmit]
    split
    · simp
    · split <;> simp [ite_eq_iff]
  | fetch tok =>
    obtain ⟨t, ht⟩ := execFetch_answers tok s
    simp [exec, ht]
  | bit b => simp [exec, execBit, resolveLeaf, need_eq_refused, ite_eq_iff]

/-- Settles O22: each operation's stops, and that it refuses nothing. -/
theorem operationsStopOnlyOutsideTheirTables :
    Obligations.OperationsStopOnlyOutsideTheirTables :=
  fun i s => ⟨fun _ => exec_eq_fault i, exec_ne_refused i s⟩

end Sys2Proof.Machine

/-! PROOFS. The state family: the invariant is kept by every step (10_state.md R37, R38, R42), the frame
of every operation (R22 to R36, R43), and the flags and STATUS (R39, R40). -/

namespace Sys2Proof.Machine

/-! ### A count that grows by one (40_tree_builder.md R114, R117) -/

/-- The sum grows with its entry. -/
theorem entrySum_set_add_one {t : Table} {l n : Nat} {v : Entry} (hl : l < 24) (hn : l < n)
    (hv : v.toNat = entry t l + 1) : entrySum (t.setIfInBounds l v) n = entrySum t n + 1 := by
  have := entrySum_set_of_lt (t := t) v hl hn
  omega

/-- An entry is at most the sum, so a sum with room has room in the deepest count. -/
theorem DepthLegal.not_bumpStops {s : State} {r : Fault} (hd : DepthLegal s)
    (hroom : entrySum s.leaves s.depth.toNat ≤ 510) : ¬BumpStops s r := by
  obtain ⟨h1, h24⟩ := hd
  have hle : entry s.leaves (s.depth.toNat - 1) ≤ entrySum s.leaves s.depth.toNat :=
    entry_le_entrySum (by omega)
  rintro (⟨_, h⟩ | ⟨_, _, _, h⟩) <;> omega

/-- Offsets are sums of the counts before a level, so the deepest count is no part of them. -/
theorem OffsetsBelow.set_leaves {s t : State} {l n : Nat} {v : Entry} (h : OffsetsBelow s n)
    (hn : n ≤ l + 1) (hoffs : t.offs = s.offs) (hleaves : t.leaves = s.leaves.setIfInBounds l v) :
    OffsetsBelow t n := by
  intro k hk
  rw [hoffs, hleaves, entrySum_set_of_le v (by omega)]
  exact h k hk

/-! ### Bounds of the built descriptor (41_bit_walker.md R147) -/

/-- Two nodes of the next level for each internal node: the leaves below level l are at least twice
its internal nodes (10_state.md R42). -/
theorem BuiltFrom.two_mul_intn_le {s : State} {n : Nat} (h : BuiltFrom s n) {l : Nat} (hn : n ≤ l)
    (hl : l < s.depth.toNat) :
    2 * entry s.intn l + entrySum s.leaves (l + 1) ≤ entrySum s.leaves s.depth.toNat := by
  obtain ⟨k, hk⟩ : ∃ k, l + 1 + k = s.depth.toNat := ⟨s.depth.toNat - (l + 1), by omega⟩
  induction k generalizing l with
  | zero =>
    have hi := h.internal l hn hl
    rw [if_pos hk] at hi
    rw [hi, ← hk, Nat.add_zero]
    omega
  | succ k ih =>
    have hi := h.internal l hn hl
    rw [if_neg (by omega)] at hi
    have hbelow := ih (l := l + 1) (by omega) (by omega) (by omega)
    rw [entrySum_succ] at hbelow
    omega

/-- A walk's code is below 128, so that CODE has room for one more bit (41_bit_walker.md R147). -/
theorem Walking.code_lt {s : State} (h : Walking s) : s.code.toNat < 128 := by
  rcases Nat.eq_zero_or_pos s.lvl.toNat with h0 | h0
  · have := h.root h0
    omega
  · have hinner := h.inner h0
    have hlevel := h.level
    have hbound := h.built.two_mul_intn_le (l := s.lvl.toNat - 1) (by omega) (by omega)
    have htotal := h.built.total
    omega

/-- A leaf other than the EOB has the address of a stored symbol (41_bit_walker.md R149). -/
theorem Walking.address_lt_eobix {s : State} (h : Walking s) {idx : Nat}
    (hidx : idx < entry s.leaves s.lvl.toNat)
    (hne : entry s.offs s.lvl.toNat + idx ≠ s.eobix.toNat) :
    entry s.offs s.lvl.toNat + idx < s.eobix.toNat := by
  have hoffs := h.built.offsets _ h.level
  have hsum : entrySum s.leaves (s.lvl.toNat + 1) ≤ _ := entrySum_mono h.level
  rw [entrySum_succ] at hsum
  have heob := h.built.eob
  omega

/-! ### No operation stops where the invariant selects it -/

theorem Counting.not_stopsWith {s : State} {r : Fault} (h : Counting s) (tok : Token) :
    ¬StopsWith s r (.rdCount tok) := by
  cases tok with
  | byte c =>
    have hlidx := h.lidx
    have hdepth := h.depth.2
    have hsum := h.sum ▸ entrySum_le h.counts
    have hbyte := c.isLt
    rintro (⟨_, h24⟩ | ⟨_, _, hwide⟩) <;> omega
  | eod => exact id
  | err => exact id

theorem Counted.not_bumpStops {s : State} {r : Fault} (h : Counted s) (hs : s.sum.toNat ≤ 255) :
    ¬BumpStops s r :=
  h.depth.not_bumpStops (by have := h.sum; omega)

theorem ReadingSymbols.cursor_le {s : State} (h : ReadingSymbols s) :
    s.cur.toNat + s.rem.toNat ≤ 256 := by
  rw [h.cursor]
  exact (entrySum_mono h.lidx).trans h.total

theorem ReadingSymbols.rdSym_not_stopsWith {s : State} {r : Fault} (h : ReadingSymbols s)
    (hrem : 0 < s.rem.toNat) (tok : Token) : ¬StopsWith s r (.rdSym tok) := by
  cases tok with
  | byte v =>
    have hcur := h.cursor_le
    rintro (⟨_, h256⟩ | ⟨_, _, h0⟩) <;> omega
  | eod => exact id
  | err => exact id

theorem ReadingSymbols.symNext_not_stopsWith {s : State} {r : Fault} (h : ReadingSymbols s) :
    ¬StopsWith s r .symNext := by
  have hlidx := h.lidx
  have hdepth := h.depth.2
  rintro ⟨_, hne, h24⟩
  omega

theorem SymbolsRead.not_bumpStops {s : State} {r : Fault} (h : SymbolsRead s) : ¬BumpStops s r :=
  h.depth.not_bumpStops (h.total.trans (by decide))

theorem BuiltFrom.derive_not_stopsWith {s : State} {r : Fault} {n : Nat} (h : BuiltFrom s n)
    (hlidx : s.lidx.toNat < s.depth.toNat) : ¬StopsWith s r .derive := by
  have hdepth := h.depth.2
  rintro ⟨_, h24 | ⟨hne, h24⟩⟩ <;> omega

theorem Inv.emit_not_stopsWith {s : State} {r : Fault} (h : Inv s) : ¬StopsWith s r .emit := by
  have hcount := h.count
  rintro ⟨_, hover, _⟩
  omega

theorem Walking.bit_not_stopsWith {s : State} {r : Fault} (h : Walking s) (hbl : 0 < s.bl.toNat)
    (b : Bool) : ¬StopsWith s r (.bit b) := by
  have hcode := h.code_lt
  have hlevel := h.level
  have hdepth := h.built.depth.2
  rintro (⟨_, h0 | hwide⟩ | ⟨_, _, ⟨_, h24⟩ | ⟨_, _, idx, _, hidx, hne, h256⟩⟩)
  · omega
  · omega
  · omega
  · have haddr := h.address_lt_eobix hidx hne
    have heob := h.built.eob
    have htotal := h.built.total
    omega

/-- In a state of the invariant the selected operation does not stop (00_scope.md R9). -/
theorem Inv.not_stopsWith {s : State} {i : Instr} (h : Inv s) (hi : SelectedIn s i) (r : Fault) :
    ¬StopsWith s r i := by
  cases i with
  | reset => exact id
  | start => exact id
  | rdDepth tok => exact id
  | rdCount tok =>
    obtain ⟨_, hp, _⟩ := hi
    exact Counting.not_stopsWith (h.promise (p := .hdrCounts) hp) tok
  | sumchk => exact id
  | eobres =>
    obtain ⟨_, hp⟩ := hi
    obtain ⟨hcounted, hs⟩ := h.promise (p := .eobReserve) hp
    exact hcounted.not_bumpStops hs
  | rdSym tok =>
    obtain ⟨_, hp, hrem, _⟩ := hi
    exact ReadingSymbols.rdSym_not_stopsWith (h.promise (p := .symtab) hp) hrem tok
  | symNext =>
    obtain ⟨_, hp, _⟩ := hi
    exact ReadingSymbols.symNext_not_stopsWith (h.promise (p := .symtab) hp)
  | eobacc =>
    obtain ⟨_, hp⟩ := hi
    exact SymbolsRead.not_bumpStops (h.promise (p := .eobAccount) hp)
  | derive =>
    obtain ⟨_, hp⟩ := hi
    obtain ⟨hbuilt, hlidx⟩ := h.promise (p := .build) hp
    exact hbuilt.derive_not_stopsWith hlidx
  | emit => exact h.emit_not_stopsWith
  | fetch tok => exact id
  | bit b =>
    obtain ⟨_, hp, _, hbl, _⟩ := hi
    exact Walking.bit_not_stopsWith (h.promise (p := .decode) hp) hbl b

/-- An operation that does not stop answers: none is refused. -/
theorem exec_answers {i : Instr} {s : State} (h : ∀ r, ¬StopsWith s r i) :
    ∃ t, exec i s = .next t := by
  cases ht : exec i s with
  | next t => exact ⟨t, rfl⟩
  | fault r => exact absurd (exec_eq_fault i |>.mp ht) (h r)
  | refused q => exact absurd ht (exec_ne_refused i s q)

/-! ### Each operation keeps the invariant -/

/-- RESET and START begin again, with the parameter and the symbol memory as they were
(42_descriptor_lifecycle.md R170, R171). -/
theorem Inv.clearRegisters {s : State} (h : Inv s) {p : Phase} (hp : p = .idle ∨ p = .hdrDepth) :
    Inv { clearRegisters s with phase := p.bits } where
  width := h.width
  count := Nat.two_pow_pos _
  mem := h.mem
  err := Nat.zero_le 9
  failed := by rcases hp with rfl | rfl <;> simp [Phase.bits]
  phase := (phaseInv_iff rfl).mpr (by rcases hp with rfl | rfl <;> trivial)

section
variable {s t : State}

theorem Inv.execRdDepth_next {tok : Token} (h : Inv s) (hp : s.phase = Phase.hdrDepth.bits)
    (ht : execRdDepth tok s = .next t) : Inv t := by
  rcases execRdDepth_cases tok s with ⟨b, _, h1, h24, he⟩ | ⟨_, _, _, he⟩ | ⟨_, he⟩ | ⟨_, he⟩ <;>
    cases he.symm.trans ht
  · have hdepth := depth_toNat h24
    exact h.goesOn .hdrCounts (h.err_zero hp (by decide)) rfl (by decide) rfl rfl h.mem rfl
      { depth := ⟨by simpa [hdepth] using h1, by simpa [hdepth] using h24⟩
        lidx := hdepth ▸ h1
        sum := rfl
        counts := fun l hl => absurd hl (Nat.not_lt_zero l) }
  · exact h.consume.failedWith (by decide) (by decide)
  · exact h.consume.failedWith (by decide) (by decide)
  · exact h.consume.failedWith (by decide) (by decide)

theorem Inv.execRdCount_next {tok : Token} (h : Inv s) (hp : s.phase = Phase.hdrCounts.bits)
    (ht : execRdCount tok s = .next t) : Inv t := by
  have herr := h.err_zero hp (by decide)
  obtain ⟨hdepth, hlidx, hsum, hcounts⟩ := h.promise (p := .hdrCounts) hp
  rcases execRdCount_cases ht with
    ⟨c, sum', _, h24, hsum', ⟨hlast, rfl⟩ | ⟨hlast, rfl⟩⟩ | ⟨_, rfl⟩ | ⟨_, rfl⟩
  · refine h.goesOn .sumCheck herr rfl (by decide) rfl rfl h.mem rfl ⟨hdepth, ?_⟩
    simp [← hlast, entrySum_succ, entrySum_set_of_le, h24, hsum', hsum]
  · have hnext := toNat_add_one (r := s.lidx) (by omega)
    have hd24 := hdepth.2
    refine h.goesOn .hdrCounts herr hp (by decide) rfl rfl h.mem rfl ⟨hdepth, ?_, ?_, ?_⟩
    · show (s.lidx + 1#5).toNat < s.depth.toNat
      omega
    · simp [hnext, entrySum_succ, entrySum_set_of_le, h24, hsum', hsum]
    · intro l hl
      have hc := c.isLt
      rcases Nat.lt_succ_iff_lt_or_eq.mp (hnext ▸ hl) with hl | rfl
      · simpa [entry_set_other _ (Nat.ne_of_gt hl)] using hcounts l hl
      · simp [h24]
        omega
  · exact h.consume.failedWith (by decide) (by decide)
  · exact h.consume.failedWith (by decide) (by decide)

theorem Inv.execSumchk_next (h : Inv s) (hp : s.phase = Phase.sumCheck.bits)
    (ht : execSumchk s = .next t) : Inv t := by
  obtain ⟨hdepth, hsum⟩ := h.promise (p := .sumCheck) hp
  rcases execSumchk_cases s with ⟨hle, he⟩ | ⟨_, he⟩ <;> cases he.symm.trans ht
  · exact h.goesOn .eobReserve (h.err_zero hp (by decide)) rfl (by decide) rfl rfl h.mem rfl
      ⟨⟨hdepth, hsum⟩, hle⟩
  · exact h.failedWith (by decide) (by decide)

theorem Inv.execEobres_next (h : Inv s) (hp : s.phase = Phase.eobReserve.bits)
    (ht : execEobres s = .next t) : Inv t := by
  obtain ⟨⟨hdepth, hsum⟩, hle⟩ := h.promise (p := .eobReserve) hp
  obtain ⟨l, n, n', r, hl, hn, hn', h24, hr, rfl⟩ := execEobres_cases ht
  rw [← entry_of_readLevel hn] at hn'
  have hlast : s.depth.toNat - 1 = l := by omega
  have hsum' := entrySum_set_add_one h24 (n := s.depth.toNat) (by omega) hn'
  refine h.goesOn .symtab (h.err_zero hp (by decide)) rfl (by decide) rfl rfl h.mem rfl
    { depth := hdepth, lidx := hdepth.1, reserved := ?_, total := ?_, cursor := ?_
      offsets := ?_, stored := fun a ha => absurd ha (Nat.not_lt_zero a) }
  · simp [hlast, h24, hn']
  · show entrySum (s.leaves.setIfInBounds l n') s.depth.toNat ≤ 256
    omega
  · simp [entrySum_succ, entry_of_readLevel hr]
  · intro k hk
    obtain rfl : k = 0 := Nat.lt_one_iff.mp hk
    simp

theorem Inv.execRdSym_next {tok : Token} (h : Inv s) (hp : s.phase = Phase.symtab.bits)
    (ht : execRdSym tok s = .next t) : Inv t := by
  obtain ⟨hdepth, hlidx, hreserved, htotal, hcursor, hoffsets, hstored⟩ :=
    h.promise (p := .symtab) hp
  rcases execRdSym_cases ht with ⟨v, cur', rem', _, h256, hcur, hrem, rfl⟩ | ⟨_, rfl⟩ | ⟨_, rfl⟩
  · exact h.goesOn .symtab (h.err_zero hp (by decide)) hp (by decide) rfl rfl
      (store_wf v h.mem h256) rfl
      { depth := hdepth, lidx := hlidx, reserved := hreserved, total := htotal
        cursor := by
          show cur'.toNat + rem'.toNat = entrySum s.leaves (s.lidx.toNat + 1)
          omega
        offsets := hoffsets
        stored := hcur ▸ hstored.store v }
  · exact h.consume.failedWith (by decide) (by decide)
  · exact h.consume.failedWith (by decide) (by decide)

theorem Inv.execSymNext_next (h : Inv s) (hp : s.phase = Phase.symtab.bits)
    (hrem : s.rem.toNat = 0) (ht : execSymNext s = .next t) : Inv t := by
  have herr := h.err_zero hp (by decide)
  obtain ⟨hdepth, hlidx, hreserved, htotal, hcursor, hoffsets, hstored⟩ :=
    h.promise (p := .symtab) hp
  rw [hrem, Nat.add_zero] at hcursor
  rcases execSymNext_cases ht with ⟨hlast, rfl⟩ | ⟨hlast, h24, n, hn, rfl⟩
  · rw [hlast] at hcursor hoffsets
    exact h.goesOn .eobAccount herr rfl (by decide) rfl rfl h.mem rfl
      ⟨hdepth, hreserved, htotal, hcursor, hoffsets, hstored⟩
  · have hnext := toNat_add_one (r := s.lidx) (by omega)
    refine h.goesOn .symtab herr hp (by decide) rfl rfl h.mem rfl
      { depth := hdepth, lidx := ?_, reserved := hreserved, total := htotal, cursor := ?_
        offsets := ?_, stored := hstored }
    · show (s.lidx + 1#5).toNat < s.depth.toNat
      omega
    · simp [hnext, entrySum_succ _ (s.lidx.toNat + 1), hcursor, entry_of_readLevel hn]
    · intro k hk
      rcases Nat.lt_succ_iff_lt_or_eq.mp (hnext ▸ hk) with hk | rfl
      · simpa [entry_set_other _ (Nat.ne_of_gt hk)] using hoffsets k hk
      · simp [h24, hcursor]

theorem Inv.execEobacc_next (h : Inv s) (hp : s.phase = Phase.eobAccount.bits)
    (ht : execEobacc s = .next t) : Inv t := by
  obtain ⟨hdepth, hreserved, htotal, hcursor, hoffsets, hstored⟩ :=
    h.promise (p := .eobAccount) hp
  obtain ⟨l, n, n', hl, hn, hn', h24, rfl⟩ := execEobacc_cases ht
  rw [← entry_of_readLevel hn] at hn'
  have hlast : s.depth.toNat - 1 = l := by omega
  have hlidx := toNat_sub_one (r := s.depth) hdepth.1
  have hsum := entrySum_set_add_one h24 (n := s.depth.toNat) (by omega) hn'
  rw [hlast] at hreserved hlidx
  refine h.goesOn .build (h.err_zero hp (by decide)) rfl (by decide) rfl rfl h.mem rfl
    ⟨{ depth := hdepth, deepest := ?_, total := ?_, eob := ?_, offsets := ?_, internal := ?_
       stored := hstored }, ?_⟩
  · simp [hlast, h24, hn', hreserved]
  · show entrySum (s.leaves.setIfInBounds l n') s.depth.toNat ≤ 257
    omega
  · show s.cur.toNat + 1 = entrySum (s.leaves.setIfInBounds l n') s.depth.toNat
    omega
  · exact hoffsets.set_leaves (Nat.le_of_eq hl.symm) rfl rfl
  · intro k hk hkd
    have hkd : k < s.depth.toNat := hkd
    simp only [hlidx] at hk
    omega
  · show (s.depth - 1#5).toNat < s.depth.toNat
    omega

/-- DERIVE adds a level to those whose internal counts are known (40_tree_builder.md R118). -/
theorem InternalFrom.set_intn {l : Nat} {n : Entry} (h : InternalFrom s (l + 1)) (h24 : l < 24)
    (hn : internalNodes s l = some n) (hdepth : t.depth = s.depth) (hleaves : t.leaves = s.leaves)
    (hintn : t.intn = s.intn.setIfInBounds l n) : InternalFrom t l := by
  intro k hk hkd
  rw [hdepth] at hkd
  rw [hdepth, hleaves, hintn, entry_set_other n (j := k + 1) (by omega)]
  rcases Nat.eq_or_lt_of_le hk with rfl | hk
  · rw [entry_set_same n h24]
    rcases internalNodes_eq_some.mp hn with ⟨hlast, rfl⟩ | ⟨hlast, m, k, hm, hk, rfl⟩
    · simp [hlast]
    · have hm9 := m.isLt
      have hk9 := k.isLt
      rw [if_neg hlast, entry_of_readLevel hm, entry_of_readLevel hk, BitVec.toNat_ofNat]
      omega
  · rw [entry_set_other n (Nat.ne_of_lt hk)]
    exact h k hk hkd

theorem Inv.execDerive_next (h : Inv s) (hp : s.phase = Phase.build.bits)
    (ht : execDerive s = .next t) : Inv t := by
  have herr := h.err_zero hp (by decide)
  obtain ⟨⟨hdepth, hdeepest, htotal, heob, hoffsets, hinternal, hstored⟩, hlidx⟩ :=
    h.promise (p := .build) hp
  obtain ⟨n, hn, h24, ⟨h0, rfl⟩ | ⟨h0, rfl⟩⟩ := execDerive_cases ht
  · rw [h0] at hinternal h24 hn
    exact h.goesOn .decode herr rfl (by decide) rfl rfl h.mem rfl
      { built := ⟨hdepth, hdeepest, htotal, heob, hoffsets, hinternal.set_intn h24 hn rfl rfl
          (congrArg (s.intn.setIfInBounds · n) h0), hstored⟩
        level := hdepth.1
        root := fun _ => rfl
        inner := fun hpos => absurd hpos (Nat.lt_irrefl 0)
        bits := Nat.zero_le 8 }
  · have hprev := toNat_sub_one (r := s.lidx) (by omega)
    have hlevel : (s.lidx - 1#5).toNat + 1 = s.lidx.toNat := by omega
    refine h.goesOn .build herr hp (by decide) rfl rfl h.mem rfl
      ⟨⟨hdepth, hdeepest, htotal, heob, hoffsets, ?_, hstored⟩, ?_⟩
    · rw [hlevel]
      exact hinternal.set_intn h24 hn rfl rfl rfl
    · show (s.lidx - 1#5).toNat < s.depth.toNat
      omega

/-- The descriptor is a matter of DEPTH, the tables, EOBIX and the symbol memory. -/
theorem Built.of_eq (h : Built s) (hdepth : t.depth = s.depth) (hleaves : t.leaves = s.leaves)
    (hintn : t.intn = s.intn) (hoffs : t.offs = s.offs) (heobix : t.eobix = s.eobix)
    (hmem : t.mem = s.mem) : Built t := by
  obtain ⟨h1, h2, h3, h4, h5, h6, h7⟩ := h
  constructor <;>
    simpa only [DepthLegal, OffsetsBelow, InternalFrom, hdepth, hleaves, hintn, hoffs, heobix, hmem]

theorem Inv.execEmit_next (h : Inv s) (hp : s.phase = Phase.decode.bits)
    (ht : execEmit s = .next t) : Inv t := by
  obtain ⟨hbuilt, hlevel, hroot, hinner, hbits⟩ := h.promise (p := .decode) hp
  rcases execEmit_cases ht with
    ⟨_, rfl⟩ | ⟨_, _, rfl⟩ | ⟨_, _, _, rfl⟩ | ⟨hlt, _, _, rfl⟩
  · exact h.failedWith (by decide) (by decide)
  · exact h
  · exact h.failedWith (by decide) (by decide)
  · exact
      { width := h.width
        count := by
          have := Nat.two_pow_pos s.cfg.countW
          simp only [Config.maxCount] at hlt
          show s.outCount + 1 < 2 ^ s.cfg.countW
          omega
        mem := h.mem, err := h.err, failed := h.failed
        phase := (phaseInv_iff (p := .decode) (by exact hp)).mpr
          ⟨hbuilt.of_eq rfl rfl rfl rfl rfl rfl, hlevel, hroot, hinner, hbits⟩ }

theorem Inv.execFetch_next {tok : Token} (h : Inv s) (hp : s.phase = Phase.decode.bits)
    (ht : execFetch tok s = .next t) : Inv t := by
  obtain ⟨hbuilt, hlevel, hroot, hinner, _⟩ := h.promise (p := .decode) hp
  rcases execFetch_cases tok s with ⟨b, _, he⟩ | ⟨_, he⟩ | ⟨_, he⟩ <;> cases he.symm.trans ht
  · exact h.goesOn .decode (h.err_zero hp (by decide)) hp (by decide) rfl rfl h.mem rfl
      ⟨hbuilt.of_eq rfl rfl rfl rfl rfl rfl, hlevel, hroot, hinner, Nat.le_refl 8⟩
  · exact h.consume.failedWith (by decide) (by decide)
  · exact h.consume.failedWith (by decide) (by decide)

theorem Inv.execBit_next {b : Bool} (h : Inv s) (hp : s.phase = Phase.decode.bits)
    (hopend : s.opend = false) (ht : execBit b s = .next t) : Inv t := by
  have herr := h.err_zero hp (by decide)
  obtain ⟨hbuilt, hlevel, _, _, hbits⟩ := h.promise (p := .decode) hp
  have hdepth := hbuilt.depth
  obtain ⟨bl', code', n, hbl, hcode, hn, ⟨_, _, rfl⟩ | ⟨hlt, hdeep, rfl⟩ | ⟨_, hleaf⟩⟩ :=
    execBit_cases ht
  · exact h.failedWith (by decide) (by decide)
  · have hnext := toNat_add_one (r := s.lvl) (by have := hdepth.2; omega)
    refine h.goesOn .decode herr hp (by decide) rfl rfl h.mem rfl
      { built := hbuilt.of_eq rfl rfl rfl rfl rfl rfl, level := ?_, root := ?_, inner := ?_
        bits := ?_ }
    · show (s.lvl + 1#5).toNat < s.depth.toNat
      omega
    · intro h0
      simp only [hnext] at h0
      omega
    · intro _
      simpa only [hnext, Nat.add_sub_cancel, entry_of_readLevel hn, shifted] using hlt
    · show bl'.toNat ≤ 8
      omega
  · obtain ⟨k, _, ⟨_, rfl⟩ | ⟨_, o, _, ⟨_, rfl⟩ | ⟨_, v, _, rfl⟩⟩⟩ := resolveLeaf_cases hleaf
    · exact h.failedWith (by decide) (by decide)
    · exact h.goesOn .done herr rfl (by decide) rfl rfl h.mem rfl hopend
    · exact h.goesOn .decode herr hp (by decide) rfl rfl h.mem rfl
        { built := hbuilt.of_eq rfl rfl rfl rfl rfl rfl
          level := hdepth.1
          root := fun _ => rfl
          inner := fun hpos => absurd hpos (Nat.lt_irrefl 0)
          bits := by
            show bl'.toNat ≤ 8
            omega }

/-- The operation selected in a state of the invariant keeps it. -/
theorem Inv.exec_next {i : Instr} (h : Inv s) (hi : SelectedIn s i) (ht : exec i s = .next t) :
    Inv t := by
  cases i with
  | reset =>
    cases ht
    exact h.clearRegisters (p := .idle) (.inl rfl)
  | start =>
    cases ht
    exact h.clearRegisters (.inr rfl)
  | rdDepth tok =>
    obtain ⟨_, hp, _⟩ := hi
    exact h.execRdDepth_next hp ht
  | rdCount tok =>
    obtain ⟨_, hp, _⟩ := hi
    exact h.execRdCount_next hp ht
  | sumchk =>
    obtain ⟨_, hp⟩ := hi
    exact h.execSumchk_next hp ht
  | eobres =>
    obtain ⟨_, hp⟩ := hi
    exact h.execEobres_next hp ht
  | rdSym tok =>
    obtain ⟨_, hp, _⟩ := hi
    exact h.execRdSym_next hp ht
  | symNext =>
    obtain ⟨_, hp, hrem⟩ := hi
    exact h.execSymNext_next hp hrem ht
  | eobacc =>
    obtain ⟨_, hp⟩ := hi
    exact h.execEobacc_next hp ht
  | derive =>
    obtain ⟨_, hp⟩ := hi
    exact h.execDerive_next hp ht
  | emit =>
    obtain ⟨_, hp, _⟩ := hi
    exact h.execEmit_next hp ht
  | fetch tok =>
    obtain ⟨_, hp, _⟩ := hi
    exact h.execFetch_next hp ht
  | bit b =>
    obtain ⟨_, hp, hopend, _⟩ := hi
    exact h.execBit_next hp hopend ht

end

/-! ### Every step -/

theorem decodeToken_ne_reservedPhase (w : OpWord) (op : Token → Instr) :
    decodeToken w op ≠ .reservedPhase := by
  unfold decodeToken
  cases w.tok <;> simp

theorem decode_ne_reservedPhase {w : OpWord} {p : Phase} (h : Phase.ofBits w.phase = some p) :
    decode w ≠ .reservedPhase := by
  unfold decode
  rw [h]
  cases p <;> simp [ite_eq_iff, decodeToken_ne_reservedPhase]

/-- No state of the invariant is refused (42_descriptor_lifecycle.md R175, 60_exceptions.md R190). -/
theorem Inv.select_ne_refuse {s : State} (h : Inv s) (r : Refusal) : select s ≠ .refuse r := by
  have herr : errorReserved s = false := by
    simp [errorReserved, Nat.not_le.mpr (Nat.lt_succ_of_le h.err)]
  have hphase : decode (opWord s) ≠ .reservedPhase := by
    have hp := h.phase
    unfold PhaseInv at hp
    cases hq : Phase.ofBits s.phase with
    | none => simp [hq] at hp
    | some p => exact decode_ne_reservedPhase hq
  unfold select
  rw [herr]
  cases hd : decode (opWord s) with
  | instr i => simp
  | quiescent => simp
  | waiting => simp
  | reservedPhase => exact absurd hd hphase

/-- Settles O44: the selected operation does not stop and keeps the invariant, a step that runs none
changes the inputs only, and no state of the invariant is refused. -/
theorem everyStepKeepsTheInvariant : Obligations.EveryStepKeepsTheInvariant := by
  intro s h
  cases hsel : select s with
  | run i =>
    have hi := selectedIn_of_select hsel
    obtain ⟨t, ht⟩ := exec_answers (h.not_stopsWith hi)
    exact ⟨tick t, by rw [step_of_select hsel, ht, endStep_next], (h.exec_next hi ht).tick⟩
  | rest => exact ⟨tick s, by simp only [step, hsel, endStep_next], h.tick⟩
  | refuse r => exact absurd hsel (h.select_ne_refuse r)

end Sys2Proof.Machine

namespace Sys2Proof.Machine

/-! ### The frame of every operation (10_state.md R22 to R36, 20_memory.md R60) -/

section
variable {s t : State}

theorem execRdDepth_writesOnly {tok : Token} (h : execRdDepth tok s = .next t) :
    WritesOnly s t (.rdDepth tok) := by
  rcases execRdDepth_cases tok s with ⟨_, _, _, _, he⟩ | ⟨_, _, _, he⟩ | ⟨_, he⟩ | ⟨_, he⟩ <;>
    cases he.symm.trans h <;> exact rfl

theorem execRdCount_writesOnly {tok : Token} (h : execRdCount tok s = .next t) :
    WritesOnly s t (.rdCount tok) := by
  rcases execRdCount_cases h with
    ⟨_, _, _, _, _, ⟨_, rfl⟩ | ⟨_, rfl⟩⟩ | ⟨_, rfl⟩ | ⟨_, rfl⟩
  · exact ⟨fun _ hl => entry_set_other _ hl.symm, rfl⟩
  · exact ⟨fun _ hl => entry_set_other _ hl.symm, rfl⟩
  · exact ⟨fun _ _ => rfl, rfl⟩
  · exact ⟨fun _ _ => rfl, rfl⟩

theorem execSumchk_writesOnly (h : execSumchk s = .next t) : WritesOnly s t .sumchk := by
  rcases execSumchk_cases s with ⟨_, he⟩ | ⟨_, he⟩ <;> cases he.symm.trans h <;> exact rfl

theorem execEobres_writesOnly (h : execEobres s = .next t) : WritesOnly s t .eobres := by
  obtain ⟨l, _, _, _, hl, _, _, _, _, rfl⟩ := execEobres_cases h
  exact ⟨fun k hk => entry_set_other _ (by omega), fun k hk => entry_set_other _ hk.symm, rfl⟩

theorem execRdSym_writesOnly {tok : Token} (h : execRdSym tok s = .next t) :
    WritesOnly s t (.rdSym tok) := by
  rcases execRdSym_cases h with ⟨v, _, _, _, _, _, _, rfl⟩ | ⟨_, rfl⟩ | ⟨_, rfl⟩
  · exact ⟨fun _ ha => memRead_store_other v ha, rfl⟩
  · exact ⟨fun _ _ => rfl, rfl⟩
  · exact ⟨fun _ _ => rfl, rfl⟩

theorem execSymNext_writesOnly (h : execSymNext s = .next t) : WritesOnly s t .symNext := by
  rcases execSymNext_cases h with ⟨_, rfl⟩ | ⟨_, _, _, _, rfl⟩
  · exact ⟨fun _ _ => rfl, rfl⟩
  · exact ⟨fun _ hl => entry_set_other _ hl.symm, rfl⟩

theorem execEobacc_writesOnly (h : execEobacc s = .next t) : WritesOnly s t .eobacc := by
  obtain ⟨l, _, _, hl, _, _, _, rfl⟩ := execEobacc_cases h
  exact ⟨fun k hk => entry_set_other _ (by omega), rfl⟩

theorem execDerive_writesOnly (h : execDerive s = .next t) : WritesOnly s t .derive := by
  obtain ⟨_, _, _, ⟨_, rfl⟩ | ⟨_, rfl⟩⟩ := execDerive_cases h <;>
    exact ⟨fun _ hl => entry_set_other _ hl.symm, rfl⟩

theorem execEmit_writesOnly (h : execEmit s = .next t) : WritesOnly s t .emit := by
  rcases execEmit_cases h with ⟨_, rfl⟩ | ⟨_, _, rfl⟩ | ⟨_, _, _, rfl⟩ | ⟨_, _, _, rfl⟩ <;>
    exact rfl

theorem execFetch_writesOnly {tok : Token} (h : execFetch tok s = .next t) :
    WritesOnly s t (.fetch tok) := by
  rcases execFetch_cases tok s with ⟨_, _, he⟩ | ⟨_, he⟩ | ⟨_, he⟩ <;>
    cases he.symm.trans h <;> exact rfl

theorem execBit_writesOnly {b : Bool} (h : execBit b s = .next t) : WritesOnly s t (.bit b) := by
  obtain ⟨_, _, _, _, _, _, ⟨_, _, rfl⟩ | ⟨_, _, rfl⟩ | ⟨_, hleaf⟩⟩ := execBit_cases h
  · exact rfl
  · exact rfl
  · obtain ⟨_, _, ⟨_, rfl⟩ | ⟨_, _, _, ⟨_, rfl⟩ | ⟨_, _, _, rfl⟩⟩⟩ := resolveLeaf_cases hleaf <;>
      exact rfl

theorem exec_writesOnly {i : Instr} (h : exec i s = .next t) : WritesOnly s t i := by
  cases i with
  | reset =>
    cases h
    exact ⟨rfl, rfl, rfl, rfl, rfl⟩
  | start =>
    cases h
    exact ⟨rfl, rfl, rfl, rfl, rfl⟩
  | rdDepth tok => exact execRdDepth_writesOnly h
  | rdCount tok => exact execRdCount_writesOnly h
  | sumchk => exact execSumchk_writesOnly h
  | eobres => exact execEobres_writesOnly h
  | rdSym tok => exact execRdSym_writesOnly h
  | symNext => exact execSymNext_writesOnly h
  | eobacc => exact execEobacc_writesOnly h
  | derive => exact execDerive_writesOnly h
  | emit => exact execEmit_writesOnly h
  | fetch tok => exact execFetch_writesOnly h
  | bit b => exact execBit_writesOnly h

end

/-- Settles O23: the frame lemma of each operation. -/
theorem operationsWriteOnlyTheirRegisters : Obligations.OperationsWriteOnlyTheirRegisters :=
  fun _ _ _ => exec_writesOnly

/-! ### ERR (10_state.md R38, 60_exceptions.md R193, R195) -/

/-- The state a raise of `i` begins from: its token is taken, nothing else is written
(60_exceptions.md R195). -/
def tokenTaken (i : Instr) (s : State) : State := if i.takesToken then consume s else s

/-- What an operation can do to ERR: raise one of its errors from the state its step began in, clear
ERR as START and RESET do, or leave it and not enter FAILED. -/
inductive ErrEffect (i : Instr) (s t : State) : Prop
  | raised (c : BitVec 4) (hc : c ∈ raisable i) (ht : t = failedWith c (tokenTaken i s))
  | cleared (hi : i = .start ∨ i = .reset) (herr : t.err = 0#4) (hp : t.phase ≠ Phase.failed.bits)
  | kept (herr : t.err = s.err) (hp : t.phase = Phase.failed.bits → s.phase = Phase.failed.bits)

section
variable {s t : State}

theorem exec_errEffect {i : Instr} (h : exec i s = .next t) : ErrEffect i s t := by
  cases i with
  | reset =>
    cases h
    exact .cleared (.inr rfl) rfl (by simp [clearRegisters, State.reset, Phase.bits])
  | start =>
    cases h
    exact .cleared (.inl rfl) rfl (by simp [Phase.bits])
  | rdDepth tok =>
    rcases execRdDepth_cases tok s with ⟨_, _, _, _, he⟩ | ⟨_, _, _, he⟩ | ⟨_, he⟩ | ⟨_, he⟩ <;>
      cases he.symm.trans h
    · exact .kept rfl (by simp [Phase.bits])
    · exact .raised 1#4 (by simp [raisable]) rfl
    · exact .raised 4#4 (by simp [raisable]) rfl
    · exact .raised 7#4 (by simp [raisable]) rfl
  | rdCount tok =>
    rcases execRdCount_cases h with
      ⟨_, _, _, _, _, ⟨_, rfl⟩ | ⟨_, rfl⟩⟩ | ⟨_, rfl⟩ | ⟨_, rfl⟩
    · exact .kept rfl (by simp [Phase.bits])
    · exact .kept rfl id
    · exact .raised 4#4 (by simp [raisable]) rfl
    · exact .raised 7#4 (by simp [raisable]) rfl
  | sumchk =>
    rcases execSumchk_cases s with ⟨_, he⟩ | ⟨_, he⟩ <;> cases he.symm.trans h
    · exact .kept rfl (by simp [Phase.bits])
    · exact .raised 2#4 (by simp [raisable]) rfl
  | eobres =>
    obtain ⟨_, _, _, _, _, _, _, _, _, rfl⟩ := execEobres_cases h
    exact .kept rfl (by simp [Phase.bits])
  | rdSym tok =>
    rcases execRdSym_cases h with ⟨_, _, _, _, _, _, _, rfl⟩ | ⟨_, rfl⟩ | ⟨_, rfl⟩
    · exact .kept rfl id
    · exact .raised 3#4 (by simp [raisable]) rfl
    · exact .raised 7#4 (by simp [raisable]) rfl
  | symNext =>
    rcases execSymNext_cases h with ⟨_, rfl⟩ | ⟨_, _, _, _, rfl⟩
    · exact .kept rfl (by simp [Phase.bits])
    · exact .kept rfl id
  | eobacc =>
    obtain ⟨_, _, _, _, _, _, _, rfl⟩ := execEobacc_cases h
    exact .kept rfl (by simp [Phase.bits])
  | derive =>
    obtain ⟨_, _, _, ⟨_, rfl⟩ | ⟨_, rfl⟩⟩ := execDerive_cases h
    · exact .kept rfl (by simp [Phase.bits])
    · exact .kept rfl id
  | emit =>
    rcases execEmit_cases h with ⟨_, rfl⟩ | ⟨_, _, rfl⟩ | ⟨_, _, _, rfl⟩ | ⟨_, _, _, rfl⟩
    · exact .raised 9#4 (by simp [raisable]) rfl
    · exact .kept rfl id
    · exact .raised 8#4 (by simp [raisable]) rfl
    · exact .kept rfl id
  | fetch tok =>
    rcases execFetch_cases tok s with ⟨_, _, he⟩ | ⟨_, he⟩ | ⟨_, he⟩ <;> cases he.symm.trans h
    · exact .kept rfl id
    · exact .raised 6#4 (by simp [raisable]) rfl
    · exact .raised 7#4 (by simp [raisable]) rfl
  | bit b =>
    obtain ⟨_, _, _, _, _, _, ⟨_, _, rfl⟩ | ⟨_, _, rfl⟩ | ⟨_, hleaf⟩⟩ := execBit_cases h
    · exact .raised 5#4 (by simp [raisable]) rfl
    · exact .kept rfl id
    · obtain ⟨_, _, ⟨_, rfl⟩ | ⟨_, _, _, ⟨_, rfl⟩ | ⟨_, _, _, rfl⟩⟩⟩ := resolveLeaf_cases hleaf
      · exact .raised 5#4 (by simp [raisable]) rfl
      · exact .kept rfl (by simp [Phase.bits])
      · exact .kept rfl id

end

/-- The raised codes are the nine of 60_exceptions.md R190. -/
theorem raisable_bounds {i : Instr} {c : BitVec 4} (h : c ∈ raisable i) :
    1 ≤ c.toNat ∧ c.toNat ≤ 9 := by
  cases i <;> simp only [raisable, List.mem_cons, List.not_mem_nil, or_false] at h <;>
    rcases h with rfl | rfl | rfl <;> decide

/-- An operation selected in FAILED is RESET or START (60_exceptions.md R197). -/
theorem SelectedIn.of_failed {s : State} {i : Instr} (hi : SelectedIn s i)
    (hp : s.phase = Phase.failed.bits) : i = .start ∨ i = .reset := by
  cases i <;> simp_all [SelectedIn, Phase.bits]

/-- Settles O26: an operation that changes ERR raises or clears it, and a state of the invariant with a
nonzero ERR stands in FAILED. -/
theorem errIsWrittenByRaiseStartAndReset : Obligations.ErrIsWrittenByRaiseStartAndReset := by
  refine ⟨fun i s t h hne => ?_, fun s t hinv herr h hne => ?_⟩
  · rcases exec_errEffect h with ⟨c, hc, rfl⟩ | ⟨hi, herr, _⟩ | ⟨herr, _⟩
    · exact .inl ⟨rfl, raisable_bounds hc⟩
    · exact .inr ⟨herr, hi⟩
    · exact absurd herr hne
  · rcases step_cases h with ⟨i, t', hsel, _, _⟩ | ⟨_, rfl⟩
    · have hi := (selectedIn_of_select hsel).of_failed (hinv.failed.mpr herr)
      rw [hsel]
      exact hi.imp (congrArg _) (congrArg _)
    · exact absurd rfl hne

/-! ### What is read-only while decoding (10_state.md R43) -/

/-- The bit walker's operations (41_bit_walker.md). -/
def IsWalker (i : Instr) : Prop := i = .emit ∨ (∃ tok, i = .fetch tok) ∨ ∃ b, i = .bit b

/-- In DECODE, DONE and FAILED no operation of the builder is selected. -/
theorem SelectedIn.of_decoding {s : State} {i : Instr} (hi : SelectedIn s i)
    (hp : s.phase = 8#4 ∨ s.phase = 9#4 ∨ s.phase = 10#4) :
    (i = .reset ∨ i = .start) ∨ IsWalker i := by
  cases i <;> simp_all [SelectedIn, IsWalker, Phase.bits]

/-- The walker writes neither the descriptor nor the symbol memory. -/
theorem exec_walker_keeps_descriptor {s t : State} {i : Instr} (hi : IsWalker i)
    (h : exec i s = .next t) :
    t.mem = s.mem ∧ t.depth = s.depth ∧ t.leaves = s.leaves ∧ t.intn = s.intn ∧
      t.offs = s.offs ∧ t.eobix = s.eobix := by
  rcases hi with rfl | ⟨tok, rfl⟩ | ⟨b, rfl⟩ <;>
  · have hframe : t = _ := exec_writesOnly h
    rw [hframe]
    exact ⟨rfl, rfl, rfl, rfl, rfl, rfl⟩

/-- Settles O27: RESET and START keep the symbol memory, the walker's operations the descriptor too, and
no other operation is selected. -/
theorem descriptorIsReadOnlyWhileDecoding : Obligations.DescriptorIsReadOnlyWhileDecoding := by
  intro s t hp h
  rcases step_cases h with ⟨i, t', hsel, he, rfl⟩ | ⟨_, rfl⟩
  · rcases (selectedIn_of_select hsel).of_decoding hp with (rfl | rfl) | hi
    · obtain ⟨_, hmem, _⟩ := exec_writesOnly he
      exact ⟨hmem, fun hreset _ => absurd hsel hreset⟩
    · obtain ⟨_, hmem, _⟩ := exec_writesOnly he
      exact ⟨hmem, fun _ hstart => absurd hsel hstart⟩
    · obtain ⟨hmem, hrest⟩ := exec_walker_keeps_descriptor hi he
      exact ⟨hmem, fun _ _ => hrest⟩
  · exact ⟨rfl, fun _ _ => ⟨rfl, rfl, rfl, rfl, rfl⟩⟩

/-! ### The output and its count (10_state.md R36, 20_memory.md R72) -/

section
variable {s t : State}

/-- A frame that names neither the output nor its count keeps both. -/
theorem output_kept_of_eq {u : State} (h : t = u) (hout : u.output = s.output)
    (hcount : u.outCount = s.outCount) : t.output = s.output ∧ t.outCount = s.outCount :=
  h ▸ ⟨hout, hcount⟩

theorem WritesOnly.output_kept {i : Instr} (h : WritesOnly s t i) (hemit : i ≠ .emit)
    (hstart : i ≠ .start) (hreset : i ≠ .reset) :
    t.output = s.output ∧ t.outCount = s.outCount := by
  cases i with
  | emit => exact absurd rfl hemit
  | start => exact absurd rfl hstart
  | reset => exact absurd rfl hreset
  | rdDepth | sumchk | fetch | bit => exact output_kept_of_eq h rfl rfl
  | rdCount | rdSym | symNext | eobacc | derive =>
    obtain ⟨_, hregs⟩ := h
    exact output_kept_of_eq hregs rfl rfl
  | eobres =>
    obtain ⟨_, _, hregs⟩ := h
    exact output_kept_of_eq hregs rfl rfl

/-- EMIT outputs and counts the byte the consumer accepts, or leaves both (41_bit_walker.md R143). -/
theorem execEmit_output (h : execEmit s = .next t) :
    (t.output = s.output ++ [s.obuf] ∧ t.outCount = s.outCount + 1 ∧
      s.pins.outReady = true ∧ s.pins.outErr = false) ∨
    (t.output = s.output ∧ t.outCount = s.outCount) := by
  rcases execEmit_cases h with ⟨_, rfl⟩ | ⟨_, _, rfl⟩ | ⟨_, _, _, rfl⟩ | ⟨_, hready, herr, rfl⟩
  · exact .inr ⟨rfl, rfl⟩
  · exact .inr ⟨rfl, rfl⟩
  · exact .inr ⟨rfl, rfl⟩
  · exact .inl ⟨rfl, rfl, hready, herr⟩

end

/-- Settles O29: EMIT by its cases, START and RESET by the count they clear, every other operation by
its frame. -/
theorem eachAcceptedByteIsCountedOnce : Obligations.EachAcceptedByteIsCountedOnce := by
  intro s t h
  rcases step_cases h with ⟨i, t', hsel, he, rfl⟩ | ⟨_, rfl⟩
  · cases i with
    | emit =>
      rcases execEmit_output he with ⟨hout, hcount, hpins⟩ | ⟨hout, hcount⟩
      · exact .inl ⟨hout, hcount, hsel, hpins⟩
      · exact .inr ⟨hout, .inl hcount⟩
    | start =>
      cases he
      exact .inr ⟨rfl, .inr ⟨rfl, .inl hsel⟩⟩
    | reset =>
      cases he
      exact .inr ⟨rfl, .inr ⟨rfl, .inr hsel⟩⟩
    | _ =>
      obtain ⟨hout, hcount⟩ := (exec_writesOnly he).output_kept nofun nofun nofun
      exact .inr ⟨hout, .inl hcount⟩
  · exact .inr ⟨rfl, .inl rfl⟩

/-! ### The flags and STATUS (10_state.md R39, R40) -/

theorem busy_iff {s : State} : busy s = true ↔ 1 ≤ s.phase.toNat ∧ s.phase.toNat ≤ 8 := by
  simp [busy]

theorem done_iff {s : State} : done s = true ↔ s.phase.toNat = 9 := by
  simp [done, ← BitVec.toNat_inj, Phase.bits]

theorem fail_iff {s : State} : fail s = true ↔ s.phase.toNat = 10 := by
  simp [fail, ← BitVec.toNat_inj, Phase.bits]

/-- Settles O33: one equivalence a flag. -/
theorem flagsAreFunctionsOfPhase : Obligations.FlagsAreFunctionsOfPhase :=
  fun _ => ⟨busy_iff, done_iff, fail_iff⟩

/-- Fields side by side are digits of a number. -/
theorem toNat_append_eq_add {m n : Nat} (x : BitVec m) (y : BitVec n) :
    (x ++ y).toNat = x.toNat * 2 ^ n + y.toNat := by
  rw [BitVec.toNat_append, ← Nat.shiftLeft_add_eq_or_of_lt y.isLt, Nat.shiftLeft_eq]

/-- Settles O34: the fields of STATUS as digits, bits 7 and 31:12 being 0. -/
theorem statusWordHoldsItsFields : Obligations.StatusWordHoldsItsFields := by
  intro s
  simp only [status, toNat_append_eq_add, BitVec.toNat_ofBool, BitVec.toNat_ofNat]
  omega

end Sys2Proof.Machine

/-! PROOFS. The memory family: what writes the symbol memory and its canonical form (20_memory.md R60,
R67), the token a step takes (R68), and the barrier before the first bit (R71). -/

namespace Sys2Proof

/-- The encodings of the phases differ (10_state.md R37). -/
theorem Phase.bits_injective : Function.Injective Phase.bits :=
  fun p q h => by simpa using congrArg Phase.ofBits h

end Sys2Proof

namespace Sys2Proof.Machine

/-! ### The frame of the symbol memory (20_memory.md R60, R67) -/

/-- Only RD_SYM's frame leaves the symbol memory open. -/
theorem WritesOnly.mem_kept {s t : State} {i : Instr} (h : WritesOnly s t i)
    (hsym : ∀ tok, i ≠ .rdSym tok) : t.mem = s.mem := by
  cases i with
  | rdSym tok => exact absurd rfl (hsym tok)
  | reset | start =>
    obtain ⟨_, hmem, _⟩ := h
    exact hmem
  | rdDepth | sumchk | emit | fetch | bit => exact (congrArg State.mem h :)
  | rdCount | symNext | eobacc | derive =>
    obtain ⟨_, hregs⟩ := h
    exact (congrArg State.mem hregs :)
  | eobres =>
    obtain ⟨_, _, hregs⟩ := h
    exact (congrArg State.mem hregs :)

/-- RD_SYM stores the byte it takes at CUR, or takes no byte and keeps the memory (40_tree_builder.md
R115). -/
theorem execRdSym_mem {tok : Token} {s t : State} (h : execRdSym tok s = .next t) :
    (∃ v, tok = .byte v ∧ t.mem = store s.mem s.cur.toNat v) ∨ t.mem = s.mem := by
  rcases execRdSym_cases h with ⟨v, _, _, htok, _, _, _, rfl⟩ | ⟨_, rfl⟩ | ⟨_, rfl⟩
  · exact .inl ⟨v, htok, rfl⟩
  · exact .inr rfl
  · exact .inr rfl

/-- Settles O28: by the frames only RD_SYM is left, and what it stores is read back at CUR alone. -/
theorem symbolMemoryIsWrittenByRdSymOnly : Obligations.SymbolMemoryIsWrittenByRdSymOnly := by
  intro s t h hne
  rcases step_cases h with ⟨i, t', hsel, he, rfl⟩ | ⟨_, rfl⟩
  · cases i with
    | rdSym tok =>
      rcases execRdSym_mem he with ⟨v, rfl, hmem⟩ | hmem
      · refine ⟨v, hsel, ?_⟩
        rw [tick_mem, hmem]
        exact ⟨lookup_store_same .., fun a ha => lookup_store_other s.mem v ha⟩
      · exact absurd hmem hne
    | _ => exact absurd ((exec_writesOnly he).mem_kept nofun) hne
  · exact absurd rfl hne

/-! ### The token a step takes (20_memory.md R68, 30_encoding.md R83) -/

/-- An operation takes one token or leaves the input alone. -/
theorem WritesOnly.input_eq {s t : State} {i : Instr} (h : WritesOnly s t i) :
    t.input = if i.takesToken then s.input.tail else s.input := by
  cases i with
  | reset | start =>
    obtain ⟨_, _, _, hinput, _⟩ := h
    exact hinput
  | rdDepth | sumchk | emit | fetch | bit => exact (congrArg State.input h :)
  | rdCount | rdSym | symNext | eobacc | derive =>
    obtain ⟨_, hregs⟩ := h
    exact (congrArg State.input hregs :)
  | eobres =>
    obtain ⟨_, _, hregs⟩ := h
    exact (congrArg State.input hregs :)

/-- A token operation is selected only while a token is offered (42_descriptor_lifecycle.md R175). -/
theorem SelectedIn.offered_of_takesToken {s : State} {i : Instr} (hi : SelectedIn s i)
    (htakes : i.takesToken = true) : ∃ k, offered s = some k := by
  cases i with
  | rdDepth | rdCount =>
    obtain ⟨_, _, k, hk, _⟩ := hi
    exact ⟨k, hk⟩
  | rdSym =>
    obtain ⟨_, _, _, k, hk, _⟩ := hi
    exact ⟨k, hk⟩
  | fetch =>
    obtain ⟨_, _, _, _, k, hk, _⟩ := hi
    exact ⟨k, hk⟩
  | reset | start | sumchk | eobres | symNext | eobacc | derive | emit | bit => cases htakes

theorem inReady_of_run {s : State} {i : Instr} (h : select s = .run i) :
    inReady s = i.takesToken := by
  simp only [inReady, h]

theorem inReady_of_rest {s : State} (h : select s = .rest) : inReady s = false := by
  simp only [inReady, h]

/-- Settles O30: the operation run takes a token as `in_ready` says, and the one it takes is the head of
the input. -/
theorem takeConsumesExactlyTheOfferedToken : Obligations.TakeConsumesExactlyTheOfferedToken := by
  intro s t h
  rcases step_cases h with ⟨i, t', hsel, he, rfl⟩ | ⟨hsel, rfl⟩
  · rw [inReady_of_run hsel, tick_input, (exec_writesOnly he).input_eq]
    refine ⟨fun htakes => ?_, fun htakes => by simp only [htakes, Bool.false_eq_true, if_false]⟩
    obtain ⟨k, hk⟩ := (selectedIn_of_select hsel).offered_of_takesToken htakes
    obtain ⟨_, rest, hinput⟩ := offered_eq_some.mp hk
    exact ⟨k, hk, by simp only [htakes, if_true, hinput, List.tail_cons]⟩
  · rw [inReady_of_rest hsel]
    exact ⟨nofun, fun _ => rfl⟩

/-! ### The phases an operation enters (10_state.md R37, 20_memory.md R71) -/

/-- The phases each operation can write to PHASE, FAILED among them where it can raise
(60_exceptions.md R193, R195). -/
@[simp] def phasesEntered : Instr → List Phase
  | .reset => [.idle]
  | .start => [.hdrDepth]
  | .rdDepth _ => [.hdrCounts, .failed]
  | .rdCount _ => [.sumCheck, .failed]
  | .sumchk => [.eobReserve, .failed]
  | .eobres => [.symtab]
  | .rdSym _ => [.failed]
  | .symNext => [.eobAccount]
  | .eobacc => [.build]
  | .derive => [.decode]
  | .emit => [.failed]
  | .fetch _ => [.failed]
  | .bit _ => [.done, .failed]

/-- An operation leaves PHASE alone or enters one of its phases. -/
theorem exec_phase {s t : State} {i : Instr} (h : exec i s = .next t) :
    t.phase = s.phase ∨ ∃ p ∈ phasesEntered i, t.phase = p.bits := by
  cases i with
  | reset =>
    cases h
    exact .inr ⟨.idle, by simp, rfl⟩
  | start =>
    cases h
    exact .inr ⟨.hdrDepth, by simp, rfl⟩
  | rdDepth tok =>
    rcases execRdDepth_cases tok s with ⟨_, _, _, _, he⟩ | ⟨_, _, _, he⟩ | ⟨_, he⟩ | ⟨_, he⟩ <;>
      cases he.symm.trans h
    · exact .inr ⟨.hdrCounts, by simp, rfl⟩
    all_goals exact .inr ⟨.failed, by simp, rfl⟩
  | rdCount tok =>
    rcases execRdCount_cases h with
      ⟨_, _, _, _, _, ⟨_, rfl⟩ | ⟨_, rfl⟩⟩ | ⟨_, rfl⟩ | ⟨_, rfl⟩
    · exact .inr ⟨.sumCheck, by simp, rfl⟩
    · exact .inl rfl
    all_goals exact .inr ⟨.failed, by simp, rfl⟩
  | sumchk =>
    rcases execSumchk_cases s with ⟨_, he⟩ | ⟨_, he⟩ <;> cases he.symm.trans h
    · exact .inr ⟨.eobReserve, by simp, rfl⟩
    · exact .inr ⟨.failed, by simp, rfl⟩
  | eobres =>
    obtain ⟨_, _, _, _, _, _, _, _, _, rfl⟩ := execEobres_cases h
    exact .inr ⟨.symtab, by simp, rfl⟩
  | rdSym tok =>
    rcases execRdSym_cases h with ⟨_, _, _, _, _, _, _, rfl⟩ | ⟨_, rfl⟩ | ⟨_, rfl⟩
    · exact .inl rfl
    all_goals exact .inr ⟨.failed, by simp, rfl⟩
  | symNext =>
    rcases execSymNext_cases h with ⟨_, rfl⟩ | ⟨_, _, _, _, rfl⟩
    · exact .inr ⟨.eobAccount, by simp, rfl⟩
    · exact .inl rfl
  | eobacc =>
    obtain ⟨_, _, _, _, _, _, _, rfl⟩ := execEobacc_cases h
    exact .inr ⟨.build, by simp, rfl⟩
  | derive =>
    obtain ⟨_, _, _, ⟨_, rfl⟩ | ⟨_, rfl⟩⟩ := execDerive_cases h
    · exact .inr ⟨.decode, by simp, rfl⟩
    · exact .inl rfl
  | emit =>
    rcases execEmit_cases h with ⟨_, rfl⟩ | ⟨_, _, rfl⟩ | ⟨_, _, _, rfl⟩ | ⟨_, _, _, rfl⟩
    · exact .inr ⟨.failed, by simp, rfl⟩
    · exact .inl rfl
    · exact .inr ⟨.failed, by simp, rfl⟩
    · exact .inl rfl
  | fetch tok =>
    rcases execFetch_cases tok s with ⟨_, _, he⟩ | ⟨_, he⟩ | ⟨_, he⟩ <;> cases he.symm.trans h
    · exact .inl rfl
    all_goals exact .inr ⟨.failed, by simp, rfl⟩
  | bit b =>
    obtain ⟨_, _, _, _, _, _, ⟨_, _, rfl⟩ | ⟨_, _, rfl⟩ | ⟨_, hleaf⟩⟩ := execBit_cases h
    · exact .inr ⟨.failed, by simp, rfl⟩
    · exact .inl rfl
    · obtain ⟨_, _, ⟨_, rfl⟩ | ⟨_, _, _, ⟨_, rfl⟩ | ⟨_, _, _, rfl⟩⟩⟩ := resolveLeaf_cases hleaf
      · exact .inr ⟨.failed, by simp, rfl⟩
      · exact .inr ⟨.done, by simp, rfl⟩
      · exact .inl rfl

/-- An operation that changes PHASE to the bits of `p` has `p` among its phases. -/
theorem mem_phasesEntered_of_exec {s t : State} {i : Instr} {p : Phase} (h : exec i s = .next t)
    (hs : s.phase ≠ p.bits) (ht : t.phase = p.bits) : p ∈ phasesEntered i := by
  rcases exec_phase h with hkept | ⟨q, hq, htq⟩
  · exact absurd (hkept.symm.trans ht) hs
  · rwa [Phase.bits_injective (ht.symm.trans htq)]

theorem eq_derive_of_decode_mem {i : Instr} (h : .decode ∈ phasesEntered i) : i = .derive := by
  cases i <;> simp_all

/-- Settles O32: of all operations only DERIVE enters DECODE, and of its two outcomes only the one of
level 0. -/
theorem decodeIsEnteredByDeriveOfLevelZero : Obligations.DecodeIsEnteredByDeriveOfLevelZero := by
  intro s t h hs ht
  rcases step_cases h with ⟨i, t', hsel, he, rfl⟩ | ⟨_, rfl⟩
  · obtain rfl := eq_derive_of_decode_mem (mem_phasesEntered_of_exec (p := .decode) he hs ht)
    obtain ⟨_, hbuild⟩ := selectedIn_of_select hsel
    obtain ⟨_, _, _, ⟨hzero, rfl⟩ | ⟨_, rfl⟩⟩ := execDerive_cases he
    · exact ⟨hsel, hzero, hbuild, rfl, rfl, rfl, rfl⟩
    · exact absurd ht hs
  · exact absurd ht hs

/-! ### The canonical form of the symbol memory (20_memory.md R60) -/

/-- While the addresses strictly rise, a lookup finds exactly the cells listed. -/
theorem mem_iff_lookup {m : Memory} (h : m.Pairwise fun c d => c.1 < d.1) {a : Nat} {v : Byte} :
    (a, v) ∈ m ↔ lookup m a = some v := by
  induction m with
  | nil => simp [lookup]
  | cons c rest ih =>
    obtain ⟨b, u⟩ := c
    obtain ⟨hhead, hrest⟩ := List.pairwise_cons.mp h
    rw [List.mem_cons, ih hrest, Prod.mk.injEq, lookup]
    split
    · rename_i hab
      have hnot : lookup rest a ≠ some v := fun hl =>
        absurd (hhead (a, v) ((ih hrest).mpr hl)) (by simp [hab])
      rw [or_iff_left hnot, and_iff_right hab, Option.some.injEq, eq_comm]
    · rename_i hab
      rw [or_iff_right fun hcell => hab hcell.1]

/-- Settles O37: the cells of a canonical memory are its lookups, and strictly rising lists of the same
cells are equal. -/
theorem canonicalMemoryIsUnique : Obligations.CanonicalMemoryIsUnique := by
  rintro m n ⟨hm, _⟩ ⟨hn, _⟩ h
  refine List.Pairwise.eq_of_mem_iff (r := InvImage (· < ·) Prod.fst) hm hn fun ⟨a, v⟩ => ?_
  rw [mem_iff_lookup hm, mem_iff_lookup hn, h a]

end Sys2Proof.Machine

/-! PROOFS. The encoding family: the operation map and the selection (30_encoding.md R82, R86,
42_descriptor_lifecycle.md R175), the reserved token kind (30_encoding.md R95), and the canonical codes
(30_encoding.md R90). -/

namespace Sys2Proof.Machine

/-! ### The operation map (30_encoding.md R86) -/

/-- A token word is read as the token its kind and data bits carry (30_encoding.md R82, R95). -/
theorem ofBits_eq_iff_tokenIs {k : Tok} {t : Token} : Token.ofBits k = t ↔ TokenIs k t := by
  have hk := k.isLt
  cases t with
  | byte b => exact Token.ofBits_eq_byte
  | eod => exact Token.ofBits_eq_eod
  | err =>
    rw [Token.ofBits_eq_err, TokenIs]
    omega

/-- Signals that meet an operation's row decode to it. -/
theorem decode_of_rowSelects {w : OpWord} {i : Instr} (h : RowSelects w i) :
    decode w = .instr i := by
  cases i with
  | reset => exact if_pos h
  | start =>
    obtain ⟨hr, hs, hp⟩ := h
    rcases hp with hp | hp | hp <;> simp [decode, Phase.ofBits, hr, hs, hp]
  | rdDepth t | rdCount t =>
    obtain ⟨hr, hp, k, hk, ht⟩ := h
    simp [decode, decodeToken, Phase.ofBits, hr, hp, hk, ofBits_eq_iff_tokenIs.mpr ht]
  | rdSym t =>
    obtain ⟨hr, hp, hrem, k, hk, ht⟩ := h
    simp [decode, decodeToken, Phase.ofBits, hr, hp, hrem, hk, ofBits_eq_iff_tokenIs.mpr ht]
  | fetch t =>
    obtain ⟨hr, hp, ho, hb, k, hk, ht⟩ := h
    simp [decode, decodeToken, Phase.ofBits, hr, hp, ho, hb, hk, ofBits_eq_iff_tokenIs.mpr ht]
  | sumchk | eobres | eobacc | derive =>
    obtain ⟨hr, hp⟩ := h
    simp [decode, Phase.ofBits, hr, hp]
  | symNext | emit =>
    obtain ⟨hr, hp, hcond⟩ := h
    simp [decode, Phase.ofBits, hr, hp, hcond]
  | bit b =>
    obtain ⟨hr, hp, ho, hb, rfl⟩ := h
    simp [decode, Phase.ofBits, hr, hp, ho, hb]

/-- What `decodeToken` answers is the operation on the token its word carries. -/
theorem tokenIs_of_decodeToken {w : OpWord} {op : Token → Instr} {i : Instr}
    (h : decodeToken w op = .instr i) : ∃ t, i = op t ∧ ∃ k, w.tok = some k ∧ TokenIs k t := by
  obtain ⟨k, hk, rfl⟩ := decodeToken_eq_instr.mp h
  exact ⟨_, rfl, k, hk, ofBits_eq_iff_tokenIs.mp rfl⟩

/-- Signals that decode to an operation meet its row: the branches of R175, phase by phase. -/
theorem rowSelects_of_decode {w : OpWord} {i : Instr} (h : decode w = .instr i) :
    RowSelects w i := by
  unfold decode at h
  cases hr : w.rst with
  | true =>
    rw [hr] at h
    cases h
    exact hr
  | false =>
    simp only [hr, Bool.false_eq_true, if_false] at h
    cases hq : Phase.ofBits w.phase with
    | none => simp [hq] at h
    | some p =>
      have hp : w.phase = p.bits := Phase.bits_of_ofBits hq
      rw [hq] at h
      cases p with
      | idle | done | failed =>
        cases hs : w.start <;> simp only [hs] at h <;> cases h
        exact ⟨hr, hs, by simp [hp, Phase.bits]⟩
      | hdrDepth | hdrCounts =>
        obtain ⟨t, rfl, ht⟩ := tokenIs_of_decodeToken h
        exact ⟨hr, hp, ht⟩
      | sumCheck | eobReserve | eobAccount | build =>
        cases h
        exact ⟨hr, hp⟩
      | symtab =>
        cases hrem : w.remPos <;> simp only [hrem] at h
        · cases h
          exact ⟨hr, hp, hrem⟩
        · obtain ⟨t, rfl, ht⟩ := tokenIs_of_decodeToken h
          exact ⟨hr, hp, hrem, ht⟩
      | decode =>
        cases ho : w.opend <;> simp only [ho] at h
        · cases hb : w.blPos <;> simp only [hb] at h
          · obtain ⟨t, rfl, ht⟩ := tokenIs_of_decodeToken h
            exact ⟨hr, hp, ho, hb, ht⟩
          · cases h
            exact ⟨hr, hp, ho, hb, rfl⟩
        · cases h
          exact ⟨hr, hp, ho⟩

/-- The encoder's words meet the rows of the operation map. -/
theorem rowSelects_encode (i : Instr) : RowSelects (encode i) i := by
  have htok (t : Token) : TokenIs t.toBits t := ofBits_eq_iff_tokenIs.mp (Token.ofBits_toBits t)
  cases i with
  | reset => exact rfl
  | start => exact ⟨rfl, rfl, .inl rfl⟩
  | rdDepth t | rdCount t => exact ⟨rfl, rfl, _, rfl, htok t⟩
  | rdSym t => exact ⟨rfl, rfl, rfl, _, rfl, htok t⟩
  | fetch t => exact ⟨rfl, rfl, rfl, rfl, _, rfl, htok t⟩
  | sumchk | eobres | eobacc | derive => exact ⟨rfl, rfl⟩
  | symNext | emit => exact ⟨rfl, rfl, rfl⟩
  | bit b => exact ⟨rfl, rfl, rfl, rfl, rfl⟩

/-- Settles O1: decoding and the rows agree in both directions, and the encoder writes words of the
rows. -/
theorem selectionAgreesWithOperationMap : Obligations.SelectionAgreesWithOperationMap :=
  ⟨fun i => decode_of_rowSelects (rowSelects_encode i),
    fun _ _ => ⟨rowSelects_of_decode, decode_of_rowSelects⟩⟩

/-- Settles O2: each word meets the row of its operation. -/
theorem writtenOutWordsDecode : Obligations.WrittenOutWordsDecode :=
  ⟨decode_of_rowSelects ⟨rfl, rfl, _, rfl, rfl, rfl⟩,
    decode_of_rowSelects ⟨rfl, rfl, _, rfl, rfl⟩,
    decode_of_rowSelects ⟨rfl, rfl, rfl, _, rfl, rfl, rfl⟩,
    decode_of_rowSelects ⟨rfl, rfl, rfl, rfl, _, rfl, .inr rfl⟩,
    decode_of_rowSelects ⟨rfl, rfl, rfl, rfl, rfl⟩,
    decode_of_rowSelects ⟨rfl, rfl, .inr (.inr rfl)⟩,
    decode_of_rowSelects (i := .reset) rfl⟩

/-! ### The reserved token kind (30_encoding.md R95) -/

/-- The step whose signals meet the row of an operation that answers. -/
theorem step_of_rowSelects {s t : State} {i : Instr} (herr : s.err.toNat ≤ 9)
    (hrow : RowSelects (opWord s) i) (he : exec i s = .next t) : step s = .next (tick t) := by
  have hlegal : errorReserved s = false := by
    simp [errorReserved, Nat.not_le.mpr (Nat.lt_succ_of_le herr)]
  have hsel := select_eq_run.mpr ⟨hlegal, decode_of_rowSelects hrow⟩
  rw [step_of_select hsel, he, endStep_next]

/-- Where a token is taken, an offered `Err` selects an operation that raises InputReadError. -/
theorem TakesNow.exists_row_of_err {s : State} {k : Tok} (htakes : TakesNow s)
    (hrst : s.pins.rst = false) (hk : offered s = some k) (herr : TokenIs k .err) :
    ∃ i, RowSelects (opWord s) i ∧ exec i s = .next (failedWith 7#4 (consume s)) := by
  rcases htakes with hp | hp | ⟨hp, hrem⟩ | ⟨hp, hopend, hbl⟩
  · exact ⟨.rdDepth .err, ⟨hrst, hp, k, hk, herr⟩, rfl⟩
  · exact ⟨.rdCount .err, ⟨hrst, hp, k, hk, herr⟩, rfl⟩
  · exact ⟨.rdSym .err, ⟨hrst, hp, decide_eq_true hrem, k, hk, herr⟩, rfl⟩
  · exact ⟨.fetch .err, ⟨hrst, hp, hopend, by simp [opWord, hbl], k, hk, herr⟩, rfl⟩

/-- Settles O3: the reserved kind is read as `Err`, which each of the four operations raises. -/
theorem reservedTokenKindRaisesInputReadError :
    Obligations.ReservedTokenKindRaisesInputReadError := by
  intro s k hrst herr htakes hk hkind
  obtain ⟨i, hrow, he⟩ := htakes.exists_row_of_err hrst hk (.inr hkind)
  exact step_of_rowSelects herr hrow he

/-! ### The canonical codes (30_encoding.md R90) -/

@[simp] theorem length_codeBits (n v : Nat) : (codeBits n v).length = n := by
  simp [codeBits]

/-- The first m of n bits are the bits of the value without its last n - m bits. -/
theorem take_codeBits {m n : Nat} (v : Nat) (h : m ≤ n) :
    (codeBits n v).take m = codeBits m (v >>> (n - m)) := by
  simp only [codeBits, ← List.map_take, List.take_range, Nat.min_eq_left h]
  refine List.map_congr_left fun k hk => ?_
  have hkm : k < m := List.mem_range.mp hk
  rw [Nat.testBit_shiftRight]
  congr 1
  omega

/-- A value that fits n bits is told by them. -/
theorem eq_of_codeBits_eq {n u v : Nat} (hu : u < 2 ^ n) (hv : v < 2 ^ n)
    (h : codeBits n u = codeBits n v) : u = v := by
  refine Nat.eq_of_testBit_eq fun j => ?_
  rcases Nat.lt_or_ge j n with hj | hj
  · have hbit := List.map_inj_left.mp h (n - 1 - j) (List.mem_range.mpr (by omega))
    rwa [show n - 1 - (n - 1 - j) = j by omega] at hbit
  · have hpow : 2 ^ n ≤ 2 ^ j := Nat.pow_le_pow_right (by decide) hj
    rw [Nat.testBit_lt_two_pow (hu.trans_le hpow), Nat.testBit_lt_two_pow (hv.trans_le hpow)]

/-- A code that is a prefix of another is that code's value without the bits after the prefix. -/
theorem eq_shiftRight_of_codeBits_prefix {m n u v : Nat} (hu : u < 2 ^ m) (hv : v < 2 ^ n)
    (h : codeBits m u <+: codeBits n v) : m ≤ n ∧ u = v >>> (n - m) := by
  have hmn : m ≤ n := by simpa using h.length_le
  have hcut : v >>> (n - m) < 2 ^ m := by
    rw [Nat.shiftRight_eq_div_pow]
    exact Nat.div_lt_of_lt_mul (by rwa [← Nat.pow_add, Nat.sub_add_cancel hmn])
  refine ⟨hmn, eq_of_codeBits_eq hu hcut ?_⟩
  rw [← take_codeBits v hmn]
  simpa using List.prefix_iff_eq_take.mp h

/-- What makes a leaf reachable: its value fits its code, and each proper prefix names an internal
node. -/
theorem leafReachable_iff {d : Descriptor} {l i : Nat} :
    leafReachable d l i = true ↔
      i < d.leaves.getD l 0 ∧ d.intn.getD l 0 + i < 2 ^ (l + 1) ∧
        ∀ k, k < l → (d.intn.getD l 0 + i) >>> (l - k) < d.intn.getD k 0 := by
  simp [leafReachable, and_assoc]

/-- Settles O42: a shorter code that is a prefix would name an internal node, but a leaf's value is at
least INTN of its level; codes of one length are told by their values. -/
theorem reachableCodesArePrefixFree : Obligations.ReachableCodesArePrefixFree := by
  intro d l i l' i' h h' hpre
  obtain ⟨_, hfit, _⟩ := leafReachable_iff.mp h
  obtain ⟨_, hfit', hinner⟩ := leafReachable_iff.mp h'
  obtain ⟨hle, hvalue⟩ := eq_shiftRight_of_codeBits_prefix hfit hfit' hpre
  rcases Nat.lt_or_eq_of_le (Nat.le_of_succ_le_succ hle) with hlt | rfl
  · have hprefix := hinner l hlt
    rw [Nat.add_sub_add_right] at hvalue
    omega
  · simp only [Nat.sub_self, Nat.shiftRight_zero] at hvalue
    exact ⟨rfl, by omega⟩

end Sys2Proof.Machine

/-! PROOFS. The tree builder family: what each of the builder's operations answers (40_tree_builder.md
R111 to R118), and the whole run from HDR_DEPTH to DECODE (R119, R121). -/

namespace Sys2Proof.Machine

/-! ### Values written out as numbers -/

/-- A register written with a number that fits it holds the number (00_scope.md R9). -/
theorem toNat_ofNat_of_eq {w m n : Nat} (h : m = n) (hn : n < 2 ^ w) :
    (BitVec.ofNat w m).toNat = n := by
  rw [BitVec.toNat_ofNat, h, Nat.mod_eq_of_lt hn]

/-- A level of the table reads as its entry. -/
theorem readLevel_eq_ofNat_entry (t : Table) {i : Nat} (h : i < 24) :
    readLevel t i = some (BitVec.ofNat 9 (entry t i)) :=
  readLevel_eq_some_entry.mpr ⟨h, ofNat_entry_toNat t i⟩

theorem countEntry_eq_ofNat (c : Byte) : countEntry c = BitVec.ofNat 9 c.toNat :=
  (BitVec.ofNat_toNat 9 c).symm

theorem add_one_eq_ofNat (r : BitVec 5) : r + 1#5 = BitVec.ofNat 5 (r.toNat + 1) := by
  rw [BitVec.ofNat_add, BitVec.ofNat_toNat, BitVec.setWidth_eq]

theorem decrement_eq_ofNat {w : Nat} {r : BitVec w} (h : 0 < r.toNat) :
    decrement r = some (BitVec.ofNat w (r.toNat - 1)) := by
  rw [decrement_eq_some, toNat_ofNat_of_eq rfl (by omega)]
  omega

theorem sub_one_eq_ofNat {r : BitVec 5} (h : 0 < r.toNat) :
    r - 1#5 = BitVec.ofNat 5 (r.toNat - 1) :=
  Option.some.inj ((decrement_of_pos h).symm.trans (decrement_eq_ofNat h))

/-- The two increments of the deepest count (40_tree_builder.md R114, R117), where it has room. -/
theorem bumpDeepest_next {s : State} {l : Nat} (hl : l + 1 = s.depth.toNat) (h24 : l < 24)
    (hroom : entry s.leaves l < 511) :
    bumpDeepest s = .next { s with
      leaves := s.leaves.setIfInBounds l (BitVec.ofNat 9 (entry s.leaves l + 1)) } := by
  refine bumpDeepest_eq_next.mpr ⟨l, _, _, hl, readLevel_eq_ofNat_entry s.leaves h24, ?_, h24, rfl⟩
  rw [ofNat_entry_toNat]
  exact toNat_ofNat_of_eq rfl (by omega)

/-! ### Each operation of the builder -/

/-- Settles O11: the range of the depth byte decides; End and Err raise. -/
theorem rdDepthReadsTheTreeDepth : Obligations.RdDepthReadsTheTreeDepth := by
  refine fun s => ⟨fun b h1 h24 => ?_, fun b hb => ?_, rfl, rfl⟩
  · have hrange : ¬(b.toNat < Config.minLevels ∨ Config.maxLevels < b.toNat) := by
      simp only [Config.minLevels, Config.maxLevels]
      omega
    have hdepth : b.extractLsb' 0 5 = BitVec.ofNat 5 b.toNat := by simp [← BitVec.toNat_inj]
    simp only [exec, execRdDepth, if_neg hrange, hdepth]
    rfl
  · exact if_pos hb

/-- Settles O12: level and sum are in bounds, and the deepest level ends the counts. -/
theorem rdCountReadsOneLeafCount : Obligations.RdCountReadsOneLeafCount := by
  refine fun s => ⟨fun c h24 hsum hlast => ?_, fun c h24 hsum hlast => ?_, rfl, rfl⟩ <;>
    simp only [exec, execRdCount, writeLevel_of_lt _ h24, narrow_of_lt (w := 13) hsum, need_some,
      countEntry_eq_ofNat]
  · rw [if_pos (isDeepest_iff.mpr hlast)]
    rfl
  · rw [if_neg (mt isDeepest_iff.mp hlast), add_one_eq_ofNat]
    rfl

/-- Settles O13: the two branches of the test. -/
theorem sumchkRaisesAboveTwoHundredFiftySix :
    Obligations.SumchkRaisesAboveTwoHundredFiftySix :=
  fun _ => ⟨fun h => if_pos h, fun h => if_neg (Nat.not_lt.mpr h)⟩

/-- The count of level 0 after the increment of level l. -/
theorem entry_zero_of_bump {t : Table} {l : Nat} (h24 : l < 24) (hroom : entry t l < 511) :
    entry (t.setIfInBounds l (BitVec.ofNat 9 (entry t l + 1))) 0 =
      if l = 0 then entry t 0 + 1 else entry t 0 := by
  split
  · next h0 =>
    subst h0
    rw [entry_set_same _ h24]
    exact toNat_ofNat_of_eq rfl (by omega)
  · next h0 => exact entry_set_other _ h0

/-- Settles O14: REM is read from the table with the deepest count already grown, which is the count
of level 0 exactly if the tree has one level. -/
theorem eobresReservesTheExtraSlot : Obligations.EobresReservesTheExtraSlot := by
  intro s l hl h24 hroom
  simp only [exec, execEobres, bumpDeepest_next hl h24 hroom, andThen_next,
    writeLevel_of_lt _ (Nat.zero_lt_succ 23), readLevel_eq_ofNat_entry _ (Nat.zero_lt_succ 23),
    need_some, entry_zero_of_bump h24 hroom]
  rfl

/-- Settles O15: the accesses are in bounds, and a write to the symbol memory is read back at its
own address only. -/
theorem rdSymStoresOneSymbol : Obligations.RdSymStoresOneSymbol := by
  refine fun s => ⟨fun v hcur hrem => ⟨store s.mem s.cur.toNat v, ?_, lookup_store_same _ _ _,
    fun a ha => lookup_store_other _ v ha⟩, rfl, rfl⟩
  have hwrite : memWrite (consume s) s.cur.toNat v =
      some { consume s with mem := store s.mem s.cur.toNat v } :=
    memWrite_eq_some.mpr ⟨Nat.lt_succ_of_le hcur, rfl⟩
  have hnext : s.cur.toNat + 1 < 2 ^ 9 := by omega
  simp only [exec, execRdSym, hwrite, narrow_of_lt hnext, decrement_eq_ofNat hrem, need_some]
  rfl

/-- Settles O16: the deepest level ends the symbols; another level has one below it in the table. -/
theorem symNextMovesToTheNextLevel : Obligations.SymNextMovesToTheNextLevel := by
  refine fun s => ⟨fun hlast => if_pos (isDeepest_iff.mpr hlast), fun hlast h24 => ?_⟩
  simp only [exec, execSymNext, isDeepest_iff, hlast, if_false, writeLevel_of_lt _ h24,
    readLevel_eq_ofNat_entry _ h24, need_some, add_one_eq_ofNat]

/-- Settles O17: the increment has room, and the deepest level is DEPTH - 1. -/
theorem eobaccAccountsForTheEobSlot : Obligations.EobaccAccountsForTheEobSlot := by
  intro s l hl h24 hroom
  have hlevel : s.depth.toNat - 1 = l := by omega
  simp only [exec, execEobacc, bumpDeepest_next hl h24 hroom, andThen_next,
    sub_one_eq_ofNat (r := s.depth) (by omega), hlevel]
  rfl

/-- What DERIVE writes to `INTN[l]`, as a number (40_tree_builder.md R118). -/
theorem internalNodes_eq_ofNat {s : State} {l n : Nat}
    (h : l + 1 = s.depth.toNat ∧ n = 0 ∨ l + 1 ≠ s.depth.toNat ∧ l + 1 < 24 ∧
      n = (entry s.intn (l + 1) + entry s.leaves (l + 1)) / 2) :
    internalNodes s l = some (BitVec.ofNat 9 n) := by
  refine internalNodes_eq_some.mpr ?_
  rcases h with ⟨hlast, rfl⟩ | ⟨hlast, h24, rfl⟩
  · exact .inl ⟨hlast, rfl⟩
  · refine .inr ⟨hlast, _, _, readLevel_eq_ofNat_entry _ h24, readLevel_eq_ofNat_entry _ h24, ?_⟩
    rw [ofNat_entry_toNat, ofNat_entry_toNat]

/-- Settles O18: the written count is that of `internalNodes`, and level 0 is derived last. -/
theorem deriveComputesOneInternalCount : Obligations.DeriveComputesOneInternalCount := by
  intro s n h24 hn
  refine ⟨fun h0 => ?_, fun h0 => ?_⟩ <;>
    simp only [exec, execDerive, internalNodes_eq_ofNat hn, writeLevel_of_lt _ h24, need_some]
  · simp only [h0, if_true]
    rfl
  · rw [if_neg h0, sub_one_eq_ofNat (Nat.pos_of_ne_zero h0)]


/-! ### The lists of a header's numbers (10_state.md R42) -/

theorem length_addToDeepest (k : Nat) (ns : List Nat) : (addToDeepest k ns).length = ns.length := by
  induction ns using addToDeepest.induct with
  | case1 => rfl
  | case2 n => rfl
  | case3 n m rest ih => simpa [addToDeepest] using ih

theorem getD_addToDeepest (k : Nat) {ns : List Nat} {i : Nat} (h : i < ns.length) :
    (addToDeepest k ns).getD i 0 = ns.getD i 0 + if i + 1 = ns.length then k else 0 := by
  induction ns using addToDeepest.induct generalizing i with
  | case1 => simp at h
  | case2 n =>
    obtain rfl : i = 0 := by simpa using h
    simp [addToDeepest]
  | case3 n m rest ih =>
    cases i with
    | zero => simp [addToDeepest]
    | succ i => simpa [addToDeepest] using ih (i := i) (by simpa using h)

theorem addToDeepest_addToDeepest (j k : Nat) (ns : List Nat) :
    addToDeepest j (addToDeepest k ns) = addToDeepest (k + j) ns := by
  refine List.ext_getElem (by simp only [length_addToDeepest]) fun i h h' => ?_
  simp only [length_addToDeepest] at h'
  rw [← List.getD_eq_getElem _ 0 h, ← List.getD_eq_getElem _ 0, getD_addToDeepest,
    getD_addToDeepest k h', getD_addToDeepest _ h', length_addToDeepest]
  · split <;> omega
  · rwa [length_addToDeepest]

theorem sum_addToDeepest (k : Nat) {ns : List Nat} (h : ns ≠ []) :
    (addToDeepest k ns).sum = ns.sum + k := by
  induction ns using addToDeepest.induct with
  | case1 => exact absurd rfl h
  | case2 n => simp [addToDeepest]
  | case3 n m rest ih =>
    have := ih (List.cons_ne_nil m rest)
    simp only [addToDeepest, List.sum_cons] at this ⊢
    omega

/-- The levels above the deepest keep their counts. -/
theorem take_addToDeepest (k : Nat) {ns : List Nat} {i : Nat} (h : i < ns.length) :
    (addToDeepest k ns).take i = ns.take i := by
  induction ns using addToDeepest.induct generalizing i with
  | case1 => rfl
  | case2 n =>
    obtain rfl : i = 0 := by simpa using h
    rfl
  | case3 n m rest ih =>
    cases i with
    | zero => rfl
    | succ i => simpa [addToDeepest] using ih (i := i) (by simpa using h)

theorem length_offsets (n : Nat) (ns : List Nat) : (offsets n ns).length = ns.length := by
  induction ns generalizing n with
  | nil => rfl
  | cons m rest ih => simp [offsets, ih]

/-- An offset is the sum of the counts before it (10_state.md R42, 3). -/
theorem getD_offsets (n : Nat) {ns : List Nat} {i : Nat} (h : i < ns.length) :
    (offsets n ns).getD i 0 = n + (ns.take i).sum := by
  induction ns generalizing n i with
  | nil => simp at h
  | cons m rest ih =>
    cases i with
    | zero => simp [offsets]
    | succ i => simpa [offsets, Nat.add_assoc] using ih (n + m) (i := i) (by simpa using h)

theorem length_internalCounts (ns : List Nat) : (internalCounts ns).length = ns.length := by
  induction ns using internalCounts.induct with
  | case1 => rfl
  | case2 n => rfl
  | case3 n m rest ih => simpa [internalCounts] using ih

/-- An internal count comes from the level below (10_state.md R42, 6). -/
theorem getD_internalCounts {ns : List Nat} {i : Nat} (h : i < ns.length) :
    (internalCounts ns).getD i 0 =
      if i + 1 = ns.length then 0
      else ((internalCounts ns).getD (i + 1) 0 + ns.getD (i + 1) 0) / 2 := by
  induction ns using internalCounts.induct generalizing i with
  | case1 => simp at h
  | case2 n =>
    obtain rfl : i = 0 := by simpa using h
    rfl
  | case3 n m rest ih =>
    cases i with
    | zero => cases hb : internalCounts (m :: rest) <;> simp [internalCounts, hb]
    | succ i => simpa [internalCounts] using ih (i := i) (by simpa using h)

theorem sum_take_succ_getD {ns : List Nat} {i : Nat} (h : i < ns.length) :
    (ns.take (i + 1)).sum = (ns.take i).sum + ns.getD i 0 := by
  rw [List.sum_take_succ ns i h, List.getD_eq_getElem _ _ h]

theorem sum_take_le (ns : List Nat) (i : Nat) : (ns.take i).sum ≤ ns.sum :=
  (List.take_sublist i ns).sum_le_sum fun _ _ => Nat.zero_le _

/-! ### A table that holds a list of numbers -/

/-- Levels m to n - 1 of the table hold the numbers of the list at these places. -/
def TableHolds (t : Table) (ns : List Nat) (m n : Nat) : Prop :=
  ∀ l, m ≤ l → l < n → entry t l = ns.getD l 0

/-- A write of the list's number at level i makes it hold there too. -/
theorem TableHolds.set {t : Table} {ns : List Nat} {m n m' n' i : Nat} {v : Entry}
    (h : TableHolds t ns m n) (h24 : i < 24) (hv : v.toNat = ns.getD i 0)
    (hrange : ∀ l, m' ≤ l → l < n' → l ≠ i → m ≤ l ∧ l < n) :
    TableHolds (t.setIfInBounds i v) ns m' n' := by
  intro l hm hn
  by_cases hl : l = i
  · subst hl
    rw [entry_set_same v h24, hv]
  · obtain ⟨hm', hn'⟩ := hrange l hm hn hl
    rw [entry_set_other v (Ne.symm hl), h l hm' hn']

/-- The increment of the deepest count, in the table and in the list. -/
theorem TableHolds.bump {t : Table} {ns : List Nat} {l n : Nat} (h : TableHolds t ns 0 n)
    (hn : ns.length = n) (hl : l + 1 = n) (h24 : l < 24) (hroom : entry t l < 511) :
    TableHolds (t.setIfInBounds l (BitVec.ofNat 9 (entry t l + 1))) (addToDeepest 1 ns) 0 n := by
  have habove : TableHolds t (addToDeepest 1 ns) 0 l := fun k _ hk => by
    rw [getD_addToDeepest 1 (by omega), if_neg (by omega)]
    exact h k (Nat.zero_le k) (by omega)
  refine habove.set h24 ?_ fun k _ hk hne => ⟨Nat.zero_le k, by omega⟩
  rw [getD_addToDeepest 1 (by omega), if_pos (hl.trans hn.symm), ← h l (Nat.zero_le l) (by omega)]
  exact toNat_ofNat_of_eq rfl (by omega)

/-- An entry is at most the sum of the numbers. -/
theorem TableHolds.entry_le_sum {t : Table} {ns : List Nat} {l n : Nat} (h : TableHolds t ns 0 n)
    (hn : ns.length = n) (hl : l < n) : entry t l ≤ ns.sum := by
  rw [h l (Nat.zero_le l) hl, List.getD_eq_getElem _ _ (by omega)]
  exact List.le_sum_of_mem (List.getElem_mem _)

/-- The numbers of a table's levels are the list it holds. -/
theorem TableHolds.toNat_take {t : Table} {ns : List Nat} {n : Nat} (h : TableHolds t ns 0 n)
    (hn : n = ns.length) (h24 : n ≤ 24) : (t.toList.take n).map BitVec.toNat = ns := by
  refine List.ext_getElem (by simp [← hn, h24]) fun i hi hi' => ?_
  have hentry := h i (Nat.zero_le i) (by omega)
  rw [List.getD_eq_getElem _ _ hi', entry_of_readLevel (readLevel_of_lt (i := i) (by omega))]
    at hentry
  simpa using hentry

/-! ### The header (30_encoding.md R80) -/

/-- The transmitted counts, shallowest level first. -/
def transmitted (c : Container) : List Nat := c.counts.map BitVec.toNat

/-- The counts while the symbols are read: the deepest level with its extra slot
(40_tree_builder.md R114). -/
def reserved (c : Container) : List Nat := addToDeepest 1 (transmitted c)

/-- The counts of the built descriptor (40_tree_builder.md R117). -/
def decoding (c : Container) : List Nat := addToDeepest 2 (transmitted c)

/-- What makes a header legal (30_encoding.md R91, R92). -/
structure LegalHeader (c : Container) : Prop where
  pos : 1 ≤ c.counts.length
  le : c.counts.length ≤ 24
  total : c.total ≤ 255
  symbols : c.symbols.length = c.total + 1

theorem legalHeader_of_wellFormed {c : Container} (h : c.wellFormed = true) : LegalHeader c := by
  simp only [Container.wellFormed, Bool.and_eq_true, decide_eq_true_eq] at h
  obtain ⟨⟨⟨hpos, hle⟩, htotal⟩, hsymbols⟩ := h
  exact ⟨hpos, hle, Nat.le_of_succ_le_succ htotal, hsymbols⟩

section
variable {c : Container}

@[simp] theorem length_transmitted : (transmitted c).length = c.counts.length := List.length_map _

@[simp] theorem length_reserved : (reserved c).length = c.counts.length :=
  (length_addToDeepest _ _).trans length_transmitted

@[simp] theorem length_decoding : (decoding c).length = c.counts.length :=
  (length_addToDeepest _ _).trans length_transmitted

theorem addToDeepest_reserved : addToDeepest 1 (reserved c) = decoding c :=
  addToDeepest_addToDeepest 1 1 _

theorem getD_transmitted {l : Nat} (h : l < c.counts.length) :
    (transmitted c).getD l 0 = c.counts[l].toNat := by
  rw [List.getD_eq_getElem _ _ (by simpa using h)]
  exact List.getElem_map _

theorem LegalHeader.exists_deepest (hc : LegalHeader c) : ∃ l, l + 1 = c.counts.length :=
  ⟨_, Nat.succ_pred_eq_of_pos hc.pos⟩

theorem LegalHeader.sum_reserved (hc : LegalHeader c) : (reserved c).sum = c.total + 1 := by
  refine sum_addToDeepest 1 (List.ne_nil_of_length_pos ?_)
  rw [length_transmitted]
  exact hc.pos

end

/-! ### Runs of the builder

Backwards from DECODE: the runs from each phase begin with a step of it and go on as those of the
next. Their step counts are written as the sum of the phases' steps, the last phase first (R121). -/

/-- The state at the end of a successful builder run: the root of the descriptor of c's header
(40_tree_builder.md R119, 10_state.md R42). -/
structure Complete (c : Container) (s : State) : Prop where
  phase : s.phase = 8#4
  depth : s.depth.toNat = c.counts.length
  leaves : TableHolds s.leaves (decoding c) 0 c.counts.length
  intn : TableHolds s.intn (internalCounts (decoding c)) 0 c.counts.length
  offs : TableHolds s.offs (offsets 0 (transmitted c)) 0 c.counts.length
  eobix : s.eobix.toNat = c.total + 1
  stored : ∀ a, a ≤ c.total → lookup s.mem a = c.symbols[a]?
  root : s.lvl = 0#5 ∧ s.code = 0#9 ∧ s.bl = 0#4 ∧ s.opend = false

/-- From s, n steps of a host that offers the bytes `bs` take just these and complete the build,
with nothing raised and nothing output. -/
def BuildsIn (c : Container) (n : Nat) (bs : List Byte) (s : State) : Prop :=
  ∀ (rest : List Tok) (later : List Pins), s.err = 0#4 → s.input = byteTokens bs ++ rest →
    s.schedule = readySchedule n ++ later →
    ∃ t, Host.Core.run core n s = .next t ∧ t.err = 0#4 ∧ t.input = rest ∧ t.schedule = later ∧
      t.outCount = s.outCount ∧ t.output = s.output ∧ Complete c t

/-- An operation of the builder raises nothing, outputs nothing and leaves the schedule. -/
def Undisturbed (s u : State) : Prop :=
  u.err = s.err ∧ u.schedule = s.schedule ∧ u.outCount = s.outCount ∧ u.output = s.output

theorem run_succ_of_step {s u : State} {n : Nat} (h : step s = .next u) :
    Host.Core.run core (n + 1) s = Host.Core.run core n u := by
  simp only [Host.Core.run, core, h]

section
variable {c : Container} {n l : Nat} {bs : List Byte} {s u : State}

theorem Complete.buildsIn (h : Complete c s) : BuildsIn c 0 [] s :=
  fun _ _ herr hinput hschedule => ⟨s, rfl, herr, hinput, hschedule, rfl, rfl, h⟩

/-- A run begins with the step of the operation selected while the host is ready. -/
theorem BuildsIn.of_step {i : Instr} {bs' : List Byte}
    (hrow : ∀ rest, s.pins = Pins.ready → s.input = byteTokens bs ++ rest →
      RowSelects (opWord s) i ∧ u.input = byteTokens bs' ++ rest)
    (he : exec i s = .next u) (hkept : Undisturbed s u) (h : BuildsIn c n bs' (tick u)) :
    BuildsIn c (n + 1) bs s := by
  intro rest later herr hinput hschedule
  obtain ⟨herr', hschedule', hcount', houtput'⟩ := hkept
  obtain ⟨hsel, hinput'⟩ := hrow rest (pins_cons hschedule) hinput
  have hstep := step_of_rowSelects (herr ▸ Nat.zero_le 9) hsel he
  obtain ⟨t, hrun, hterr, htinput, htschedule, hcount, houtput, hdone⟩ :=
    h rest later (herr'.trans herr) hinput' (by rw [tick_schedule, hschedule', hschedule]; rfl)
  exact ⟨t, (run_succ_of_step hstep).trans hrun, hterr, htinput, htschedule, hcount.trans hcount',
    houtput.trans houtput', hdone⟩

/-- A run begins with an operation that takes no token. -/
theorem BuildsIn.of_exec {i : Instr} (hrow : s.pins.rst = false → RowSelects (opWord s) i)
    (he : exec i s = .next u) (hinput : u.input = s.input) (hkept : Undisturbed s u)
    (h : BuildsIn c n bs (tick u)) : BuildsIn c (n + 1) bs s :=
  h.of_step (fun _ hpins hin => ⟨hrow (congrArg Pins.rst hpins), hinput.trans hin⟩) he hkept

/-- A run begins with an operation that takes the first byte offered. -/
theorem BuildsIn.of_take {i : Instr} {b : Byte}
    (hrow : s.pins.rst = false → (∃ k, offered s = some k ∧ TokenIs k (.byte b)) →
      RowSelects (opWord s) i)
    (he : exec i s = .next u) (hinput : u.input = s.input.tail) (hkept : Undisturbed s u)
    (h : BuildsIn c n bs (tick u)) : BuildsIn c (n + 1) (b :: bs) s := by
  refine h.of_step
    (fun rest hpins hin => ⟨hrow (congrArg Pins.rst hpins) ⟨(Token.byte b).toBits, ?_, ?_⟩, ?_⟩)
    he hkept
  · exact offered_eq_some.mpr ⟨by rw [hpins]; rfl, _, hin⟩
  · exact ofBits_eq_iff_tokenIs.mp (Token.ofBits_byte b)
  · rw [hinput, hin]
    rfl

/-! ### BUILD: the internal counts, deepest level first (40_tree_builder.md R118) -/

/-- In BUILD, before DERIVE of level l. -/
structure Deriving (c : Container) (l : Nat) (s : State) : Prop where
  phase : s.phase = 7#4
  depth : s.depth.toNat = c.counts.length
  lidx : s.lidx.toNat = l
  level : l < c.counts.length
  leaves : TableHolds s.leaves (decoding c) 0 c.counts.length
  intn : TableHolds s.intn (internalCounts (decoding c)) (l + 1) c.counts.length
  offs : TableHolds s.offs (offsets 0 (transmitted c)) 0 c.counts.length
  eobix : s.eobix.toNat = c.total + 1
  stored : ∀ a, a ≤ c.total → lookup s.mem a = c.symbols[a]?

theorem Deriving.lidx_lt (h : Deriving c l s) (hc : LegalHeader c) : s.lidx.toNat < 24 :=
  h.lidx ▸ h.level.trans_le hc.le

/-- The count DERIVE computes is the header's, from the level below. -/
theorem Deriving.count (h : Deriving c l s) (hc : LegalHeader c) :
    s.lidx.toNat + 1 = s.depth.toNat ∧ (internalCounts (decoding c)).getD l 0 = 0 ∨
      s.lidx.toNat + 1 ≠ s.depth.toNat ∧ s.lidx.toNat + 1 < 24 ∧
        (internalCounts (decoding c)).getD l 0 =
          (entry s.intn (s.lidx.toNat + 1) + entry s.leaves (s.lidx.toNat + 1)) / 2 := by
  have hlevel := h.level
  have hle := hc.le
  rw [getD_internalCounts (by simpa using hlevel), length_decoding, h.depth, h.lidx]
  by_cases hlast : l + 1 = c.counts.length
  · exact .inl ⟨hlast, if_pos hlast⟩
  · have hbelow : l + 1 < c.counts.length := by omega
    rw [if_neg hlast, h.intn _ (Nat.le_refl _) hbelow, h.leaves _ (Nat.zero_le _) hbelow]
    exact .inr ⟨hlast, by omega, rfl⟩

/-- INTN holds the level's count once DERIVE has written it. -/
theorem Deriving.intn_set (h : Deriving c l s) (hc : LegalHeader c) :
    TableHolds
      (s.intn.setIfInBounds s.lidx.toNat (BitVec.ofNat 9 ((internalCounts (decoding c)).getD l 0)))
      (internalCounts (decoding c)) l c.counts.length := by
  have hintn := entry_lt s.intn (s.lidx.toNat + 1)
  have hleaves := entry_lt s.leaves (s.lidx.toNat + 1)
  have hfits : (internalCounts (decoding c)).getD l 0 < 2 ^ 9 := by
    have hcount := h.count hc
    omega
  have hlidx := h.lidx
  refine h.intn.set (h.lidx_lt hc) ?_ fun k _ _ _ => by omega
  rw [hlidx]
  exact toNat_ofNat_of_eq rfl hfits

/-- The steps of BUILD, one a level. -/
theorem Deriving.buildsIn (h : Deriving c l s) (hc : LegalHeader c) : BuildsIn c (l + 1) [] s := by
  induction l generalizing s with
  | zero =>
    have hanswer := (deriveComputesOneInternalCount s _ (h.lidx_lt hc) (h.count hc)).1 h.lidx
    have hintn := h.intn_set hc
    rw [h.lidx] at hintn
    exact .of_exec (i := .derive) (fun hrst => ⟨hrst, h.phase⟩) hanswer rfl
      ⟨rfl, rfl, rfl, rfl⟩ (Complete.buildsIn
        { phase := rfl, depth := h.depth, leaves := h.leaves, intn := hintn, offs := h.offs
          eobix := h.eobix, stored := h.stored, root := ⟨rfl, rfl, rfl, rfl⟩ })
  | succ l ih =>
    have hlidx := h.lidx
    have hlevel := h.level
    have hle := hc.le
    have hanswer := (deriveComputesOneInternalCount s _ (h.lidx_lt hc) (h.count hc)).2 (by omega)
    exact .of_exec (i := .derive) (fun hrst => ⟨hrst, h.phase⟩) hanswer rfl
      ⟨rfl, rfl, rfl, rfl⟩ (ih
        { phase := h.phase, depth := h.depth, level := by omega
          lidx := toNat_ofNat_of_eq (by omega) (by omega)
          leaves := h.leaves, intn := h.intn_set hc, offs := h.offs, eobix := h.eobix
          stored := h.stored })

/-! ### EOB_ACCOUNT: the EOB's slot (40_tree_builder.md R117) -/

/-- In EOB_ACCOUNT: all symbols are stored. -/
structure Stored (c : Container) (s : State) : Prop where
  phase : s.phase = 6#4
  depth : s.depth.toNat = c.counts.length
  leaves : TableHolds s.leaves (reserved c) 0 c.counts.length
  offs : TableHolds s.offs (offsets 0 (transmitted c)) 0 c.counts.length
  cursor : s.cur.toNat = c.total + 1
  stored : ∀ a, a ≤ c.total → lookup s.mem a = c.symbols[a]?

/-- The step of EOB_ACCOUNT. -/
theorem Stored.buildsIn (h : Stored c s) (hc : LegalHeader c) :
    BuildsIn c (c.counts.length + 1) [] s := by
  obtain ⟨l, hl⟩ := hc.exists_deepest
  have hle := hc.le
  have htotal := hc.total
  have hcount := h.leaves.entry_le_sum length_reserved (l := l) (by omega)
  rw [hc.sum_reserved] at hcount
  have hanswer := eobaccAccountsForTheEobSlot s l (hl.trans h.depth.symm) (by omega) (by omega)
  have hleaves := h.leaves.bump length_reserved hl (by omega) (by omega)
  rw [addToDeepest_reserved] at hleaves
  rw [← hl]
  exact .of_exec (i := .eobacc) (fun hrst => ⟨hrst, h.phase⟩) hanswer rfl
    ⟨rfl, rfl, rfl, rfl⟩ (Deriving.buildsIn (l := l)
      { phase := rfl, depth := h.depth, level := by omega
        lidx := toNat_ofNat_of_eq rfl (by omega)
        leaves := hleaves, intn := fun k _ _ => by omega
        offs := h.offs, eobix := h.cursor, stored := h.stored } hc)

/-! ### SYMTAB: the symbols, level by level (40_tree_builder.md R115, R116) -/

/-- In SYMTAB at level l: the symbols before CUR are stored and REM are left of the level. -/
structure Storing (c : Container) (l : Nat) (s : State) : Prop where
  phase : s.phase = 5#4
  depth : s.depth.toNat = c.counts.length
  lidx : s.lidx.toNat = l
  level : l < c.counts.length
  leaves : TableHolds s.leaves (reserved c) 0 c.counts.length
  offs : TableHolds s.offs (offsets 0 (transmitted c)) 0 (l + 1)
  cursor : s.cur.toNat + s.rem.toNat = ((reserved c).take (l + 1)).sum
  stored : ∀ a, a < s.cur.toNat → lookup s.mem a = c.symbols[a]?

theorem Storing.cursor_le (h : Storing c l s) (hc : LegalHeader c) :
    s.cur.toNat + s.rem.toNat ≤ c.total + 1 :=
  h.cursor.trans_le ((sum_take_le _ _).trans_eq hc.sum_reserved)

/-- The deepest level ends with all S + 1 symbols (40_tree_builder.md R114). -/
theorem Storing.cursor_deepest (h : Storing c l s) (hc : LegalHeader c)
    (hl : l + 1 = c.counts.length) : s.cur.toNat + s.rem.toNat = c.total + 1 := by
  rw [h.cursor, hl, List.take_of_length_le (Nat.le_of_eq length_reserved), hc.sum_reserved]

/-- RD_SYM of the container's next symbol. -/
theorem Storing.rdSym_next (h : Storing c l s) (hc : LegalHeader c) (hrem : 0 < s.rem.toNat)
    {m : Memory} (hsame : lookup m s.cur.toNat = c.symbols[s.cur.toNat]?)
    (hother : ∀ a, a ≠ s.cur.toNat → lookup m a = lookup s.mem a) (input : List Tok) :
    Storing c l (tick { s with
      input := input, mem := m, cur := BitVec.ofNat 9 (s.cur.toNat + 1)
      rem := BitVec.ofNat 9 (s.rem.toNat - 1) }) := by
  have hle := h.cursor_le hc
  have htotal := hc.total
  have hcursor := h.cursor
  have hcur : (BitVec.ofNat 9 (s.cur.toNat + 1)).toNat = s.cur.toNat + 1 :=
    toNat_ofNat_of_eq rfl (by omega)
  have hleft : (BitVec.ofNat 9 (s.rem.toNat - 1)).toNat = s.rem.toNat - 1 :=
    toNat_ofNat_of_eq rfl (by omega)
  refine
    { phase := h.phase, depth := h.depth, lidx := h.lidx, level := h.level, leaves := h.leaves
      offs := h.offs, cursor := ?_, stored := fun a ha => ?_ }
  · show (BitVec.ofNat 9 (s.cur.toNat + 1)).toNat + (BitVec.ofNat 9 (s.rem.toNat - 1)).toNat = _
    omega
  · rcases Nat.lt_succ_iff_lt_or_eq.mp (hcur ▸ ha) with ha | rfl
    · exact (hother a (Nat.ne_of_lt ha)).trans (h.stored a ha)
    · exact hsame

/-- At the end of a level CUR is the sum of the transmitted counts so far: the next offset. -/
theorem Storing.symNext_next (h : Storing c l s) (hc : LegalHeader c) (hrem : s.rem.toNat = 0)
    (hl : l + 1 < c.counts.length) :
    Storing c (l + 1) (tick { s with
      lidx := BitVec.ofNat 5 (s.lidx.toNat + 1)
      offs := s.offs.setIfInBounds (s.lidx.toNat + 1) s.cur
      rem := BitVec.ofNat 9 (entry s.leaves (s.lidx.toNat + 1)) }) := by
  have hle := hc.le
  have hcursor := h.cursor
  rw [hrem, Nat.add_zero] at hcursor
  refine
    { phase := h.phase, depth := h.depth, level := hl, leaves := h.leaves, stored := h.stored
      lidx := toNat_ofNat_of_eq (by rw [h.lidx]) (by omega), offs := ?_, cursor := ?_ }
  · rw [h.lidx]
    refine h.offs.set (by omega) ?_ fun k _ _ _ => by omega
    rw [hcursor, reserved, take_addToDeepest 1 (by simpa using hl),
      getD_offsets 0 (by simpa using hl), Nat.zero_add]
  · rw [sum_take_succ_getD (by simpa using hl), ← hcursor, ← h.leaves _ (Nat.zero_le _) hl,
      ← h.lidx]
    exact congrArg (s.cur.toNat + ·) (ofNat_entry_toNat _ _)

/-- A run in SYMTAB begins with RD_SYM while symbols of the level are left. -/
theorem Storing.buildsIn_of_rdSym (h : Storing c l s) (hc : LegalHeader c) (hrem : 0 < s.rem.toNat)
    (hnext : ∀ t, Storing c l t → t.cur.toNat = s.cur.toNat + 1 →
      BuildsIn c n (c.symbols.drop t.cur.toNat) t) :
    BuildsIn c (n + 1) (c.symbols.drop s.cur.toNat) s := by
  have hle := h.cursor_le hc
  have htotal := hc.total
  have hmore : s.cur.toNat < c.symbols.length := by
    rw [hc.symbols]
    omega
  have hcur : (BitVec.ofNat 9 (s.cur.toNat + 1)).toNat = s.cur.toNat + 1 :=
    toNat_ofNat_of_eq rfl (by omega)
  obtain ⟨m, hanswer, hsame, hother⟩ :=
    (rdSymStoresOneSymbol s).1 c.symbols[s.cur.toNat] (by omega) hrem
  have hstored := h.rdSym_next hc hrem (hsame.trans (List.getElem?_eq_getElem hmore).symm) hother
    s.input.tail
  rw [List.drop_eq_getElem_cons hmore, ← hcur]
  exact .of_take (i := .rdSym _)
    (fun hrst htok => ⟨hrst, h.phase, decide_eq_true hrem, htok⟩) hanswer rfl
    ⟨rfl, rfl, rfl, rfl⟩ (hnext _ hstored hcur)

theorem Storing.rowSelects_symNext (h : Storing c l s) (hrem : s.rem.toNat = 0)
    (hrst : s.pins.rst = false) : RowSelects (opWord s) .symNext :=
  ⟨hrst, h.phase, decide_eq_false (Nat.not_lt.mpr (Nat.le_of_eq hrem))⟩

/-- A run in SYMTAB begins with SYM_NEXT after the last symbol of a level. -/
theorem Storing.buildsIn_of_symNext (h : Storing c l s) (hc : LegalHeader c)
    (hrem : s.rem.toNat = 0) (hl : l + 1 < c.counts.length)
    (hnext : ∀ t, Storing c (l + 1) t → t.cur = s.cur → BuildsIn c n bs t) :
    BuildsIn c (n + 1) bs s := by
  have hle := hc.le
  have hlidx := h.lidx
  have hdepth := h.depth
  have hanswer := (symNextMovesToTheNextLevel s).2 (by omega) (by omega)
  exact .of_exec (h.rowSelects_symNext hrem) hanswer rfl ⟨rfl, rfl, rfl, rfl⟩
    (hnext _ (h.symNext_next hc hrem hl) rfl)

/-- After the last symbol of the deepest level SYM_NEXT ends SYMTAB. -/
theorem Storing.buildsIn_of_deepest (h : Storing c l s) (hc : LegalHeader c)
    (hrem : s.rem.toNat = 0) (hl : l + 1 = c.counts.length) :
    BuildsIn c (c.counts.length + 1 + 1) (c.symbols.drop s.cur.toNat) s := by
  have hcur := h.cursor_deepest hc hl
  rw [hrem, Nat.add_zero] at hcur
  have hoffs := h.offs
  rw [hl] at hoffs
  have hanswer := (symNextMovesToTheNextLevel s).1 (by rw [h.lidx, h.depth, hl])
  rw [List.drop_eq_nil_of_le (by rw [hc.symbols, hcur])]
  exact .of_exec (h.rowSelects_symNext hrem) hanswer rfl ⟨rfl, rfl, rfl, rfl⟩ (Stored.buildsIn
    { phase := rfl, depth := h.depth, leaves := h.leaves, offs := hoffs, cursor := hcur
      stored := fun a ha => h.stored a (hcur ▸ Nat.lt_succ_of_le ha) } hc)

/-- The steps of SYMTAB: one a symbol and one a level, k of them left. -/
theorem Storing.buildsIn {k : Nat} (h : Storing c l s) (hc : LegalHeader c)
    (hk : s.cur.toNat + l + k = c.total + 1 + c.counts.length) :
    BuildsIn c (c.counts.length + 1 + k) (c.symbols.drop s.cur.toNat) s := by
  have hcursor := h.cursor_le hc
  have hlevel := h.level
  induction k generalizing l s with
  | zero => omega
  | succ k ih =>
    rcases Nat.eq_zero_or_pos s.rem.toNat with hrem | hrem
    · by_cases hlast : l + 1 = c.counts.length
      · have hcur := h.cursor_deepest hc hlast
        obtain rfl : k = 0 := by omega
        exact h.buildsIn_of_deepest hc hrem hlast
      · refine h.buildsIn_of_symNext hc hrem (by omega) fun t ht hcur => ?_
        rw [← hcur] at hk ⊢
        exact ih ht (by omega) (ht.cursor_le hc) ht.level
    · exact h.buildsIn_of_rdSym hc hrem fun t ht hcur =>
        ih ht (by omega) (ht.cursor_le hc) ht.level

/-! ### SUM_CHECK and EOB_RESERVE (40_tree_builder.md R113, R114) -/

/-- After HDR_COUNTS: the counts are read and summed. -/
structure Summed (c : Container) (s : State) : Prop where
  depth : s.depth.toNat = c.counts.length
  sum : s.sum.toNat = c.total
  leaves : TableHolds s.leaves (transmitted c) 0 c.counts.length

theorem Summed.count_le (h : Summed c s) (hl : l < c.counts.length) : entry s.leaves l ≤ c.total :=
  h.leaves.entry_le_sum length_transmitted hl

/-- EOBRES: no symbol is stored yet, and REM is the first of the counts the symbols are read by. -/
theorem Summed.eobres_next (h : Summed c s) (hc : LegalHeader c) (hl : l + 1 = c.counts.length) :
    Storing c 0 (tick { s with
      leaves := s.leaves.setIfInBounds l (BitVec.ofNat 9 (entry s.leaves l + 1))
      lidx := 0#5, cur := 0#9, offs := s.offs.setIfInBounds 0 0#9
      rem := BitVec.ofNat 9 (if l = 0 then entry s.leaves 0 + 1 else entry s.leaves 0)
      phase := 5#4 }) := by
  have hle := hc.le
  have htotal := hc.total
  have hroom : entry s.leaves l < 511 := (h.count_le (by omega)).trans_lt (by omega)
  have hleaves : TableHolds _ (reserved c) 0 c.counts.length :=
    h.leaves.bump length_transmitted hl (by omega) hroom
  have hrem : (if l = 0 then entry s.leaves 0 + 1 else entry s.leaves 0) = (reserved c).getD 0 0 :=
    (entry_zero_of_bump (by omega) hroom).symm.trans (hleaves 0 (Nat.le_refl 0) hc.pos)
  have hfits : (reserved c).getD 0 0 < 2 ^ 9 := hleaves 0 (Nat.le_refl 0) hc.pos ▸ entry_lt _ 0
  refine
    { phase := rfl, depth := h.depth, lidx := rfl, level := hc.pos, leaves := hleaves, offs := ?_
      cursor := ?_, stored := fun a ha => absurd ha (Nat.not_lt_zero a) }
  · have hnone : TableHolds s.offs (offsets 0 (transmitted c)) 0 0 := fun _ _ hk => by omega
    refine hnone.set (by decide) ?_ fun k _ _ _ => by omega
    rw [getD_offsets 0 (by rw [length_transmitted]; exact hc.pos)]
    rfl
  · rw [sum_take_succ_getD (by rw [length_reserved]; exact hc.pos)]
    exact congrArg (0 + ·) (toNat_ofNat_of_eq hrem hfits)

/-- The step of EOB_RESERVE. -/
theorem Summed.buildsIn_of_eobReserve (h : Summed c s) (hc : LegalHeader c) (hp : s.phase = 4#4) :
    BuildsIn c (c.counts.length + 1 + (c.total + 1 + c.counts.length) + 1) c.symbols s := by
  obtain ⟨l, hl⟩ := hc.exists_deepest
  have hle := hc.le
  have htotal := hc.total
  have hcount := h.count_le (l := l) (by omega)
  have hanswer := eobresReservesTheExtraSlot s l (hl.trans h.depth.symm) (by omega) (by omega)
  exact .of_exec (i := .eobres) (fun hrst => ⟨hrst, hp⟩) hanswer rfl
    ⟨rfl, rfl, rfl, rfl⟩ ((h.eobres_next hc hl).buildsIn hc (Nat.zero_add _))

/-- The step of SUM_CHECK, which a legal header passes. -/
theorem Summed.buildsIn_of_sumCheck (h : Summed c s) (hc : LegalHeader c) (hp : s.phase = 3#4) :
    BuildsIn c (c.counts.length + 1 + (c.total + 1 + c.counts.length) + 1 + 1) c.symbols s := by
  have hanswer := (sumchkRaisesAboveTwoHundredFiftySix s).2
    (by rw [h.sum]; exact Nat.succ_le_succ hc.total)
  exact .of_exec (i := .sumchk) (fun hrst => ⟨hrst, hp⟩) hanswer rfl
    ⟨rfl, rfl, rfl, rfl⟩ (Summed.buildsIn_of_eobReserve ⟨h.depth, h.sum, h.leaves⟩ hc rfl)

/-! ### HDR_COUNTS and HDR_DEPTH (40_tree_builder.md R111, R112) -/

/-- In HDR_COUNTS at level l: the counts before it are read and summed. -/
structure ReadingCounts (c : Container) (l : Nat) (s : State) : Prop where
  phase : s.phase = 2#4
  depth : s.depth.toNat = c.counts.length
  lidx : s.lidx.toNat = l
  level : l < c.counts.length
  sum : s.sum.toNat = ((transmitted c).take l).sum
  leaves : TableHolds s.leaves (transmitted c) 0 l

/-- The count read next is the container's. -/
theorem ReadingCounts.leaves_set (h : ReadingCounts c l s) (hc : LegalHeader c) :
    TableHolds
      (s.leaves.setIfInBounds s.lidx.toNat (BitVec.ofNat 9 (c.counts[l]'h.level).toNat))
      (transmitted c) 0 (l + 1) := by
  have hlidx := h.lidx
  have hlevel := h.level
  have hle := hc.le
  have hbyte := (c.counts[l]'h.level).isLt
  refine h.leaves.set (by omega) ?_ fun k _ _ _ => by omega
  rw [hlidx, getD_transmitted hlevel]
  exact toNat_ofNat_of_eq rfl (by omega)

theorem ReadingCounts.sum_add (h : ReadingCounts c l s) :
    s.sum.toNat + (c.counts[l]'h.level).toNat = ((transmitted c).take (l + 1)).sum := by
  rw [sum_take_succ_getD (by simpa using h.level), ← h.sum, getD_transmitted h.level]

/-- The steps of HDR_COUNTS, one a level, k of them left. -/
theorem ReadingCounts.buildsIn {k : Nat} (h : ReadingCounts c l s) (hc : LegalHeader c)
    (hk : l + k = c.counts.length) :
    BuildsIn c (c.counts.length + 1 + (c.total + 1 + c.counts.length) + 1 + 1 + k)
      (c.counts.drop l ++ c.symbols) s := by
  have hle := hc.le
  have htotal := hc.total
  induction k generalizing l s with
  | zero => exact absurd hk (Nat.ne_of_lt h.level)
  | succ k ih =>
    have hlevel := h.level
    have hlidx := h.lidx
    have hsum := h.sum_add
    have hbound : ((transmitted c).take (l + 1)).sum ≤ c.total := sum_take_le _ _
    have hsum' : (BitVec.ofNat 13 (s.sum.toNat + c.counts[l].toNat)).toNat =
        ((transmitted c).take (l + 1)).sum := toNat_ofNat_of_eq hsum (by omega)
    have hleaves := h.leaves_set hc
    have hrow (hrst : s.pins.rst = false)
        (htok : ∃ k, offered s = some k ∧ TokenIs k (.byte c.counts[l])) :
        RowSelects (opWord s) (.rdCount (.byte c.counts[l])) :=
      ⟨hrst, h.phase, htok⟩
    obtain ⟨hdeepest, hinner, _⟩ := rdCountReadsOneLeafCount s
    rw [List.drop_eq_getElem_cons hlevel, List.cons_append]
    by_cases hlast : l + 1 = c.counts.length
    · obtain rfl : k = 0 := by omega
      have hanswer := hdeepest c.counts[l] (by omega) (by omega) (by rw [h.depth, hlidx, hlast])
      rw [List.drop_eq_nil_of_le (by omega), List.nil_append]
      rw [hlast, List.take_of_length_le (Nat.le_of_eq length_transmitted)] at hsum'
      rw [hlast] at hleaves
      exact .of_take hrow hanswer rfl ⟨rfl, rfl, rfl, rfl⟩
        (Summed.buildsIn_of_sumCheck ⟨h.depth, hsum', hleaves⟩ hc rfl)
    · have hanswer := hinner c.counts[l] (by omega) (by omega) (by rw [h.depth, hlidx]; exact hlast)
      exact .of_take hrow hanswer rfl ⟨rfl, rfl, rfl, rfl⟩ (ih
        { phase := h.phase, depth := h.depth, level := by omega
          lidx := toNat_ofNat_of_eq (by omega) (by omega), sum := hsum', leaves := hleaves }
        (by omega))

/-- The step of HDR_DEPTH: the whole run. -/
theorem buildsIn_of_hdrDepth (hc : LegalHeader c) (hp : s.phase = 1#4) :
    BuildsIn c (c.counts.length + 1 + (c.total + 1 + c.counts.length) + 1 + 1 + c.counts.length + 1)
      (BitVec.ofNat 8 c.counts.length :: (c.counts ++ c.symbols)) s := by
  have hpos := hc.pos
  have hle := hc.le
  have hbyte : (BitVec.ofNat 8 c.counts.length).toNat = c.counts.length :=
    toNat_ofNat_of_eq rfl (by omega)
  have hanswer := (rdDepthReadsTheTreeDepth s).1 (BitVec.ofNat 8 c.counts.length) (by omega)
    (by omega)
  exact .of_take (i := .rdDepth _) (fun hrst htok => ⟨hrst, hp, htok⟩) hanswer rfl
    ⟨rfl, rfl, rfl, rfl⟩ (ReadingCounts.buildsIn (l := 0)
      { phase := rfl, depth := toNat_ofNat_of_eq hbyte (by omega), lidx := rfl, level := hpos
        sum := rfl, leaves := fun k _ hk => absurd hk (Nat.not_lt_zero k) } hc (Nat.zero_add _))

/-- The tables a run ends with, as plain numbers, are the descriptor of the header. -/
theorem Complete.descriptorOf_eq (h : Complete c s) (hc : LegalHeader c) :
    descriptorOf s = { Descriptor.ofContainer c with symbols := [] } := by
  have hdecoding := h.leaves.toNat_take length_decoding.symm hc.le
  have hintn := h.intn.toNat_take (by simp [length_internalCounts]) hc.le
  have hoffs := h.offs.toNat_take (by simp [length_offsets]) hc.le
  simp only [descriptorOf, h.depth, h.eobix, hdecoding, hintn, hoffs]
  rfl

end

/-- Settles O45: the steps of each phase lead to the next phase with what it needs of the header, so
the run from HDR_DEPTH ends in DECODE, and the tables' numbers are the header's descriptor. -/
theorem builderBuildsTheDescriptor : Obligations.BuilderBuildsTheDescriptor := by
  intro c s rest later hwf hphase herr hinput hschedule
  have hc := legalHeader_of_wellFormed hwf
  have hsteps : c.total + 3 * c.counts.length + 5 =
      c.counts.length + 1 + (c.total + 1 + c.counts.length) + 1 + 1 + c.counts.length + 1 := by
    omega
  rw [hsteps] at hschedule ⊢
  obtain ⟨t, hrun, hterr, htinput, htschedule, hcount, houtput, hdone⟩ :=
    buildsIn_of_hdrDepth hc hphase rest later herr hinput hschedule
  obtain ⟨hlvl, hcode, hbl, hopend⟩ := hdone.root
  exact ⟨t, hrun, hdone.phase, hterr, htinput, htschedule, hdone.depth, hdone.descriptorOf_eq hc,
    hdone.stored, hlvl, hcode, hbl, hopend, hcount, houtput⟩

end Sys2Proof.Machine

/-! PROOFS. The bit walker family: what FETCH, BIT and EMIT answer (41_bit_walker.md R141 to R143), what
BIT does at a node of a built descriptor (R147 to R151), the decoding of concatenated codes (R146,
R153), and a session's independence of what the block held before it (R152). -/

namespace Sys2Proof.Machine

/-! ### Each operation of the walker -/

/-- Settles O19: the token's three cases. -/
theorem fetchLoadsTheNextByte : Obligations.FetchLoadsTheNextByte :=
  fun _ => ⟨fun _ => rfl, rfl, rfl⟩

/-- Settles O21: the overflow test, then the consumer's answer. -/
theorem emitHandsOneByteToTheConsumer : Obligations.EmitHandsOneByteToTheConsumer := by
  refine fun s => ⟨fun hmax => if_pos hmax, fun hne hready => ?_, fun hne hready herr => ?_,
    fun hlt hready herr => ?_⟩
  · simp only [exec, execEmit, Config.maxCount, hne, if_false, putAnswer, hready,
      Bool.false_eq_true]
  · simp only [exec, execEmit, Config.maxCount, hne, if_false, putAnswer, hready, herr, if_true]
    rfl
  · simp only [exec, execEmit, Config.maxCount, Nat.ne_of_lt hlt, if_false, putAnswer, hready, herr,
      if_true, Bool.false_eq_true, hlt]
    rfl

theorem shiftSr_eq_ofNat (sr : Byte) : shiftSr sr = BitVec.ofNat 8 (2 * sr.toNat) := by
  rw [shiftSr, ← BitVec.toNat_inj, BitVec.toNat_shiftLeft, BitVec.toNat_ofNat, Nat.shiftLeft_eq,
    Nat.pow_one, Nat.mul_comm]

/-- The state with a bit moved from SR to CODE, the code being c then (41_bit_walker.md R142). -/
def consumed (s : State) (c : Nat) : State :=
  { s with
    sr := BitVec.ofNat 8 (2 * s.sr.toNat), bl := BitVec.ofNat 4 (s.bl.toNat - 1)
    code := BitVec.ofNat 9 c }

section
variable {s : State} {b : Bool} {c idx : Nat}

/-- BIT where its register writes fit: the code decides between a node below and a leaf. -/
theorem execBit_eq (hbl : 0 < s.bl.toNat) (hcode : s.code.toNat ≤ 255) (hlvl : s.lvl.toNat < 24)
    (hc : c = 2 * s.code.toNat + b.toNat) :
    execBit b s =
      if c < entry s.intn s.lvl.toNat then
        if s.depth.toNat < s.lvl.toNat + 2 then .next (failedWith 5#4 s)
        else .next { consumed s c with lvl := BitVec.ofNat 5 (s.lvl.toNat + 1) }
      else resolveLeaf s (consumed s c) (c - entry s.intn s.lvl.toNat) := by
  have hb := b.toNat_le
  have hfits : c < 2 ^ 9 := by omega
  simp only [execBit, decrement_eq_ofNat hbl, shiftCode, ← hc, narrow_of_lt hfits,
    readLevel_eq_ofNat_entry _ hlvl, need_some, ofNat_entry_toNat, toNat_ofNat_of_eq rfl hfits,
    shiftSr_eq_ofNat, add_one_eq_ofNat]
  rfl

/-- The leaf branch at a level of the tables: the index, then the leaf's address decide. -/
theorem resolveLeaf_eq (s1 : State) (hlvl : s.lvl.toNat < 24) :
    resolveLeaf s s1 idx =
      if entry s.leaves s.lvl.toNat ≤ idx then .next (failedWith 5#4 s)
      else if entry s.offs s.lvl.toNat + idx = s.eobix.toNat then .next { s1 with phase := 9#4 }
      else need .symbolAddress (memRead s (entry s.offs s.lvl.toNat + idx)) fun v =>
        .next { s1 with obuf := v, opend := true, lvl := 0#5, code := 0#9 } := by
  simp only [resolveLeaf, readLevel_eq_ofNat_entry _ hlvl, need_some, ofNat_entry_toNat]
  rfl

end

/-- Settles O20: the code is internal to the level or that of a leaf, and the leaf's index and address
decide the rest. -/
theorem bitWalksOneLevel : Obligations.BitWalksOneLevel := by
  intro s b c hbl hcode hlvl hc
  have hleaf (idx : Nat) (hidx : c = entry s.intn s.lvl.toNat + idx) :
      exec (.bit b) s = resolveLeaf s (consumed s c) idx := by
    have hnode : ¬c < entry s.intn s.lvl.toNat := by omega
    have hdiff : c - entry s.intn s.lvl.toNat = idx := by omega
    rw [exec, execBit_eq hbl hcode hlvl hc, if_neg hnode, hdiff]
  refine ⟨fun hnode hdepth => ?_, fun hnode hdepth => ?_, fun idx hidx hle => ?_,
    fun idx hidx hlt heob => ?_, fun idx hidx hlt heob h256 => ?_⟩
  · rw [exec, execBit_eq hbl hcode hlvl hc, if_pos hnode, if_neg (Nat.not_lt.mpr hdepth)]
    rfl
  · rw [exec, execBit_eq hbl hcode hlvl hc, if_pos hnode, if_pos hdepth]
    rfl
  · rw [hleaf idx hidx, resolveLeaf_eq _ hlvl, if_pos hle]
    rfl
  · rw [hleaf idx hidx, resolveLeaf_eq _ hlvl, if_neg (Nat.not_le.mpr hlt), if_pos heob]
    rfl
  · refine ⟨(lookup s.mem (entry s.offs s.lvl.toNat + idx)).getD
      (Config.powerOnSymbol (entry s.offs s.lvl.toNat + idx)), fun u hu => ?_, ?_⟩
    · rw [hu, Option.getD_some]
    · rw [hleaf idx hidx, resolveLeaf_eq _ hlvl, if_neg (Nat.not_le.mpr hlt), if_neg heob,
        memRead_eq_some.mpr ⟨h256, rfl⟩, need_some]
      rfl

/-! ### BIT at a node of a built descriptor (41_bit_walker.md R147 to R151) -/

section
variable {s t : State}

/-- A built descriptor has at most 128 internal nodes a level. -/
theorem BuiltFrom.intn_le {n l : Nat} (h : BuiltFrom s n) (hn : n ≤ l) (hl : l < s.depth.toNat) :
    entry s.intn l ≤ 128 := by
  have hbound := h.two_mul_intn_le hn hl
  have htotal := h.total
  omega

/-- No leaf has an address above EOBIX, which is at most 256. -/
theorem Walking.address_le {idx : Nat} (h : Walking s) (hidx : idx < entry s.leaves s.lvl.toNat) :
    entry s.offs s.lvl.toNat + idx ≤ s.eobix.toNat ∧ s.eobix.toNat ≤ 256 := by
  have heob := h.built.eob
  have htotal := h.built.total
  refine ⟨?_, by omega⟩
  by_cases hne : entry s.offs s.lvl.toNat + idx = s.eobix.toNat
  · exact Nat.le_of_eq hne
  · exact Nat.le_of_lt (h.address_lt_eobix hidx hne)

/-- The next code has 8 bits. -/
theorem Walking.nextCode_le (h : Walking s) : nextCode s ≤ 255 := by
  have hcode := h.code_lt
  have hbit := (nextBit s.sr).toNat_le
  rw [nextCode]
  omega

/-- Below the root half of a level's nodes are internal nodes above it, so a walk that descended finds
a node for either bit (41_bit_walker.md R150). -/
theorem Walking.nextCode_lt (h : Walking s) (hl : 0 < s.lvl.toNat) :
    nextCode s < entry s.intn s.lvl.toNat + entry s.leaves s.lvl.toNat := by
  have hlevel := h.level
  have hinner := h.inner hl
  have habove := h.built.internal (s.lvl.toNat - 1) (Nat.zero_le _) (by omega)
  rw [if_neg (by omega), Nat.sub_add_cancel hl] at habove
  have hbit := (nextBit s.sr).toNat_le
  rw [nextCode]
  omega

/-- An internal node has a level below it, so the descend check never fires (41_bit_walker.md R148). -/
theorem Walking.depth_of_internal {c : Nat} (h : Walking s) (hc : c < entry s.intn s.lvl.toNat) :
    s.lvl.toNat + 2 ≤ s.depth.toNat := by
  have hlevel := h.level
  have hinternal := h.built.internal _ (Nat.zero_le _) hlevel
  by_contra hdeep
  rw [if_pos (by omega)] at hinternal
  omega

/-- The next bit leads to a leaf of the level. -/
def AtLeaf (s : State) : Prop :=
  entry s.intn s.lvl.toNat ≤ nextCode s ∧ nextIndex s < entry s.leaves s.lvl.toNat

/-- What BIT does in DECODE (41_bit_walker.md R142 with R148 to R151). -/
inductive BitOutcome (s t : State) : Prop
  | descends (hnode : nextCode s < entry s.intn s.lvl.toNat)
      (ht : t = { consumed s (nextCode s) with lvl := BitVec.ofNat 5 (s.lvl.toNat + 1) })
  | corrupt (hroot : s.lvl.toNat = 0) (hcode : entry s.intn 0 + entry s.leaves 0 ≤ nextCode s)
      (ht : t = failedWith 5#4 s)
  | ends (hleaf : AtLeaf s) (heob : nextAddress s = s.eobix.toNat)
      (ht : t = { consumed s (nextCode s) with phase := 9#4 })
  | resolves (hleaf : AtLeaf s) (haddr : nextAddress s < s.eobix.toNat) (v : Byte)
      (hv : lookup s.mem (nextAddress s) = some v)
      (ht : t = { consumed s (nextCode s) with
        obuf := v, opend := true, lvl := 0#5, code := 0#9 })

/-- A leaf of the walk is the EOB or a stored symbol. -/
theorem Walking.leaf_outcome (h : Walking s) (hleaf : AtLeaf s) :
    ∃ t, resolveLeaf s (consumed s (nextCode s)) (nextIndex s) = .next t ∧ BitOutcome s t := by
  have ⟨_, hidx⟩ := hleaf
  have hlevel := h.level
  have hdepth := h.built.depth.2
  rw [resolveLeaf_eq _ (by omega), if_neg (Nat.not_le.mpr hidx)]
  split
  · next heob => exact ⟨_, rfl, .ends hleaf heob rfl⟩
  · next heob =>
    have haddr : nextAddress s < s.eobix.toNat := h.address_lt_eobix hidx heob
    obtain ⟨_, h256⟩ := h.address_le hidx
    obtain ⟨v, hv⟩ := Option.isSome_iff_exists.mp (h.built.stored _ haddr)
    have hread : memRead s (nextAddress s) = some v :=
      memRead_of_lookup (haddr.trans_le h256) hv
    rw [nextAddress] at hread
    rw [hread]
    exact ⟨_, rfl, .resolves hleaf haddr v hv rfl⟩

/-- BIT answers with one of its outcomes wherever the invariant selects it. -/
theorem Walking.bit_outcome (h : Walking s) (hbl : 0 < s.bl.toNat) :
    ∃ t, exec (.bit (nextBit s.sr)) s = .next t ∧ BitOutcome s t := by
  have hcode := h.code_lt
  have hlevel := h.level
  have hdepth := h.built.depth.2
  have hlvl : s.lvl.toNat < 24 := by omega
  rw [exec, execBit_eq (c := nextCode s) hbl (by omega) hlvl rfl]
  split
  · next hnode =>
    rw [if_neg (Nat.not_lt.mpr (h.depth_of_internal hnode))]
    exact ⟨_, rfl, .descends hnode rfl⟩
  · next hnode =>
    have hnode : entry s.intn s.lvl.toNat ≤ nextCode s := Nat.le_of_not_lt hnode
    by_cases hidx : nextIndex s < entry s.leaves s.lvl.toNat
    · exact h.leaf_outcome ⟨hnode, hidx⟩
    · have hover : entry s.intn s.lvl.toNat + entry s.leaves s.lvl.toNat ≤ nextCode s := by
        rw [nextIndex] at hidx
        omega
      have hroot : s.lvl.toNat = 0 := by
        by_contra hl
        exact absurd (h.nextCode_lt (Nat.pos_of_ne_zero hl)) (Nat.not_lt.mpr hover)
      have hpast : entry s.leaves s.lvl.toNat ≤ nextCode s - entry s.intn s.lvl.toNat :=
        Nat.le_of_not_lt hidx
      rw [resolveLeaf_eq _ hlvl, if_pos hpast]
      rw [hroot] at hover
      exact ⟨_, rfl, .corrupt hroot hover rfl⟩

/-- The outcome of a BIT selected in a state of the invariant. -/
theorem Inv.bit_outcome {b : Bool} (h : Inv s) (hsel : select s = .run (.bit b))
    (ht : exec (.bit b) s = .next t) : BitOutcome s t := by
  obtain ⟨_, hp, _, hbl, rfl⟩ := selectedIn_of_select hsel
  obtain ⟨u, hu, houtcome⟩ := (show Walking s from h.promise (p := .decode) hp).bit_outcome hbl
  cases hu.symm.trans ht
  exact houtcome

/-- Only BIT raises CorruptStream (60_exceptions.md R193). -/
theorem eq_bit_of_raises_corrupt {i : Instr} (h : 5#4 ∈ raisable i) : ∃ b, i = .bit b := by
  cases i <;> simp_all [raisable]

/-- Among the operations selected in DECODE only BIT makes a byte pending. -/
theorem eq_bit_of_opend {i : Instr} (hsel : SelectedIn s i) (hp : s.phase = 8#4)
    (hopend : s.opend = false) (he : exec i s = .next t) (ht : t.opend = true) :
    ∃ b, i = .bit b := by
  rcases hsel.of_decoding (.inl hp) with (rfl | rfl) | rfl | ⟨tok, rfl⟩ | ⟨b, rfl⟩
  · cases he
    cases ht
  · cases he
    cases ht
  · obtain ⟨_, _, hpending⟩ := hsel
    exact absurd (hpending.symm.trans hopend) (by decide)
  · have hkept : t.opend = s.opend := (congrArg State.opend (exec_writesOnly he) :)
    exact absurd (ht.symm.trans (hkept.trans hopend)) (by decide)
  · exact ⟨b, rfl⟩

/-- Only BIT enters DONE (42_descriptor_lifecycle.md R173). -/
theorem eq_bit_of_done_mem {i : Instr} (h : .done ∈ phasesEntered i) : ∃ b, i = .bit b := by
  cases i <;> simp_all

/-- The leaf at EOBIX is the last of the deepest level: any other level has the EOB's leaf and the one
before it below itself. -/
theorem Walking.deepest_of_eob {idx : Nat} (h : Walking s)
    (hidx : idx < entry s.leaves s.lvl.toNat)
    (heob : entry s.offs s.lvl.toNat + idx = s.eobix.toNat) :
    s.lvl.toNat + 1 = s.depth.toNat ∧ idx + 1 = entry s.leaves s.lvl.toNat := by
  have hlevel := h.level
  have hoffs := h.built.offsets _ hlevel
  have hsum := entrySum_succ s.leaves s.lvl.toNat
  have hend := h.built.eob
  have hdeepest := h.built.deepest
  have hlast := entrySum_succ s.leaves (s.depth.toNat - 1)
  rw [Nat.sub_add_cancel h.built.depth.1] at hlast
  have hl : s.lvl.toNat + 1 = s.depth.toNat := by
    by_contra hne
    have hmono : entrySum s.leaves (s.lvl.toNat + 1) ≤ entrySum s.leaves (s.depth.toNat - 1) :=
      entrySum_mono (by omega)
    omega
  rw [hl] at hsum
  exact ⟨hl, by omega⟩

end

/-- Settles O38: two nodes below each internal node, and 257 leaves at most. -/
theorem builtDescriptorBounds : Obligations.BuiltDescriptorBounds := by
  refine ⟨fun s h l hl => h.intn_le (Nat.zero_le l) hl, fun s h hp _ _ => ?_⟩
  have hwalk : Walking s := h.promise (p := .decode) hp
  have hcode := hwalk.nextCode_le
  refine ⟨hcode, (Nat.sub_le _ _).trans hcode, fun _ hidx => ?_⟩
  obtain ⟨heob, h256⟩ := hwalk.address_le hidx
  exact heob.trans h256

/-- Settles O39: an ERR of 5 is a raise of BIT, and of its outcomes in DECODE only one raises. -/
theorem corruptStreamOnlyAtAnUnderfullRoot :
    Obligations.CorruptStreamOnlyAtAnUnderfullRoot := by
  intro s t hinv hp hstep herr
  have hzero : s.err = 0#4 := hinv.err_zero (p := .decode) hp (by decide)
  have hwalk : Walking s := hinv.promise (p := .decode) hp
  rcases step_cases hstep with ⟨i, t', hsel, he, rfl⟩ | ⟨_, rfl⟩
  · rcases exec_errEffect he with ⟨c, hc, ht'⟩ | ⟨_, hclear, _⟩ | ⟨hkept, _⟩
    · obtain rfl : c = 5#4 := by rw [ht'] at herr; exact herr
      obtain ⟨b, rfl⟩ := eq_bit_of_raises_corrupt hc
      cases hinv.bit_outcome hsel he with
      | corrupt hroot hcode _ =>
        have hcode0 := hwalk.root hroot
        have hbit := (nextBit s.sr).toNat_le
        exact ⟨hroot, hcode, by rw [nextCode]; omega⟩
      | descends _ ht | ends _ _ ht | resolves _ _ _ _ ht =>
        rw [ht] at herr
        exact absurd (herr.symm.trans hzero) (by decide)
    · exact absurd (herr.symm.trans hclear) (by decide)
    · exact absurd (herr.symm.trans (hkept.trans hzero)) (by decide)
  · exact absurd (herr.symm.trans hzero) (by decide)

/-- Settles O40: only BIT makes a byte pending, and of its outcomes in DECODE only a stored symbol's. -/
theorem decodedSymbolWasStored : Obligations.DecodedSymbolWasStored := by
  intro s t hinv hp hopend hstep ht
  rcases step_cases hstep with ⟨i, t', hsel, he, rfl⟩ | ⟨_, rfl⟩
  · obtain ⟨b, rfl⟩ := eq_bit_of_opend (selectedIn_of_select hsel) hp hopend he ht
    cases hinv.bit_outcome hsel he with
    | resolves _ haddr v hv ht' => exact ⟨haddr, by rw [hv, ht']; rfl⟩
    | descends _ ht' | corrupt _ _ ht' | ends _ _ ht' =>
      rw [ht'] at ht
      exact absurd (ht.symm.trans hopend) (by decide)
  · exact absurd (ht.symm.trans hopend) (by decide)

/-- Settles O41: only BIT enters DONE, at the leaf of EOBIX. -/
theorem eobIsReachedAtTheDeepestLevel : Obligations.EobIsReachedAtTheDeepestLevel := by
  intro s t hinv hp hstep ht
  have hnot : s.phase ≠ Phase.done.bits := by simp [hp, Phase.bits]
  have hwalk : Walking s := hinv.promise (p := .decode) hp
  rcases step_cases hstep with ⟨i, t', hsel, he, rfl⟩ | ⟨_, rfl⟩
  · obtain ⟨b, rfl⟩ := eq_bit_of_done_mem (mem_phasesEntered_of_exec (p := .done) he hnot ht)
    cases hinv.bit_outcome hsel he with
    | ends hleaf heob ht' =>
      obtain ⟨hnode, hidx⟩ := hleaf
      obtain ⟨hdeepest, hlast⟩ := hwalk.deepest_of_eob hidx heob
      refine ⟨hdeepest, ?_, by rw [ht']; rfl⟩
      rw [nextIndex] at hlast
      omega
    | corrupt _ _ ht' =>
      rw [ht'] at ht
      exact absurd ht (by simp [failedWith, Phase.bits])
    | descends _ ht' | resolves _ _ _ _ ht' =>
      rw [ht'] at ht
      exact absurd ht hnot
  · exact absurd ht hnot

/-! ### The bits of codes and bytes (30_encoding.md R90, 20_memory.md R65) -/

theorem codeBits_succ (n v : Nat) : codeBits (n + 1) v = v.testBit n :: codeBits n v := by
  simp only [codeBits, List.range_succ_eq_map, List.map_cons, List.map_map]
  refine congrArg (v.testBit n :: ·) (List.map_congr_left fun k _ => ?_)
  rw [Function.comp_apply, Nat.add_sub_cancel, Nat.sub_sub, Nat.add_comm 1 k]

/-- The first bits of a code are a node's, and the next bit leads to the node below it. -/
theorem two_mul_shiftRight_succ_add (v n : Nat) :
    2 * (v >>> (n + 1)) + (v.testBit n).toNat = v >>> n := by
  rw [Nat.toNat_testBit, Nat.shiftRight_succ, ← Nat.shiftRight_eq_div_pow]
  exact Nat.div_add_mod _ _

theorem byteBits_ofNat (v : Nat) : byteBits (BitVec.ofNat 8 v) = codeBits 8 v := by
  refine List.map_congr_left fun k _ => ?_
  have hk : 8 - 1 - k < 8 := by omega
  rw [BitVec.toNat_ofNat, Nat.testBit_mod_two_pow, decide_eq_true hk, Bool.true_and]

/-- The bits of SR are its bit 7 and then those of SR shifted (41_bit_walker.md R142). -/
theorem take_byteBits_succ (b : Byte) {n : Nat} (h : n ≤ 7) :
    (byteBits b).take (n + 1) =
      nextBit b :: (byteBits (BitVec.ofNat 8 (2 * b.toNat))).take n := by
  have hbit : nextBit b = b.toNat.testBit 7 := BitVec.msb_eq_getLsbD_last b
  have hshift : (2 * b.toNat) >>> (8 - n) = b.toNat >>> (7 - n) := by
    rw [show 8 - n = 7 - n + 1 by omega, Nat.shiftRight_succ_inside, Nat.mul_div_cancel_left _ two_pos]
  rw [byteBits_ofNat, take_codeBits _ (by omega), hshift, ← take_codeBits _ h, hbit, byteBits,
    codeBits_succ, List.take_succ_cons]

/-- Input bits come from a byte at the head of the input. -/
theorem exists_byte_of_inputBits {ks : List Tok} (h : inputBits ks ≠ []) :
    ∃ k rest v, ks = k :: rest ∧ TokenIs k (.byte v) ∧
      inputBits ks = byteBits v ++ inputBits rest := by
  cases ks with
  | nil => exact absurd rfl h
  | cons k rest =>
    cases hk : Token.ofBits k with
    | byte v => exact ⟨k, rest, v, rfl, ofBits_eq_iff_tokenIs.mp hk, by rw [inputBits, hk]⟩
    | eod | err => exact absurd (by rw [inputBits, hk]) h

/-- The bit BIT consumes is the first pending one. -/
theorem pendingBits_eq_cons {s : State} (hbl : 0 < s.bl.toNat) (h8 : s.bl.toNat ≤ 8) (c : Nat) :
    pendingBits s = nextBit s.sr :: pendingBits (consumed s c) := by
  obtain ⟨n, hn⟩ : ∃ n, s.bl.toNat = n + 1 := ⟨s.bl.toNat - 1, by omega⟩
  have hleft : (consumed s c).bl.toNat = n := toNat_ofNat_of_eq (by omega) (by omega)
  rw [pendingBits, pendingBits, hn, hleft, take_byteBits_succ s.sr (by omega)]
  rfl

/-! ### The leaves of a state's descriptor (30_encoding.md R90) -/

section
variable {s d u : State} {l i n m c k : Nat} {b : Bool} {bs : List Bool} {y : Byte}
  {ys zs : List Byte} {o : Option Byte}

theorem length_levels (t : Table) (h : n ≤ 24) :
    ((t.toList.take n).map BitVec.toNat).length = n := by
  simp [h]

theorem getD_levels (t : Table) (h : n ≤ 24) (hl : l < n) :
    ((t.toList.take n).map BitVec.toNat).getD l 0 = entry t l := by
  rw [List.getD_eq_getElem _ _ (by rwa [length_levels t h]),
    entry_of_readLevel (readLevel_of_lt (i := l) (by omega))]
  simp

/-- A reachable leaf in terms of the tables: its value fits its code, and the nodes above it
are internal. -/
structure ReachableLeaf (d : State) (l i : Nat) : Prop where
  level : l < d.depth.toNat
  index : i < entry d.leaves l
  fits : entry d.intn l + i < 2 ^ (l + 1)
  inner : ∀ k, k < l → (entry d.intn l + i) >>> (l - k) < entry d.intn k
  code : leafCode (descriptorOf d) l i = codeBits (l + 1) (entry d.intn l + i)

theorem reachableLeaf_of_leafReachable (hd : DepthLegal d)
    (h : leafReachable (descriptorOf d) l i = true) : ReachableLeaf d l i := by
  obtain ⟨_, h24⟩ := hd
  obtain ⟨hindex, hfits, hinner⟩ := leafReachable_iff.mp h
  have hlevel : l < d.depth.toNat := by
    by_contra hl
    have hlength : (descriptorOf d).leaves.length = d.depth.toNat := length_levels d.leaves h24
    rw [List.getD_eq_default _ _ (hlength.trans_le (Nat.le_of_not_lt hl))] at hindex
    exact Nat.not_lt_zero i hindex
  have hintn (k : Nat) (hk : k < d.depth.toNat) : (descriptorOf d).intn.getD k 0 = entry d.intn k :=
    getD_levels d.intn h24 hk
  have hleaves : (descriptorOf d).leaves.getD l 0 = entry d.leaves l :=
    getD_levels d.leaves h24 hlevel
  rw [hintn l hlevel] at hfits hinner
  rw [hleaves] at hindex
  exact
    { level := hlevel, index := hindex, fits := hfits
      inner := fun k hk => hintn k (hk.trans hlevel) ▸ hinner k hk
      code := by rw [leafCode, hintn l hlevel] }

/-- A leaf at another address than EOBIX is a stored symbol (41_bit_walker.md R149, 20_memory.md R75). -/
theorem ReachableLeaf.stored (h : ReachableLeaf d l i) (hd : Built d)
    (hne : entry d.offs l + i ≠ d.eobix.toNat) :
    ∃ y, lookup d.mem (entry d.offs l + i) = some y := by
  have hindex := h.index
  have hoffs := hd.offsets l h.level
  have hsum : entrySum d.leaves (l + 1) ≤ _ := entrySum_mono h.level
  rw [entrySum_succ] at hsum
  have heob := hd.eob
  exact Option.isSome_iff_exists.mp (hd.stored _ (by omega))

/-- The EOB's code is that of the leaf at EOBIX (41_bit_walker.md R151). -/
theorem exists_eobLeaf (hd : Built d) {eob : List Bool}
    (h : eobCode (descriptorOf d) = some eob) :
    ∃ l i, ReachableLeaf d l i ∧ entry d.offs l + i = d.eobix.toNat ∧
      eob = codeBits (l + 1) (entry d.intn l + i) := by
  obtain ⟨hpos, h24⟩ := hd.depth
  obtain ⟨l, hl⟩ : ∃ l, l + 1 = d.depth.toNat := ⟨_, Nat.succ_pred_eq_of_pos hpos⟩
  have hlevel : (descriptorOf d).leaves.length - 1 = l := by
    have hlength : (descriptorOf d).leaves.length = d.depth.toNat := length_levels d.leaves h24
    omega
  have hleaves : (descriptorOf d).leaves.getD l 0 = entry d.leaves l :=
    getD_levels d.leaves h24 (by omega)
  simp only [eobCode, hlevel, hleaves, Option.ite_none_right_eq_some, Option.some.injEq] at h
  obtain ⟨hreach, rfl⟩ := h
  have hleaf := reachableLeaf_of_leafReachable hd.depth hreach
  have hoffs := hd.offsets l hleaf.level
  have heob := hd.eob
  rw [← hl, entrySum_succ] at heob
  have hindex := hleaf.index
  exact ⟨l, _, hleaf, by omega, hleaf.code⟩

/-! ### Runs of the walker to DONE -/

/-- From s, at most n steps of a ready host end the session in DONE with `ys` output and counted, if
OUT_COUNT has room. -/
def DecodesIn (n : Nat) (ys : List Byte) (s : State) : Prop :=
  ∀ later : List Pins, s.schedule = readySchedule n ++ later →
    s.outCount + ys.length < 2 ^ s.cfg.countW →
    ∃ k t, k ≤ n ∧ Host.Core.run core k s = .next t ∧ t.phase = 9#4 ∧ t.err = 0#4 ∧
      t.output = s.output ++ ys ∧ t.outCount = s.outCount + ys.length

/-- More steps of a ready host are no harm. -/
theorem DecodesIn.mono (h : DecodesIn m ys s) (hmn : m ≤ n) : DecodesIn n ys s := by
  intro later hschedule hroom
  have hsplit : readySchedule n = readySchedule m ++ readySchedule (n - m) := by
    rw [readySchedule, readySchedule, readySchedule, List.replicate_append_replicate,
      Nat.add_sub_cancel' hmn]
  rw [hsplit, List.append_assoc] at hschedule
  obtain ⟨k, t, hk, hrun⟩ := h _ hschedule hroom
  exact ⟨k, t, hk.trans hmn, hrun⟩

/-- No operation writes the parameter or the inputs to come. -/
theorem WritesOnly.host_kept {i : Instr} (h : WritesOnly s u i) :
    u.cfg = s.cfg ∧ u.schedule = s.schedule := by
  cases i with
  | reset | start =>
    obtain ⟨hcfg, _, hschedule, _⟩ := h
    exact ⟨hcfg, hschedule⟩
  | rdDepth | sumchk | emit | fetch | bit =>
    exact ⟨(congrArg State.cfg h :), (congrArg State.schedule h :)⟩
  | rdCount | rdSym | symNext | eobacc | derive =>
    obtain ⟨_, hregs⟩ := h
    exact ⟨(congrArg State.cfg hregs :), (congrArg State.schedule hregs :)⟩
  | eobres =>
    obtain ⟨_, _, hregs⟩ := h
    exact ⟨(congrArg State.cfg hregs :), (congrArg State.schedule hregs :)⟩

/-- A run begins with the step of an operation that outputs `zs`. -/
theorem DecodesIn.of_step (herr : s.err.toNat ≤ 9)
    (h : s.pins = Pins.ready → s.outCount + (zs ++ ys).length < 2 ^ s.cfg.countW →
      ∃ i u, RowSelects (opWord s) i ∧ exec i s = .next u ∧ u.output = s.output ++ zs ∧
        u.outCount = s.outCount + zs.length ∧ DecodesIn n ys (tick u)) :
    DecodesIn (n + 1) (zs ++ ys) s := by
  intro later hschedule hroom
  obtain ⟨i, u, hrow, he, hout, hcount, hnext⟩ := h (pins_cons hschedule) hroom
  obtain ⟨hcfg, hkept⟩ := (exec_writesOnly he).host_kept
  have hstep := step_of_rowSelects herr hrow he
  obtain ⟨k, t, hk, hrun, hphase, hterr, htout, htcount⟩ := hnext later
    (by rw [tick_schedule, hkept, hschedule]; rfl)
    (by simpa only [tick_outCount, tick_cfg, hcount, hcfg, List.length_append, Nat.add_assoc]
      using hroom)
  refine ⟨k + 1, t, Nat.succ_le_succ hk, (run_succ_of_step hstep).trans hrun, hphase, hterr, ?_, ?_⟩
  · rw [htout, tick_output, hout, List.append_assoc]
  · rw [htcount, tick_outCount, hcount, List.length_append, Nat.add_assoc]

/-- A run begins with the step of FETCH or BIT. -/
theorem DecodesIn.of_exec {i : Instr} (herr : s.err.toNat ≤ 9)
    (hi : (∃ tok, i = .fetch tok) ∨ ∃ b, i = .bit b)
    (hrow : s.pins = Pins.ready → RowSelects (opWord s) i) (he : exec i s = .next u)
    (h : DecodesIn n ys (tick u)) : DecodesIn (n + 1) ys s := by
  obtain ⟨hout, hcount⟩ : u.output = s.output ∧ u.outCount = s.outCount := by
    rcases hi with ⟨tok, rfl⟩ | ⟨b, rfl⟩ <;>
      exact (exec_writesOnly he).output_kept nofun nofun nofun
  exact DecodesIn.of_step (zs := []) herr fun hpins _ =>
    ⟨i, u, hrow hpins, he, by rw [hout, List.append_nil], hcount, h⟩

/-! ### Where the walker stands -/

/-- The descriptor and the symbol memory of two states agree (10_state.md R43). -/
def SameDescriptor (d s : State) : Prop :=
  s.mem = d.mem ∧ s.depth = d.depth ∧ s.leaves = d.leaves ∧ s.intn = d.intn ∧ s.offs = d.offs ∧
    s.eobix = d.eobix

/-- The walker stands at the node of code c of level l of the descriptor of d, with the bits `bs` before
it and the byte o pending, if any. -/
structure Standing (d : State) (l c : Nat) (bs : List Bool) (o : Option Byte) (s : State) :
    Prop where
  inv : Inv s
  phase : s.phase = 8#4
  lvl : s.lvl.toNat = l
  code : s.code.toNat = c
  bits : pendingBits s = bs
  opend : s.opend = o.isSome
  obuf : ∀ y, o = some y → s.obuf = y
  same : SameDescriptor d s

theorem Standing.walking (h : Standing d l c bs o s) : Walking s :=
  h.inv.promise (p := .decode) h.phase

/-- FETCH brings the next bits into SR; where they are there already it is not needed. -/
theorem Standing.decodesIn_of_loaded (h : Standing d l c (b :: bs) none s)
    (hnext : ∀ u, Standing d l c (b :: bs) none u → 0 < u.bl.toNat → DecodesIn (n + 1) ys u) :
    DecodesIn (n + 2) ys s := by
  rcases Nat.eq_zero_or_pos s.bl.toNat with hbl | hbl
  · have hbits := h.bits
    rw [pendingBits, hbl, List.take_zero, List.nil_append] at hbits
    obtain ⟨k, rest, v, hinput, hk, hv⟩ :=
      exists_byte_of_inputBits (hbits ▸ List.cons_ne_nil b bs)
    have he := (fetchLoadsTheNextByte s).1 v
    refine .of_exec h.inv.err (.inl ⟨_, rfl⟩) (fun hpins => ?_) he (hnext _ ?_ (Nat.zero_lt_succ 7))
    · exact ⟨congrArg Pins.rst hpins, h.phase, h.opend, by simp [opWord, hbl], k,
        offered_eq_some.mpr ⟨congrArg Pins.inValid hpins, rest, hinput⟩, hk⟩
    · exact
        { inv := (h.inv.execFetch_next (tok := .byte v) h.phase he).tick, phase := h.phase, lvl := h.lvl
          code := h.code, opend := h.opend, obuf := h.obuf, same := h.same
          bits := by
            rw [← hbits, hv, hinput]
            exact congrArg (· ++ inputBits rest) (List.take_of_length_le (by simp [byteBits])) }
  · exact (hnext s h hbl).mono (Nat.le_succ _)

/-- What the next bit says of the codes below the node. -/
theorem Standing.nextCode_eq (h : Standing d l c (b :: bs) none s) (hbl : 0 < s.bl.toNat) :
    nextCode s = 2 * c + b.toNat ∧ pendingBits (consumed s (nextCode s)) = bs := by
  have hbits := pendingBits_eq_cons hbl h.walking.bits (nextCode s)
  rw [h.bits, List.cons.injEq] at hbits
  obtain ⟨hbit, hrest⟩ := hbits
  exact ⟨by rw [nextCode, h.code, ← hbit], hrest.symm⟩

/-- A run goes on with BIT where a bit is in SR. -/
theorem Standing.decodesIn_of_bit (h : Standing d l c (b :: bs) none s) (hbl : 0 < s.bl.toNat)
    (hnext : ∀ u, BitOutcome s u → Inv u → SameDescriptor d u → DecodesIn n ys (tick u)) :
    DecodesIn (n + 1) ys s := by
  obtain ⟨u, he, houtcome⟩ := h.walking.bit_outcome hbl
  obtain ⟨hmem, hdepth, hleaves, hintn, hoffs, heobix⟩ := h.same
  obtain ⟨hmem', hdepth', hleaves', hintn', hoffs', heobix'⟩ :=
    exec_walker_keeps_descriptor (.inr (.inr ⟨_, rfl⟩)) he
  refine .of_exec h.inv.err (.inr ⟨_, rfl⟩) (fun hpins => ?_) he
    (hnext u houtcome (h.inv.execBit_next h.phase h.opend he) ?_)
  · exact ⟨congrArg Pins.rst hpins, h.phase, h.opend, decide_eq_true hbl, rfl⟩
  · exact ⟨hmem'.trans hmem, hdepth'.trans hdepth, hleaves'.trans hleaves, hintn'.trans hintn,
      hoffs'.trans hoffs, heobix'.trans heobix⟩

/-- A bit that leads to an internal node (41_bit_walker.md R142). -/
theorem Standing.decodesIn_of_internal (h : Standing d l c (b :: bs) none s)
    (hnode : 2 * c + b.toNat < entry d.intn l)
    (hnext : ∀ u, Standing d (l + 1) (2 * c + b.toNat) bs none u → DecodesIn n ys u) :
    DecodesIn (n + 2) ys s := by
  refine h.decodesIn_of_loaded fun s h hbl => h.decodesIn_of_bit hbl fun u houtcome hinv hsame => ?_
  obtain ⟨hcode, hrest⟩ := h.nextCode_eq hbl
  obtain ⟨_, _, _, hintn, _, _⟩ := h.same
  rw [← hcode, ← hintn, ← h.lvl] at hnode
  cases houtcome with
  | descends _ ht =>
    have hlevel := h.walking.level
    have hdepth := h.walking.built.depth.2
    have hcode255 := h.walking.nextCode_le
    have hlvl := h.lvl
    subst ht
    exact hnext _
      { inv := hinv.tick, phase := h.phase, bits := hrest, opend := h.opend, obuf := nofun
        same := hsame, lvl := toNat_ofNat_of_eq (by rw [hlvl]) (by omega)
        code := toNat_ofNat_of_eq hcode (by omega) }
  | corrupt hroot hover =>
    rw [hroot] at hnode
    omega
  | ends hleaf | resolves hleaf => exact absurd hnode (Nat.not_lt.mpr hleaf.1)

/-- EMIT hands the pending byte to the consumer (41_bit_walker.md R143). -/
theorem Standing.decodesIn_of_pending (h : Standing d l c bs (some y) s)
    (hnext : ∀ u, Standing d l c bs none u → DecodesIn n ys u) : DecodesIn (n + 1) (y :: ys) s := by
  refine .of_step (zs := [y]) h.inv.err fun hpins hroom => ?_
  have hmax : s.outCount < 2 ^ s.cfg.countW - 1 := by
    rw [List.singleton_append, List.length_cons] at hroom
    omega
  have he := (emitHandsOneByteToTheConsumer s).2.2.2 hmax (congrArg Pins.outReady hpins)
    (congrArg Pins.outErr hpins)
  exact ⟨.emit, _, ⟨congrArg Pins.rst hpins, h.phase, h.opend⟩, he, by rw [h.obuf y rfl], rfl, hnext _
    { inv := (h.inv.execEmit_next h.phase he).tick, phase := h.phase, lvl := h.lvl
      code := h.code, bits := h.bits, opend := rfl, obuf := nofun, same := h.same }⟩

/-- The bit that leads to leaf i of the level. -/
theorem Standing.atLeaf (h : Standing d l c (b :: bs) none s) (hbl : 0 < s.bl.toNat)
    (hcode : 2 * c + b.toNat = entry d.intn l + i) (hindex : i < entry d.leaves l) :
    AtLeaf s ∧ nextAddress s = entry d.offs l + i := by
  obtain ⟨hnext, _⟩ := h.nextCode_eq hbl
  obtain ⟨_, _, hleaves, hintn, hoffs, _⟩ := h.same
  have hidx : nextIndex s = i := by
    rw [nextIndex, hnext, hintn, h.lvl]
    omega
  rw [AtLeaf, nextAddress, hidx, hnext, hleaves, hintn, hoffs, h.lvl]
  exact ⟨⟨by omega, hindex⟩, rfl⟩

/-- No leaf is past the level's nodes. -/
theorem AtLeaf.nextCode_lt (h : AtLeaf s) :
    nextCode s < entry s.intn s.lvl.toNat + entry s.leaves s.lvl.toNat := by
  obtain ⟨_, hidx⟩ := h
  rw [nextIndex] at hidx
  omega

/-- A bit that leads to a stored symbol, and its EMIT. -/
theorem Standing.decodesIn_of_symbol (h : Standing d l c (b :: bs) none s)
    (hcode : 2 * c + b.toNat = entry d.intn l + i) (hindex : i < entry d.leaves l)
    (hne : entry d.offs l + i ≠ d.eobix.toNat) (hy : lookup d.mem (entry d.offs l + i) = some y)
    (hnext : ∀ u, Standing d 0 0 bs none u → DecodesIn n ys u) :
    DecodesIn (n + 3) (y :: ys) s := by
  refine h.decodesIn_of_loaded fun s h hbl => h.decodesIn_of_bit hbl fun u houtcome hinv hsame => ?_
  obtain ⟨_, hrest⟩ := h.nextCode_eq hbl
  obtain ⟨hleaf, haddr⟩ := h.atLeaf hbl hcode hindex
  obtain ⟨hmem, _, _, _, _, heobix⟩ := h.same
  have hlt := hleaf.nextCode_lt
  cases houtcome with
  | resolves _ _ v hv ht =>
    obtain rfl : v = y := by
      rw [haddr, hmem, hy] at hv
      exact (Option.some.inj hv).symm
    subst ht
    exact Standing.decodesIn_of_pending
      { inv := hinv.tick, phase := h.phase, bits := hrest, opend := rfl
        obuf := fun _ => Option.some.inj, same := hsame, lvl := rfl, code := rfl } hnext
  | descends hnode => exact absurd hnode (Nat.not_lt.mpr hleaf.1)
  | corrupt hroot hover =>
    rw [hroot] at hlt
    omega
  | ends _ heob => exact absurd (haddr.symm.trans (heob.trans (by rw [heobix]))) hne

/-- A bit that leads to the EOB. -/
theorem Standing.decodesIn_of_eob (h : Standing d l c (b :: bs) none s)
    (hcode : 2 * c + b.toNat = entry d.intn l + i) (hindex : i < entry d.leaves l)
    (heob : entry d.offs l + i = d.eobix.toNat) : DecodesIn 2 [] s := by
  refine h.decodesIn_of_loaded fun s h hbl => h.decodesIn_of_bit hbl fun u houtcome hinv _ => ?_
  obtain ⟨hleaf, haddr⟩ := h.atLeaf hbl hcode hindex
  obtain ⟨_, _, _, _, _, heobix⟩ := h.same
  have hlt := hleaf.nextCode_lt
  cases houtcome with
  | ends _ _ ht =>
    have herr := h.inv.err_zero (p := .decode) h.phase (by decide)
    subst ht
    exact fun _ _ _ => ⟨0, _, Nat.le_refl 0, rfl, rfl, herr, (List.append_nil _).symm, rfl⟩
  | descends hnode => exact absurd hnode (Nat.not_lt.mpr hleaf.1)
  | corrupt hroot hover =>
    rw [hroot] at hlt
    omega
  | resolves _ hbelow =>
    rw [haddr, heob, heobix] at hbelow
    exact absurd hbelow (Nat.lt_irrefl _)

/-! ### Whole codes -/

/-- The walk down a code to its last bit: the node after each bit is the code's value without the m bits
after it (41_bit_walker.md R146). -/
theorem Standing.decodesIn_of_descent (hleaf : ReachableLeaf d l i) (hkm : k + m = l)
    (h : Standing d k ((entry d.intn l + i) >>> (m + 1))
      (codeBits (m + 1) (entry d.intn l + i) ++ bs) none s)
    (hlast : ∀ u, Standing d l ((entry d.intn l + i) >>> 1)
      ((entry d.intn l + i).testBit 0 :: bs) none u → DecodesIn n ys u) :
    DecodesIn (n + 2 * m) ys s := by
  induction m generalizing k s with
  | zero =>
    obtain rfl : k = l := hkm
    exact hlast s h
  | succ m ih =>
    have hnode := hleaf.inner k (by omega)
    rw [show l - k = m + 1 by omega, ← two_mul_shiftRight_succ_add] at hnode
    rw [codeBits_succ, List.cons_append] at h
    refine h.decodesIn_of_internal hnode fun u hu => ih (k := k + 1) (by omega) ?_
    rwa [two_mul_shiftRight_succ_add] at hu

/-- A whole code from the root, given what its last bit leads to. -/
theorem Standing.decodesIn_of_code (hleaf : ReachableLeaf d l i)
    (h : Standing d 0 0 (codeBits (l + 1) (entry d.intn l + i) ++ bs) none s)
    (hlast : ∀ u c b, 2 * c + b.toNat = entry d.intn l + i → Standing d l c (b :: bs) none u →
      DecodesIn n ys u) : DecodesIn (n + 2 * l) ys s := by
  have hroot : (entry d.intn l + i) >>> (l + 1) = 0 := by
    rw [Nat.shiftRight_eq_div_pow, Nat.div_eq_of_lt hleaf.fits]
  exact Standing.decodesIn_of_descent hleaf (Nat.zero_add l) (by rwa [hroot])
    fun u => hlast u _ _ (two_mul_shiftRight_succ_add _ 0)

/-- The codes of stored symbols, one after the other. -/
theorem Standing.decodesIn_of_symbols {xs : List (Nat × Nat)}
    (hxs : ∀ x ∈ xs, ReachableLeaf d x.1 x.2 ∧ entry d.offs x.1 + x.2 ≠ d.eobix.toNat)
    (hys : ys.map some = xs.map fun x => lookup d.mem (entry d.offs x.1 + x.2))
    (hnext : ∀ u, Standing d 0 0 bs none u → DecodesIn n [] u)
    (h : Standing d 0 0 ((xs.flatMap fun x => leafCode (descriptorOf d) x.1 x.2) ++ bs) none s) :
    DecodesIn (n + 3 * (xs.flatMap fun x => leafCode (descriptorOf d) x.1 x.2).length) ys s := by
  induction xs generalizing ys s with
  | nil =>
    obtain rfl : ys = [] := List.map_eq_nil_iff.mp hys
    exact hnext s h
  | cons x xs ih =>
    obtain ⟨y, ys, rfl, hy, hys⟩ := List.map_eq_cons_iff.mp hys
    obtain ⟨⟨hleaf, hne⟩, hxs⟩ := List.forall_mem_cons.mp hxs
    rw [List.flatMap_cons, hleaf.code, List.append_assoc] at h
    rw [List.flatMap_cons, hleaf.code, List.length_append, length_codeBits]
    refine (h.decodesIn_of_code hleaf fun u c b hcode hu =>
      hu.decodesIn_of_symbol hcode hleaf.index hne hy.symm fun u hu => ih hxs hys hu).mono ?_
    omega

end

/-- Settles O46: each code leads from the root to its leaf in two steps a bit at most, a symbol's leaf
back to the root with one EMIT, and the EOB's to DONE. -/
theorem codesDecodeToTheirSymbols : Obligations.CodesDecodeToTheirSymbols := by
  intro s xs eob junk later n hinv hp hopend hlvl hxs heob hbits hroom hn hschedule
  have hwalk : Walking s := hinv.promise (p := .decode) hp
  have hbuilt := hwalk.built
  have hleaves (x : Nat × Nat) (hx : x ∈ xs) :
      ReachableLeaf s x.1 x.2 ∧ entry s.offs x.1 + x.2 ≠ s.eobix.toNat :=
    ⟨reachableLeaf_of_leafReachable hbuilt.depth (hxs x hx).1, (hxs x hx).2⟩
  obtain ⟨ys, hys⟩ : (xs.map fun x => lookup s.mem (entry s.offs x.1 + x.2)) ∈
      Set.range (List.map some) := by
    rw [Set.range_list_map, Set.mem_ofPred_eq, List.forall_mem_map]
    intro x hx
    obtain ⟨hleaf, hne⟩ := hleaves x hx
    obtain ⟨y, hy⟩ := hleaf.stored hbuilt hne
    exact ⟨y, hy.symm⟩
  obtain ⟨l, i, hleaf, haddr, rfl⟩ := exists_eobLeaf hbuilt heob
  have hlength : ys.length = xs.length := by simpa using congrArg List.length hys
  rw [List.append_assoc] at hbits
  have hstart : Standing s 0 0 _ none s :=
    { inv := hinv, phase := hp, lvl := hlvl, code := hwalk.root hlvl, bits := hbits
      opend := hopend, obuf := nofun, same := ⟨rfl, rfl, rfl, rfl, rfl, rfl⟩ }
  have hdecodes := hstart.decodesIn_of_symbols hleaves hys fun u hu =>
    hu.decodesIn_of_code hleaf fun u c b hcode hu =>
      hu.decodesIn_of_eob hcode hleaf.index haddr
  rw [length_codeBits] at hn
  obtain ⟨k, t, hk, hrun, hphase, herr, hout, hcount⟩ :=
    hdecodes.mono (n := n) (by omega) later hschedule (by rwa [hlength])
  exact ⟨k, t, ys, hk, hrun, hphase, herr, hys, hout, by rw [hcount, hlength]⟩

/-! ### A session and what the block held before it (41_bit_walker.md R152)

Two blocks in the same session differ in the symbol memory they were left with and in the bytes output
before. Each operation treats the two alike: the walker reads only symbols this session stored. -/

/-- The state with another symbol memory and another output behind it. -/
def withPast (m : Memory) (q : List Byte) (s : State) : State := { s with mem := m, output := q }

/-- An address the session has written: before CUR, or stored when EOBIX was set. -/
def WrittenNow (s : State) (a : Nat) : Prop := a < s.cur.toNat ∨ a < s.eobix.toNat

/-- The state t is s with another past: the outputs o and p, each with the session's own bytes after it,
and the same symbols stored by the session. -/
def SameSession (o p : List Byte) (s t : State) : Prop :=
  ∃ m zs, t = withPast m (p ++ zs) s ∧ s.output = o ++ zs ∧
    ∀ a, WrittenNow s a → lookup m a = lookup s.mem a

/-- An outcome with another past. -/
def outcomeWithPast (m : Memory) (q : List Byte) (r : Result) : Result :=
  andThen r fun s => .next (withPast m q s)

section
variable {s t u : State} {i : Instr} {m : Memory} {q o p : List Byte}

theorem outcomeWithPast_next :
    outcomeWithPast m q (.next s) = .next (withPast m q s) := rfl

theorem outcomeWithPast_need {α : Type} (r : Fault) (a : Option α) (k : α → Result) :
    outcomeWithPast m q (need r a k) = need r a fun x => outcomeWithPast m q (k x) := by
  cases a <;> rfl

theorem outcomeWithPast_andThen (r : Result) (k : State → Result) :
    outcomeWithPast m q (andThen r k) = andThen r fun s => outcomeWithPast m q (k s) := by
  cases r <;> rfl

theorem andThen_outcomeWithPast (r : Result) (k : State → Result) :
    andThen (outcomeWithPast m q r) k = andThen r fun s => k (withPast m q s) := by
  cases r <;> rfl

theorem outcomeWithPast_ite (c : Prop) [Decidable c] (r r' : Result) :
    outcomeWithPast m q (if c then r else r') =
      if c then outcomeWithPast m q r else outcomeWithPast m q r' :=
  apply_ite _ c r r'

theorem bumpDeepest_withPast (s : State) :
    bumpDeepest (withPast m q s) = outcomeWithPast m q (bumpDeepest s) := by
  simp only [bumpDeepest, outcomeWithPast_need, outcomeWithPast_next]
  rfl

/-- The operations that use neither the symbol memory nor the output. -/
def IgnoresPast (i : Instr) : Prop :=
  (∀ tok, i ≠ .rdSym tok) ∧ i ≠ .emit ∧ ∀ b, i ≠ .bit b

/-- They do the same whatever the past (41_bit_walker.md R152). -/
theorem exec_withPast (hi : IgnoresPast i) (s : State) :
    exec i (withPast m q s) = outcomeWithPast m q (exec i s) := by
  obtain ⟨hsym, hemit, hbit⟩ := hi
  cases i with
  | rdSym tok => exact absurd rfl (hsym tok)
  | emit => exact absurd rfl hemit
  | bit b => exact absurd rfl (hbit b)
  | reset | start => rfl
  | rdDepth tok =>
    cases tok with
    | byte b => simp only [exec, execRdDepth, outcomeWithPast_ite]; rfl
    | eod | err => rfl
  | rdCount tok =>
    cases tok with
    | byte b => simp only [exec, execRdCount, outcomeWithPast_need, outcomeWithPast_ite]; rfl
    | eod | err => rfl
  | sumchk => simp only [exec, execSumchk, outcomeWithPast_ite]; rfl
  | eobres =>
    simp only [exec, execEobres, bumpDeepest_withPast, andThen_outcomeWithPast,
      outcomeWithPast_andThen, outcomeWithPast_need]
    rfl
  | symNext => simp only [exec, execSymNext, outcomeWithPast_need, outcomeWithPast_ite]; rfl
  | eobacc =>
    simp only [exec, execEobacc, bumpDeepest_withPast, andThen_outcomeWithPast,
      outcomeWithPast_andThen]
    rfl
  | derive => simp only [exec, execDerive, outcomeWithPast_need, outcomeWithPast_ite]; rfl
  | fetch tok => cases tok <;> rfl

/-- RD_SYM stores its byte whatever the memory holds (40_tree_builder.md R115). -/
theorem execRdSym_withPast {tok : Token} (h : execRdSym tok s = .next u)
    (hm : ∀ a, WrittenNow s a → lookup m a = lookup s.mem a) :
    ∃ m', execRdSym tok (withPast m q s) = .next (withPast m' q u) ∧
      ∀ a, WrittenNow u a → lookup m' a = lookup u.mem a := by
  rcases execRdSym_cases h with ⟨v, cur', rem', rfl, h256, hcur, _, rfl⟩ | ⟨rfl, rfl⟩ | ⟨rfl, rfl⟩
  · have hwrite : memWrite (consume (withPast m q s)) s.cur.toNat v =
        some (withPast (store m s.cur.toNat v) q (consume s)) :=
      memWrite_eq_some.mpr ⟨h256, rfl⟩
    have hwrite' : memWrite (consume s) s.cur.toNat v = _ := memWrite_eq_some.mpr ⟨h256, rfl⟩
    refine ⟨store m s.cur.toNat v, ?_, fun a ha => ?_⟩
    · have heq : execRdSym (.byte v) (withPast m q s) =
          outcomeWithPast (store m s.cur.toNat v) q (execRdSym (.byte v) s) := by
        simp only [execRdSym, hwrite', need_some, outcomeWithPast_need]
        exact congrArg (need _ · _) hwrite
      rw [heq, h, outcomeWithPast_next]
    · by_cases hne : a = s.cur.toNat
      · rw [hne, lookup_store_same]
        exact (lookup_store_same s.mem _ v).symm
      · have hbefore : WrittenNow s a :=
          ha.imp_left fun hlt => by
            have hlt : a < cur'.toNat := hlt
            omega
        rw [lookup_store_other m v hne, hm a hbefore]
        exact (lookup_store_other s.mem v hne).symm
  · exact ⟨m, rfl, hm⟩
  · exact ⟨m, rfl, hm⟩

/-- EMIT outputs the same byte whatever was output before (41_bit_walker.md R143). -/
theorem execEmit_withPast (h : execEmit s = .next u) :
    ∃ zs, u.output = s.output ++ zs ∧
      execEmit (withPast m q s) = .next (withPast m (q ++ zs) u) := by
  obtain ⟨hover, hwait, hfail, hok⟩ := emitHandsOneByteToTheConsumer (withPast m q s)
  rcases execEmit_cases h with
    ⟨hmax, rfl⟩ | ⟨hne, hready, rfl⟩ | ⟨hne, hready, herr, rfl⟩ | ⟨hlt, hready, herr, rfl⟩
  · exact ⟨[], (List.append_nil _).symm, by rw [List.append_nil]; exact hover hmax⟩
  · exact ⟨[], (List.append_nil _).symm, by rw [List.append_nil]; exact hwait hne hready⟩
  · exact ⟨[], (List.append_nil _).symm, by rw [List.append_nil]; exact hfail hne hready herr⟩
  · exact ⟨[s.obuf], rfl, hok hlt hready herr⟩

/-- BIT does the same where the symbol it reads is the same (41_bit_walker.md R142, R149). -/
theorem BitOutcome.withPast (h : BitOutcome s u) (hwalk : Walking s) (hbl : 0 < s.bl.toNat)
    (hm : ∀ a, a < s.eobix.toNat → lookup m a = lookup s.mem a) :
    exec (.bit (nextBit s.sr)) (withPast m q s) = .next (withPast m q u) := by
  have hcode := hwalk.code_lt
  have hlevel := hwalk.level
  have hdepth := hwalk.built.depth.2
  have hlvl : s.lvl.toNat < 24 := by omega
  obtain ⟨hdescend, _, hcorrupt, heob, hsymbol⟩ := bitWalksOneLevel (Machine.withPast m q s)
    (nextBit s.sr) (nextCode s) hbl (hcode.le.trans (by decide)) hlvl rfl
  have hindex : entry s.intn s.lvl.toNat ≤ nextCode s →
      nextCode s = entry s.intn s.lvl.toNat + nextIndex s :=
    fun hle => (Nat.add_sub_of_le hle).symm
  cases h with
  | descends hnode ht => exact ht ▸ hdescend hnode (hwalk.depth_of_internal hnode)
  | corrupt hroot hover ht =>
    rw [← hroot] at hover
    exact ht ▸ hcorrupt (nextIndex s) (hindex (by omega)) (Nat.le_sub_of_add_le' hover)
  | ends hleaf haddr ht =>
    obtain ⟨hle, hidx⟩ := hleaf
    exact ht ▸ heob (nextIndex s) (hindex hle) hidx haddr
  | resolves hleaf haddr v hv ht =>
    obtain ⟨hle, hidx⟩ := hleaf
    obtain ⟨_, h256⟩ := hwalk.address_le hidx
    obtain ⟨w, hw, he⟩ := hsymbol (nextIndex s) (hindex hle) hidx (Nat.ne_of_lt haddr)
      (haddr.trans_le h256)
    obtain rfl : w = v := hw v ((hm _ haddr).trans hv)
    exact ht ▸ he

/-- Only RD_SYM adds to the addresses the session has written. -/
theorem writtenNow_of_exec {a : Nat} (hsym : ∀ tok, i ≠ .rdSym tok) (he : exec i s = .next u)
    (h : WrittenNow u a) : WrittenNow s a := by
  have hframe := exec_writesOnly he
  cases i with
  | rdSym tok => exact absurd rfl (hsym tok)
  | reset | start =>
    cases he
    exact absurd h (by simp [WrittenNow])
  | eobres =>
    obtain ⟨_, _, _, _, _, _, _, _, _, rfl⟩ := execEobres_cases he
    exact .inr (h.resolve_left (Nat.not_lt_zero a))
  | eobacc =>
    obtain ⟨_, _, _, _, _, _, _, rfl⟩ := execEobacc_cases he
    exact .inl (or_self_iff.mp h)
  | rdDepth | sumchk | emit | fetch | bit =>
    have hregs : u = _ := hframe
    rw [hregs] at h
    exact h
  | rdCount | symNext | derive =>
    obtain ⟨_, hregs⟩ := hframe
    rw [hregs] at h
    exact h

/-- An operation that ignores the past keeps it. -/
theorem past_kept_of_exec (hi : IgnoresPast i) (he : exec i s = .next u) :
    u.mem = s.mem ∧ u.output = s.output := by
  have hself := exec_withPast (m := s.mem) (q := s.output) hi s
  rw [show withPast s.mem s.output s = s from rfl, he, outcomeWithPast_next,
    Host.Outcome.next.injEq] at hself
  exact ⟨(congrArg State.mem hself :), (congrArg State.output hself :)⟩

/-- The sessions go on alike with an operation that leaves the memory and the output of each. -/
theorem sameSession_of_kept {zs : List Byte} (hout : s.output = o ++ zs)
    (hm : ∀ a, WrittenNow s a → lookup m a = lookup s.mem a) (hsym : ∀ tok, i ≠ .rdSym tok)
    (he : exec i s = .next u) (hkept : u.mem = s.mem ∧ u.output = s.output) :
    SameSession o p u (withPast m (p ++ zs) u) := by
  obtain ⟨hmem, hout'⟩ := hkept
  refine ⟨m, zs, rfl, hout'.trans hout, fun a ha => ?_⟩
  rw [hmem]
  exact hm a (writtenNow_of_exec hsym he ha)

/-- Each operation the invariant selects goes on alike: RD_SYM stores the same byte, EMIT outputs the
same byte, and BIT reads a symbol that both sessions stored. -/
theorem SameSession.exec_next (h : SameSession o p s t) (hinv : Inv s) (hi : SelectedIn s i)
    (he : exec i s = .next u) : ∃ v, exec i t = .next v ∧ SameSession o p u v := by
  obtain ⟨m, zs, rfl, hout, hm⟩ := h
  by_cases hignores : IgnoresPast i
  · exact ⟨_, by rw [exec_withPast hignores, he, outcomeWithPast_next],
      sameSession_of_kept hout hm hignores.1 he (past_kept_of_exec hignores he)⟩
  · cases i with
    | rdSym tok =>
      obtain ⟨m', he', hm'⟩ := execRdSym_withPast (q := p ++ zs) he hm
      obtain ⟨hout', _⟩ := (exec_writesOnly he).output_kept nofun nofun nofun
      exact ⟨_, he', m', zs, rfl, hout'.trans hout, hm'⟩
    | emit =>
      obtain ⟨ys, hys, he'⟩ := execEmit_withPast (m := m) (q := p ++ zs) he
      have hmem := (exec_writesOnly he).mem_kept nofun
      refine ⟨_, he', m, zs ++ ys, by rw [List.append_assoc], ?_, fun a ha => ?_⟩
      · rw [hys, hout, List.append_assoc]
      · rw [hmem]
        exact hm a (writtenNow_of_exec (i := .emit) nofun he ha)
    | bit b =>
      obtain ⟨_, hp, _, hbl, rfl⟩ := hi
      have hwalk : Walking s := hinv.promise (p := .decode) hp
      obtain ⟨u', hu', houtcome⟩ := hwalk.bit_outcome hbl
      obtain rfl : u' = u := Host.Outcome.next.inj (hu'.symm.trans he)
      exact ⟨_, houtcome.withPast hwalk hbl fun a ha => hm a (.inr ha),
        sameSession_of_kept (i := .bit _) hout hm nofun he ⟨(exec_writesOnly he).mem_kept nofun,
          ((exec_writesOnly he).output_kept nofun nofun nofun).1⟩⟩
    | _ => exact absurd ⟨nofun, nofun, nofun⟩ hignores

/-- The selection reads neither the symbol memory nor the output (42_descriptor_lifecycle.md R175). -/
theorem select_withPast (s : State) : select (withPast m q s) = select s := rfl

theorem SameSession.step_next (h : SameSession o p s t) (hinv : Inv s) (hs : step s = .next u) :
    ∃ v, step t = .next v ∧ SameSession o p u v := by
  have hselect : select t = select s := by
    obtain ⟨m, zs, rfl, _⟩ := h
    exact select_withPast s
  rcases step_cases hs with ⟨i, u, hsel, he, rfl⟩ | ⟨hsel, rfl⟩
  · obtain ⟨v, hv, m, zs, rfl, hsame⟩ := h.exec_next hinv (selectedIn_of_select hsel) he
    exact ⟨_, by rw [step_of_select (hselect.trans hsel), hv]; rfl, m, zs, rfl, hsame⟩
  · obtain ⟨m, zs, rfl, hsame⟩ := h
    exact ⟨_, by simp only [step, hselect, hsel]; rfl, m, zs, rfl, hsame⟩

/-- The sessions go on alike for any number of steps. -/
theorem SameSession.run_next (h : SameSession o p s t) (hinv : Inv s) (n : Nat) :
    ∃ s' t', Host.Core.run core n s = .next s' ∧ Host.Core.run core n t = .next t' ∧
      SameSession o p s' t' := by
  induction n generalizing s t with
  | zero => exact ⟨s, t, rfl, rfl, h⟩
  | succ n ih =>
    obtain ⟨u, hu, hinvu⟩ := everyStepKeepsTheInvariant s hinv
    obtain ⟨v, hv, hnext⟩ := h.step_next hinv hu
    rw [run_succ_of_step hu, run_succ_of_step hv]
    exact ih hnext hinvu

/-- START leaves no address written and clears what differs but the memory and the output
(42_descriptor_lifecycle.md R171). -/
theorem sameSession_of_start (hcfg : s.cfg = t.cfg) (hschedule : s.schedule = t.schedule)
    (hinput : s.input = t.input) (hs : select s = .run .start) (ht : select t = .run .start) :
    ∃ u v, step s = .next u ∧ step t = .next v ∧ SameSession s.output t.output u v := by
  refine ⟨_, _, step_of_select hs, step_of_select ht, t.mem, [], ?_, (List.append_nil _).symm,
    fun a ha => absurd ha (by simp [WrittenNow])⟩
  simp [withPast, clearRegisters, tick, hcfg, hschedule, hinput]

end

/-- Settles O47: START makes the two blocks alike but for the past, and every step keeps them so. -/
theorem sessionIgnoresThePast : Obligations.SessionIgnoresThePast := by
  intro s t n hinv _ hcfg hschedule hinput hs ht
  obtain ⟨u, v, hu, hv, hsame⟩ := sameSession_of_start hcfg hschedule hinput hs ht
  obtain ⟨u', hu', hinvu⟩ := everyStepKeepsTheInvariant s hinv
  obtain rfl : u' = u := Host.Outcome.next.inj (hu'.symm.trans hu)
  obtain ⟨s', t', hs', ht', m, ys, rfl, hout, _⟩ := hsame.run_next hinvu n
  exact ⟨s', _, ys, (run_succ_of_step hu).trans hs', (run_succ_of_step hv).trans ht', rfl, rfl, rfl,
    rfl, hout, rfl⟩

end Sys2Proof.Machine

/-! PROOFS. The descriptor lifecycle family: the selection of a step's operation line by line
(42_descriptor_lifecycle.md R175), RESET and START (R170, R171), START in a busy block (R172), the
quiescent phases (R176), and the end of a session (R173). -/

namespace Sys2Proof.Machine

/-! ### The selection line by line (42_descriptor_lifecycle.md R175) -/

section
variable {s t : State}

/-- A state with a legal ERR is not refused for it, and RESET is not refused at all
(60_exceptions.md R190, 42_descriptor_lifecycle.md R170). -/
theorem errorReserved_eq_false (h : s.pins.rst = true ∨ s.err.toNat ≤ 9) :
    errorReserved s = false := by
  rcases h with hrst | herr
  · simp [errorReserved, hrst]
  · simp [errorReserved, Nat.not_le.mpr (Nat.lt_succ_of_le herr)]

theorem select_of_rowSelects {i : Instr} (h : s.pins.rst = true ∨ s.err.toNat ≤ 9)
    (hrow : RowSelects (opWord s) i) : select s = .run i :=
  select_eq_run.mpr ⟨errorReserved_eq_false h, decode_of_rowSelects hrow⟩

/-- No operation is selected in a quiescent phase nor where a token is waited for. -/
theorem select_eq_rest (h : s.pins.rst = true ∨ s.err.toNat ≤ 9)
    (hd : decode (opWord s) = .quiescent ∨ decode (opWord s) = .waiting) : select s = .rest := by
  rcases hd with hd | hd <;> simp [select, errorReserved_eq_false h, hd]

theorem select_eq_refuse (h : s.pins.rst = true ∨ s.err.toNat ≤ 9)
    (hd : decode (opWord s) = .reservedPhase) : select s = .refuse .reservedPhase := by
  simp [select, errorReserved_eq_false h, hd]

theorem step_of_rest (h : select s = .rest) : step s = .next (tick s) := by
  simp [step, h]

/-- IDLE, DONE and FAILED wait for START (42_descriptor_lifecycle.md R176). -/
theorem decode_eq_quiescent (hrst : s.pins.rst = false) (hstart : s.pins.start = false)
    (hp : s.phase = 0#4 ∨ s.phase = 9#4 ∨ s.phase = 10#4) : decode (opWord s) = .quiescent := by
  rcases hp with hp | hp | hp <;> simp [decode, opWord, Phase.ofBits, hrst, hstart, hp]

/-- A token operation waits for its token (70_reset_and_hazards.md R229). -/
theorem TakesNow.decode_eq_waiting (h : TakesNow s) (hrst : s.pins.rst = false)
    (hk : offered s = none) : decode (opWord s) = .waiting := by
  rcases h with hp | hp | ⟨hp, hrem⟩ | ⟨hp, hopend, hbl⟩
  · simp [decode, decodeToken, opWord, Phase.ofBits, hrst, hp, hk]
  · simp [decode, decodeToken, opWord, Phase.ofBits, hrst, hp, hk]
  · simp [decode, decodeToken, opWord, Phase.ofBits, hrst, hp, hk, hrem]
  · simp [decode, decodeToken, opWord, Phase.ofBits, hrst, hp, hk, hopend, hbl]

theorem decode_eq_reservedPhase (hrst : s.pins.rst = false) (hp : 11 ≤ s.phase.toNat) :
    decode (opWord s) = .reservedPhase := by
  simp [decode, opWord, hrst, Phase.ofBits_eq_none.mpr hp]

/-- A token operation fires with the offered token and rests while none is offered. -/
theorem TakesNow.select_eq {op : Token → Instr} (h : TakesNow s) (hrst : s.pins.rst = false)
    (herr : s.err.toNat ≤ 9)
    (hrow : ∀ k, offered s = some k → RowSelects (opWord s) (op (Token.ofBits k))) :
    (∀ k, offered s = some k → select s = .run (op (Token.ofBits k))) ∧
      (offered s = none → select s = .rest) :=
  ⟨fun k hk => select_of_rowSelects (.inr herr) (hrow k hk),
    fun hk => select_eq_rest (.inr herr) (.inr (h.decode_eq_waiting hrst hk))⟩

end

/-- Settles O5: RESET and START by their rows, the token operations by their rows or their wait, the
others by their rows, and the reserved phases by the decoder. -/
theorem stepSelectsByPhase : Obligations.StepSelectsByPhase := by
  intro s herr
  have hrun {i : Instr} (hrow : RowSelects (opWord s) i) : select s = .run i :=
    select_of_rowSelects (.inr herr) hrow
  have htok (k : Tok) : TokenIs k (Token.ofBits k) := ofBits_eq_iff_tokenIs.mp rfl
  refine ⟨fun hrst => hrun (i := .reset) hrst, fun hrst => ⟨?quiescent, ?rdDepth, ?rdCount, ?sumchk,
    ?eobres, ?rdSym, ?symNext, ?eobacc, ?derive, ?emit, ?fetch, ?bit, ?reserved⟩⟩
  case quiescent =>
    exact fun hp => ⟨fun hstart => hrun ⟨hrst, hstart, hp⟩, fun hstart =>
      select_eq_rest (.inr herr) (.inl (decode_eq_quiescent hrst hstart hp))⟩
  case rdDepth =>
    exact fun hp => TakesNow.select_eq (.inl hp) hrst herr fun k hk => ⟨hrst, hp, k, hk, htok k⟩
  case rdCount =>
    exact fun hp => TakesNow.select_eq (.inr (.inl hp)) hrst herr fun k hk =>
      ⟨hrst, hp, k, hk, htok k⟩
  case rdSym =>
    exact fun hp hrem => TakesNow.select_eq (.inr (.inr (.inl ⟨hp, hrem⟩))) hrst herr fun k hk =>
      ⟨hrst, hp, decide_eq_true hrem, k, hk, htok k⟩
  case symNext => exact fun hp hrem => hrun ⟨hrst, hp, by simp [opWord, hrem]⟩
  case sumchk | eobres | eobacc | derive => exact fun hp => hrun ⟨hrst, hp⟩
  case emit => exact fun hp hopend => hrun ⟨hrst, hp, hopend⟩
  case fetch =>
    exact fun hp hopend hbl => TakesNow.select_eq (.inr (.inr (.inr ⟨hp, hopend, hbl⟩))) hrst herr
      fun k hk => ⟨hrst, hp, hopend, by simp [opWord, hbl], k, hk, htok k⟩
  case bit => exact fun hp hopend hbl => hrun ⟨hrst, hp, hopend, decide_eq_true hbl, rfl⟩
  case reserved => exact fun hp => select_eq_refuse (.inr herr) (decode_eq_reservedPhase hrst hp)

/-- Settles O4: the step by what the signals decode to. -/
theorem stepRunsTheDecodedOperation : Obligations.StepRunsTheDecodedOperation := by
  intro s hlegal
  have hrun {i : Instr} (hd : decode (opWord s) = .instr i) : step s = endStep (exec i s) :=
    step_of_select (select_eq_run.mpr ⟨errorReserved_eq_false hlegal, hd⟩)
  refine ⟨fun i t hd he => ?_, fun i r hd he => ?_,
    fun hd => step_of_rest (select_eq_rest hlegal (.inl hd)),
    fun hd => step_of_rest (select_eq_rest hlegal (.inr hd)), fun hd => ?_⟩
  · rw [hrun hd, he]
    rfl
  · rw [hrun hd, he]
    rfl
  · simp [step, select_eq_refuse hlegal hd]

/-! ### RESET and START (42_descriptor_lifecycle.md R170, R171) -/

/-- Settles O6: the reset values are those of `clearRegisters`, and RESET's row asks for `rst` alone. -/
theorem resetClearsEveryRegister : Obligations.ResetClearsEveryRegister := by
  refine fun s => ⟨execReset_eq s, fun t he => ?_, fun hrst =>
    select_of_rowSelects (i := .reset) (.inl hrst) hrst⟩
  cases he
  exact ⟨rfl, rfl, rfl⟩

/-- Settles O7: the START values are the reset values but for PHASE, and START's row is met. -/
theorem startBeginsASession : Obligations.StartBeginsASession := by
  refine fun s => ⟨execStart_eq s, fun t he => ?_, fun hrst hstart herr hp =>
    select_of_rowSelects (.inr herr) ⟨hrst, hstart, hp⟩⟩
  cases he
  exact ⟨rfl, rfl, rfl⟩

/-! ### The quiescent phases (42_descriptor_lifecycle.md R176) -/

/-- Settles O9: without RESET and START no operation is selected, so the step moves the inputs only. -/
theorem quiescentPhasesChangeNothing : Obligations.QuiescentPhasesChangeNothing := by
  intro s herr hp
  have hrest (hrst : s.pins.rst = false) (hstart : s.pins.start = false) : select s = .rest :=
    select_eq_rest (.inr herr) (.inl (decode_eq_quiescent hrst hstart hp))
  refine ⟨fun hrst hstart => ?_, fun t hstep hne => ?_⟩
  · have hsel := hrest hrst hstart
    exact ⟨step_of_rest hsel, inReady_of_rest hsel, by simp [outValid, hsel]⟩
  · cases hrst : s.pins.rst with
    | true => exact .inl rfl
    | false =>
      cases hstart : s.pins.start with
      | true => exact .inr rfl
      | false =>
        cases (step_of_rest (hrest hrst hstart)).symm.trans hstep
        exact absurd rfl hne

/-! ### What follows an outcome, moved inside the ways a meaning is put together -/

theorem andThen_assoc (o : Result) (k k' : State → Result) :
    andThen (andThen o k) k' = andThen o fun t => andThen (k t) k' := by
  cases o <;> rfl

theorem andThen_need {α : Type} (r : Fault) (o : Option α) (k : α → Result)
    (k' : State → Result) : andThen (need r o k) k' = need r o fun a => andThen (k a) k' := by
  cases o <;> rfl

theorem andThen_ite (c : Prop) [Decidable c] (o o' : Result) (k : State → Result) :
    andThen (if c then o else o') k = if c then andThen o k else andThen o' k :=
  apply_ite (andThen · k) c o o'

theorem need_memWrite {s : State} {a : Nat} {v : Byte} (r : Fault) (k : State → Result) :
    need r (memWrite s a v) k =
      if a < Config.symtabEntries then k { s with mem := store s.mem a v } else .fault r := by
  unfold memWrite
  split <;> rfl

/-! ### START in a busy block (42_descriptor_lifecycle.md R172)

Lowering the `start` of this step changes neither what is selected in PHASE 1..8 nor what an operation
does, and the next step's inputs are the same. -/

/-- Only in IDLE, DONE and FAILED does the selection read `start` (42_descriptor_lifecycle.md R175). -/
theorem decode_start_irrelevant {w : OpWord} (h1 : 1 ≤ w.phase.toNat) (h8 : w.phase.toNat ≤ 8) :
    decode { w with start := false } = decode w := by
  cases hq : Phase.ofBits w.phase with
  | none => simp only [decode, hq]
  | some p =>
    have hp := Phase.bits_of_ofBits hq
    cases p with
    | idle | done | failed =>
      rw [hp] at h1 h8
      simp [Phase.bits] at h1 h8
    | _ => simp only [decode, hq, decodeToken]

/-- The state with `start` at 0 in this step. -/
def withoutStart (s : State) : State :=
  { s with schedule := s.schedule.modifyHead fun p => { p with start := false } }

section
variable (s : State)

theorem withoutStart_pins : (withoutStart s).pins = { s.pins with start := false } := by
  cases h : s.schedule <;> simp [State.pins, withoutStart, h, Pins.low]

theorem tick_withoutStart : tick (withoutStart s) = tick s := by
  cases h : s.schedule <;> simp [tick, withoutStart, h]

theorem opWord_withoutStart : opWord (withoutStart s) = { opWord s with start := false } := by
  simp only [opWord, offered, withoutStart_pins]
  rfl

theorem select_withoutStart (h1 : 1 ≤ s.phase.toNat) (h8 : s.phase.toNat ≤ 8) :
    select (withoutStart s) = select s := by
  have herr : errorReserved (withoutStart s) = errorReserved s := by
    simp only [errorReserved, withoutStart_pins]
    rfl
  rw [select, select, herr, opWord_withoutStart, decode_start_irrelevant h1 h8]

/-- An outcome from a state with `start` at 0. -/
def outcomeWithoutStart (o : Result) : Result := andThen o fun t => .next (withoutStart t)

theorem bumpDeepest_withoutStart :
    bumpDeepest (withoutStart s) = outcomeWithoutStart (bumpDeepest s) := by
  simp only [outcomeWithoutStart, bumpDeepest, andThen_need, andThen_next]
  rfl

/-- No operation reads `start`. -/
theorem exec_withoutStart (i : Instr) :
    exec i (withoutStart s) = outcomeWithoutStart (exec i s) := by
  cases i with
  | reset | start => rfl
  | rdDepth tok =>
    cases tok with
    | byte b => simp only [outcomeWithoutStart, exec, execRdDepth, andThen_ite]; rfl
    | eod | err => rfl
  | rdCount tok =>
    cases tok with
    | byte b => simp only [outcomeWithoutStart, exec, execRdCount, andThen_need, andThen_ite]; rfl
    | eod | err => rfl
  | sumchk => simp only [outcomeWithoutStart, exec, execSumchk, andThen_ite]; rfl
  | eobres =>
    simp only [exec, execEobres, bumpDeepest_withoutStart, outcomeWithoutStart, andThen_assoc,
      andThen_need, andThen_next]
    rfl
  | rdSym tok =>
    cases tok with
    | byte v =>
      simp only [outcomeWithoutStart, exec, execRdSym, need_memWrite, andThen_ite, andThen_need]
      rfl
    | eod | err => rfl
  | symNext => simp only [outcomeWithoutStart, exec, execSymNext, andThen_need, andThen_ite]; rfl
  | eobacc =>
    simp only [exec, execEobacc, bumpDeepest_withoutStart, outcomeWithoutStart, andThen_assoc,
      andThen_next]
    rfl
  | derive => simp only [outcomeWithoutStart, exec, execDerive, andThen_need, andThen_ite]; rfl
  | emit =>
    have hanswer : putAnswer (withoutStart s) = putAnswer s := by
      simp only [putAnswer, withoutStart_pins]
    simp only [outcomeWithoutStart, exec, execEmit, hanswer, andThen_ite]
    rcases putAnswer s with _ | _ | _ <;> simp only [andThen_ite] <;> rfl
  | fetch tok => cases tok <;> rfl
  | bit b =>
    simp only [outcomeWithoutStart, exec, execBit, resolveLeaf, andThen_need, andThen_ite]
    rfl

theorem step_withoutStart (h1 : 1 ≤ s.phase.toNat) (h8 : s.phase.toNat ≤ 8) :
    step (withoutStart s) = step s := by
  simp only [step, select_withoutStart s h1 h8]
  cases select s with
  | run i =>
    simp only [exec_withoutStart, outcomeWithoutStart, endStep, andThen_assoc, andThen_next,
      tick_withoutStart]
  | rest => simp only [endStep_next, tick_withoutStart]
  | refuse r => rfl

end

/-- Settles O8: the other state of the statement is this one with `start` lowered. -/
theorem startWhileBusyIsIgnored : Obligations.StartWhileBusyIsIgnored := by
  intro s p ps hschedule _ h1 h8
  have hlowered : { s with schedule := { p with start := false } :: ps } = withoutStart s := by
    simp [withoutStart, hschedule]
  rw [hlowered, step_withoutStart s h1 h8]

/-! ### The end of a session (42_descriptor_lifecycle.md R173, 41_bit_walker.md R142) -/

section
variable {s t : State}

/-- The leaf branch of BIT ends the session exactly at the leaf of the EOB's address, and makes no byte
pending there. -/
theorem resolveLeaf_done {s1 : State} {idx : Nat} (h : resolveLeaf s s1 idx = .next t)
    (hne : s1.phase ≠ 9#4) :
    (t.phase = 9#4 ↔ idx < entry s.leaves s.lvl.toNat ∧
      entry s.offs s.lvl.toNat + idx = s.eobix.toNat) ∧
    (t.phase = 9#4 → t.opend = s1.opend) := by
  obtain ⟨n, hn, hleaf⟩ := resolveLeaf_cases h
  rw [entry_of_readLevel hn]
  rcases hleaf with ⟨hle, rfl⟩ | ⟨hlt, o, ho, hleaf⟩
  · simp [failedWith, Phase.bits, Nat.not_lt.mpr hle]
  rw [entry_of_readLevel ho]
  rcases hleaf with ⟨heob, rfl⟩ | ⟨heob, v, _, rfl⟩
  · simp [Phase.bits, hlt, heob]
  · simp [hne, heob]

/-- BIT ends the session exactly when the next code is that of the EOB's leaf, and makes no byte pending
then. -/
theorem execBit_done (h : execBit (nextBit s.sr) s = .next t) (hne : s.phase ≠ 9#4) :
    (t.phase = 9#4 ↔ AtLeaf s ∧ nextAddress s = s.eobix.toNat) ∧
    (t.phase = 9#4 → t.opend = s.opend) := by
  obtain ⟨bl', code', n, _, hcode, hn, houtcome⟩ := execBit_cases h
  have hcode : code'.toNat = nextCode s := hcode
  rw [hcode, ← entry_of_readLevel hn] at houtcome
  rcases houtcome with ⟨hnode, _, rfl⟩ | ⟨hnode, _, rfl⟩ | ⟨hnode, hleaf⟩
  · simp [failedWith, Phase.bits, AtLeaf, Nat.not_le.mpr hnode]
  · simp [shifted, hne, AtLeaf, Nat.not_le.mpr hnode]
  · obtain ⟨hdone, hopend⟩ := resolveLeaf_done hleaf hne
    exact ⟨by rw [hdone, AtLeaf, and_iff_right hnode]; rfl, hopend⟩

end

/-- Settles O31: only BIT enters DONE, which it does exactly at the EOB's leaf; its frame keeps the
output, the count and the input. -/
theorem successIsBitFindingTheEob : Obligations.SuccessIsBitFindingTheEob := by
  intro s t hne hstep
  rcases step_cases hstep with ⟨i, t', hsel, he, rfl⟩ | ⟨hsel, rfl⟩
  · by_cases hbit : ∃ b, i = .bit b
    · obtain ⟨b, rfl⟩ := hbit
      obtain ⟨_, _, hopend, _, rfl⟩ := selectedIn_of_select hsel
      obtain ⟨hdone, hkept⟩ := execBit_done he hne
      have hframe := exec_writesOnly he
      obtain ⟨hout, hcount⟩ := hframe.output_kept nofun nofun nofun
      rw [tick_phase, hdone, AtLeaf, and_assoc]
      exact ⟨(and_iff_right hsel).symm, fun ⟨hnode, hidx, heob⟩ =>
        ⟨(hkept (hdone.mpr ⟨⟨hnode, hidx⟩, heob⟩)).trans hopend, hout, hcount, hframe.input_eq⟩⟩
    · have hnot : t'.phase ≠ 9#4 := fun ht =>
        hbit (eq_bit_of_done_mem (mem_phasesEntered_of_exec (p := .done) he hne ht))
      refine ⟨⟨fun ht => absurd ht hnot, fun ⟨hrun, _⟩ => ?_⟩, fun ht => absurd ht hnot⟩
      rw [hsel, Selected.run.injEq] at hrun
      exact absurd ⟨_, hrun⟩ hbit
  · refine ⟨⟨fun ht => absurd ht hne, fun ⟨hrun, _⟩ => ?_⟩, fun ht => absurd ht hne⟩
    cases hsel.symm.trans hrun

end Sys2Proof.Machine

/-! PROOFS. The exceptions family: what a step that fails writes and which errors each operation raises
(60_exceptions.md R193, R195). -/

namespace Sys2Proof.Machine

section
variable {i : Instr} {s t : State}

/-- An operation enters FAILED only by raising one of its errors. -/
theorem exec_raised (h : exec i s = .next t) (hs : s.phase ≠ Phase.failed.bits)
    (ht : t.phase = Phase.failed.bits) :
    ∃ c ∈ raisable i, t = failedWith c (tokenTaken i s) := by
  cases exec_errEffect h with
  | raised c hc hfail => exact ⟨c, hc, hfail⟩
  | cleared _ _ hp => exact absurd ht hp
  | kept _ hp => exact absurd (hp ht) hs

/-- The whole state that a raise of `i` leaves: all that it loses is the token. -/
theorem failedWith_tokenTaken (c : BitVec 4) (i : Instr) (s : State) :
    failedWith c (tokenTaken i s) = { s with
      input := if i.takesToken then s.input.tail else s.input, err := c, phase := 10#4 } := by
  unfold tokenTaken
  split <;> rfl

end

/-- Settles O24: the operation raised, and the nine codes are 1..9. -/
theorem failureWritesOnlyErrAndPhase : Obligations.FailureWritesOnlyErrAndPhase := by
  intro i s t h hs ht
  obtain ⟨c, hc, rfl⟩ := exec_raised h hs ht
  obtain ⟨h1, h9⟩ := raisable_bounds hc
  exact ⟨h1, h9, failedWith_tokenTaken c i s⟩

/-- Settles O25: the code of a raised state is the one raised. -/
theorem operationsRaiseOnlyTheirErrors : Obligations.OperationsRaiseOnlyTheirErrors := by
  intro i s t h hs ht
  obtain ⟨c, hc, rfl⟩ := exec_raised h hs ht
  exact hc

end Sys2Proof.Machine

/-! PROOFS. The reset and hazards family: what reset leaves (70_reset_and_hazards.md R220, 10_state.md
R41), the two waits of a busy block (R229), and the bound on a session whose host answers (R230). -/

namespace Sys2Proof.Machine

/-! ### What reset leaves (70_reset_and_hazards.md R220, 10_state.md R41) -/

/-- Settles O43: nothing is promised in IDLE. -/
theorem resetMeetsTheInvariant : Obligations.ResetMeetsTheInvariant where
  width := rfl
  count := Nat.two_pow_pos _
  mem := ⟨.nil, nofun⟩
  err := Nat.zero_le 9
  failed := by simp [State.reset, Phase.bits]
  phase := (phaseInv_iff (p := .idle) rfl).mpr trivial

theorem entry_replicate_zero (l : Nat) : entry (Vector.replicate 24 0#9) l = 0 := by
  rcases Nat.lt_or_ge l 24 with h | h
  · simp [entry, readLevel_of_lt h]
  · exact entry_of_ge h

/-- Settles O35: the reset state, too, is a state whose registers were cleared. -/
theorem resetStateIsAllZero : Obligations.ResetStateIsAllZero := by
  intro r hr
  obtain ⟨s, rfl⟩ : ∃ s, r = tick (clearRegisters s) := by
    rcases hr with rfl | ⟨s, hrst, hstep⟩
    · exact ⟨State.reset, rfl⟩
    · have hreset : step s = .next (tick (clearRegisters s)) :=
        step_of_select (select_of_rowSelects (i := .reset) (.inl hrst) hrst)
      exact ⟨s, Host.Outcome.next.inj (hstep.symm.trans hreset)⟩
  have hzero (l : Nat) := entry_replicate_zero l
  exact ⟨rfl, rfl, rfl, rfl, fun l => ⟨hzero l, hzero l, hzero l⟩, rfl, rfl, rfl, rfl, rfl, rfl,
    rfl, rfl, rfl, rfl, rfl, by simp [status, busy, done, fail, Phase.bits]⟩

/-! ### The steps left of an answered session

Each operation of a busy block but an unanswered EMIT brings the end of the session nearer, in every
state, also outside the invariant. A token stands for 17 steps: FETCH and 8 BIT, each with an EMIT
(41_bit_walker.md R141 to R143). -/

/-- A bound of the steps from phase p on that no further token pays for: down the builder's phases
(40_tree_builder.md R119), then the bits of SR and the pending byte. -/
def phaseSteps (s : State) : Phase → Nat
  | .idle => 0
  | .hdrDepth => 53
  | .hdrCounts => 53
  | .sumCheck => 52
  | .eobReserve => 51
  | .symtab => 26 + (24 - s.lidx.toNat)
  | .eobAccount => 25
  | .build => s.lidx.toNat + 1
  | .decode => 2 * s.bl.toNat + s.opend.toNat
  | .done => 0
  | .failed => 0

/-- A bound of the steps to DONE or FAILED with a host that answers (70_reset_and_hazards.md R230). -/
def stepsLeft (s : State) : Nat :=
  17 * s.input.length + ((Phase.ofBits s.phase).map (phaseSteps s)).getD 0

/-- EMIT's put is made and the consumer does not answer (70_reset_and_hazards.md R229). -/
def PutWaits (s : State) : Prop :=
  s.phase = 8#4 ∧ s.opend = true ∧ s.outCount ≠ 2 ^ s.cfg.countW - 1 ∧ s.pins.outReady = false

section
variable {s t : State} {p q : Phase} {i : Instr} {k : Tok}

theorem stepsLeft_eq (hp : s.phase = p.bits) :
    stepsLeft s = 17 * s.input.length + phaseSteps s p := by
  simp [stepsLeft, hp]

theorem phaseSteps_le (s : State) (p : Phase) : phaseSteps s p ≤ 53 := by
  have hlidx := s.lidx.isLt
  have hbl := s.bl.isLt
  have hopend := s.opend.toNat_le
  cases p <;> simp only [phaseSteps] <;> omega

theorem stepsLeft_le (s : State) : stepsLeft s ≤ 17 * s.input.length + 53 := by
  unfold stepsLeft
  cases Phase.ofBits s.phase with
  | none => simp
  | some p => simp [phaseSteps_le]

/-- An operation that takes no token uses up a step of its phase. -/
theorem stepsLeft_lt_of_kept (hp : s.phase = p.bits) (hq : t.phase = q.bits)
    (hinput : t.input = s.input) (h : phaseSteps t q < phaseSteps s p) :
    stepsLeft t < stepsLeft s := by
  rw [stepsLeft_eq hp, stepsLeft_eq hq, hinput]
  omega

/-- An operation that takes a token may add 16 steps to its phase. -/
theorem stepsLeft_lt_of_taken (hp : s.phase = p.bits) (hq : t.phase = q.bits)
    (hk : offered s = some k) (hinput : t.input = s.input.tail)
    (h : phaseSteps t q ≤ phaseSteps s p + 16) : stepsLeft t < stepsLeft s := by
  obtain ⟨_, rest, hrest⟩ := offered_eq_some.mp hk
  rw [stepsLeft_eq hp, stepsLeft_eq hq, hinput, hrest, List.tail_cons, List.length_cons]
  omega

/-- The operations selected in a busy block but RESET. -/
theorem SelectedIn.of_busy (hi : SelectedIn s i) (hrst : s.pins.rst = false)
    (hbusy : busy s = true) : i ≠ .reset ∧ i ≠ .start := by
  refine ⟨?_, ?_⟩
  · rintro rfl
    exact Bool.false_ne_true (hrst.symm.trans hi)
  · rintro rfl
    obtain ⟨_, _, hp | hp | hp⟩ := hi <;> simp [busy, hp, Phase.bits] at hbusy

theorem execSymNext_stepsLeft_lt (hp : s.phase = Phase.symtab.bits)
    (h : execSymNext s = .next t) : stepsLeft t < stepsLeft s := by
  rcases execSymNext_cases h with ⟨_, rfl⟩ | ⟨_, h24, n, _, rfl⟩
  · refine stepsLeft_lt_of_kept hp (q := .eobAccount) rfl rfl ?_
    simp only [phaseSteps]
    omega
  · refine stepsLeft_lt_of_kept hp (q := .symtab) hp rfl ?_
    simp only [phaseSteps, toNat_add_one (r := s.lidx) (by omega)]
    omega

theorem execDerive_stepsLeft_lt (hp : s.phase = Phase.build.bits)
    (h : execDerive s = .next t) : stepsLeft t < stepsLeft s := by
  obtain ⟨n, _, _, ⟨_, rfl⟩ | ⟨h0, rfl⟩⟩ := execDerive_cases h
  · exact stepsLeft_lt_of_kept hp (q := .decode) rfl rfl (Nat.zero_lt_succ _)
  · refine stepsLeft_lt_of_kept hp (q := .build) hp rfl ?_
    simp only [phaseSteps, toNat_sub_one (Nat.pos_of_ne_zero h0)]
    omega

theorem execEmit_stepsLeft_lt (hp : s.phase = Phase.decode.bits) (hopend : s.opend = true)
    (hput : ¬PutWaits s) (h : execEmit s = .next t) : stepsLeft t < stepsLeft s := by
  rcases execEmit_cases h with ⟨_, rfl⟩ | ⟨hmax, hready, _⟩ | ⟨_, _, _, rfl⟩ | ⟨_, _, _, rfl⟩
  · exact stepsLeft_lt_of_kept hp (q := .failed) rfl rfl (by simp [phaseSteps, hopend])
  · exact absurd ⟨hp, hopend, hmax, hready⟩ hput
  · exact stepsLeft_lt_of_kept hp (q := .failed) rfl rfl (by simp [phaseSteps, hopend])
  · exact stepsLeft_lt_of_kept hp (q := .decode) hp rfl (by simp [phaseSteps, hopend])

/-- BIT uses up a bit of SR, which may make one byte pending. -/
theorem execBit_stepsLeft_lt {b : Bool} (hp : s.phase = Phase.decode.bits)
    (hopend : s.opend = false) (h : execBit b s = .next t) : stepsLeft t < stepsLeft s := by
  obtain ⟨bl', code', n, hbl, _, _, hcases⟩ := execBit_cases h
  have hfail : stepsLeft (failedWith 5#4 s) < stepsLeft s :=
    stepsLeft_lt_of_kept hp (q := .failed) rfl rfl (by simp only [phaseSteps]; omega)
  rcases hcases with ⟨_, _, rfl⟩ | ⟨_, _, rfl⟩ | ⟨_, hleaf⟩
  · exact hfail
  · refine stepsLeft_lt_of_kept hp (q := .decode) hp rfl ?_
    simp only [phaseSteps, shifted]
    omega
  · obtain ⟨_, _, ⟨_, rfl⟩ | ⟨_, _, _, ⟨_, rfl⟩ | ⟨_, _, _, rfl⟩⟩⟩ := resolveLeaf_cases hleaf
    · exact hfail
    · refine stepsLeft_lt_of_kept hp (q := .done) rfl rfl ?_
      simp only [phaseSteps]
      omega
    · refine stepsLeft_lt_of_kept hp (q := .decode) hp rfl ?_
      simp only [phaseSteps, shifted, hopend, Bool.toNat_true, Bool.toNat_false]
      omega

/-- Every operation of a busy block but an unanswered put brings the end of the session nearer. -/
theorem exec_stepsLeft_lt (hi : SelectedIn s i) (hreset : i ≠ .reset) (hstart : i ≠ .start)
    (hput : ¬PutWaits s) (he : exec i s = .next t) : stepsLeft t < stepsLeft s := by
  cases i with
  | reset => exact absurd rfl hreset
  | start => exact absurd rfl hstart
  | rdDepth tok =>
    obtain ⟨_, hp, k, hk, _⟩ := hi
    rcases execRdDepth_cases tok s with ⟨_, _, _, _, h⟩ | ⟨_, _, _, h⟩ | ⟨_, h⟩ | ⟨_, h⟩ <;>
      cases h.symm.trans he
    · exact stepsLeft_lt_of_taken hp (q := .hdrCounts) rfl hk rfl (by simp [phaseSteps])
    all_goals exact stepsLeft_lt_of_taken hp (q := .failed) rfl hk rfl (Nat.zero_le _)
  | rdCount tok =>
    obtain ⟨_, hp, k, hk, _⟩ := hi
    rcases execRdCount_cases he with
      ⟨_, _, _, _, _, ⟨_, rfl⟩ | ⟨_, rfl⟩⟩ | ⟨_, rfl⟩ | ⟨_, rfl⟩
    · exact stepsLeft_lt_of_taken hp (q := .sumCheck) rfl hk rfl (by simp [phaseSteps])
    · exact stepsLeft_lt_of_taken hp (q := .hdrCounts) hp hk rfl (by simp [phaseSteps])
    all_goals exact stepsLeft_lt_of_taken hp (q := .failed) rfl hk rfl (Nat.zero_le _)
  | sumchk =>
    obtain ⟨_, hp⟩ := hi
    rcases execSumchk_cases s with ⟨_, h⟩ | ⟨_, h⟩ <;> cases h.symm.trans he
    · exact stepsLeft_lt_of_kept hp (q := .eobReserve) rfl rfl (by simp [phaseSteps])
    · exact stepsLeft_lt_of_kept hp (q := .failed) rfl rfl (by simp [phaseSteps])
  | eobres =>
    obtain ⟨_, hp⟩ := hi
    obtain ⟨_, _, _, _, _, _, _, _, _, rfl⟩ := execEobres_cases he
    exact stepsLeft_lt_of_kept hp (q := .symtab) rfl rfl (by simp [phaseSteps])
  | rdSym tok =>
    obtain ⟨_, hp, _, k, hk, _⟩ := hi
    rcases execRdSym_cases he with ⟨_, _, _, _, _, _, _, rfl⟩ | ⟨_, rfl⟩ | ⟨_, rfl⟩
    · exact stepsLeft_lt_of_taken hp (q := .symtab) hp hk rfl (by simp [phaseSteps])
    all_goals exact stepsLeft_lt_of_taken hp (q := .failed) rfl hk rfl (Nat.zero_le _)
  | symNext =>
    obtain ⟨_, hp, _⟩ := hi
    exact execSymNext_stepsLeft_lt hp he
  | eobacc =>
    obtain ⟨_, hp⟩ := hi
    obtain ⟨l, _, _, hl, _, _, h24, rfl⟩ := execEobacc_cases he
    refine stepsLeft_lt_of_kept hp (q := .build) rfl rfl ?_
    simp only [phaseSteps, toNat_sub_one (r := s.depth) (by omega)]
    omega
  | derive =>
    obtain ⟨_, hp⟩ := hi
    exact execDerive_stepsLeft_lt hp he
  | emit =>
    obtain ⟨_, hp, hopend⟩ := hi
    exact execEmit_stepsLeft_lt hp hopend hput he
  | fetch tok =>
    obtain ⟨_, hp, hopend, _, k, hk, _⟩ := hi
    rcases execFetch_cases tok s with ⟨_, _, h⟩ | ⟨_, h⟩ | ⟨_, h⟩ <;> cases h.symm.trans he
    · refine stepsLeft_lt_of_taken hp (q := .decode) hp hk rfl ?_
      simp [phaseSteps, hopend]
    all_goals exact stepsLeft_lt_of_taken hp (q := .failed) rfl hk rfl (Nat.zero_le _)
  | bit b =>
    obtain ⟨_, hp, hopend, _⟩ := hi
    exact execBit_stepsLeft_lt hp hopend he

end

/-! ### The two waits of a busy block (70_reset_and_hazards.md R229) -/

section
variable {s : State}

theorem offered_eq_none_of_rest {op : Tok → Instr}
    (h : ∀ k, offered s = some k → select s = .run (op k)) (hsel : select s = .rest) :
    offered s = none :=
  Option.eq_none_iff_forall_ne_some.mpr fun k hk => nomatch (h k hk).symm.trans hsel

/-- A busy block rests only where a token is to be taken and none is offered. -/
theorem takesNow_of_rest (hrst : s.pins.rst = false) (herr : s.err.toNat ≤ 9)
    (hbusy : busy s = true) (hsel : select s = .rest) : TakesNow s ∧ offered s = none := by
  have hnot {i : Instr} (hrun : select s = .run i) : TakesNow s ∧ offered s = none :=
    nomatch hrun.symm.trans hsel
  obtain ⟨_, hdepth, hcounts, hsumchk, heobres, hsym, hnext, heobacc, hderive, hemit, hfetch, hbit,
    _⟩ := (stepSelectsByPhase s herr).2 hrst
  obtain ⟨h1, h8⟩ := busy_iff.mp hbusy
  have hphase : s.phase = 1#4 ∨ s.phase = 2#4 ∨ s.phase = 3#4 ∨ s.phase = 4#4 ∨ s.phase = 5#4 ∨
      s.phase = 6#4 ∨ s.phase = 7#4 ∨ s.phase = 8#4 := by bv_omega
  rcases hphase with hp | hp | hp | hp | hp | hp | hp | hp
  · exact ⟨.inl hp, offered_eq_none_of_rest (hdepth hp).1 hsel⟩
  · exact ⟨.inr (.inl hp), offered_eq_none_of_rest (hcounts hp).1 hsel⟩
  · exact hnot (hsumchk hp)
  · exact hnot (heobres hp)
  · rcases Nat.eq_zero_or_pos s.rem.toNat with hrem | hrem
    · exact hnot (hnext hp hrem)
    · exact ⟨.inr (.inr (.inl ⟨hp, hrem⟩)), offered_eq_none_of_rest (hsym hp hrem).1 hsel⟩
  · exact hnot (heobacc hp)
  · exact hnot (hderive hp)
  · cases hopend : s.opend with
    | true => exact hnot (hemit hp hopend)
    | false =>
      rcases Nat.eq_zero_or_pos s.bl.toNat with hbl | hbl
      · exact ⟨.inr (.inr (.inr ⟨hp, hopend, hbl⟩)),
          offered_eq_none_of_rest (hfetch hp hopend hbl).1 hsel⟩
      · exact hnot (hbit hp hopend hbl)

end

/-- Settles O10: a step that runs an operation without waiting leaves fewer steps of the session, so it
changes the state; a wait selects no operation, or an EMIT that leaves the state as it is. -/
theorem busyBlockWaitsInTwoSituations : Obligations.BusyBlockWaitsInTwoSituations := by
  intro s hrst herr h1 h8
  have hbusy : busy s = true := busy_iff.mpr ⟨h1, h8⟩
  constructor
  · intro hstep
    rcases step_cases hstep with ⟨i, t, hsel, he, ht⟩ | ⟨hsel, _⟩
    · have hi := selectedIn_of_select hsel
      obtain ⟨hreset, hstart⟩ := hi.of_busy hrst hbusy
      refine .inr (by_contra fun hput => ?_)
      have hlt := exec_stepsLeft_lt hi hreset hstart hput he
      have hsame : stepsLeft s = stepsLeft t := (congrArg stepsLeft ht :)
      omega
    · exact .inl (takesNow_of_rest hrst herr hbusy hsel)
  · rintro (⟨htakes, hk⟩ | ⟨hp, hopend, hmax, hready⟩)
    · exact step_of_rest (select_eq_rest (.inr herr) (.inr (htakes.decode_eq_waiting hrst hk)))
    · obtain ⟨_, hwait, _⟩ := emitHandsOneByteToTheConsumer s
      exact step_of_rowSelects herr (i := .emit) ⟨hrst, hp, hopend⟩ (hwait hmax hready)

/-! ### A session whose host answers (70_reset_and_hazards.md R230) -/

/-- The input is bytes and then End (30_encoding.md R83). -/
def AwaitsEnd (ks : List Tok) : Prop := ∃ bs, ks = byteTokens bs ++ [Token.eod.toBits]

/-- The session is over (42_descriptor_lifecycle.md R173, 60_exceptions.md R195). -/
def Ended (s : State) : Prop := s.phase = 9#4 ∨ s.phase = 10#4

section
variable {s t : State} {i : Instr} {ks : List Tok}

/-- The next token is End, or a byte before the rest. -/
theorem AwaitsEnd.cons (h : AwaitsEnd ks) :
    ∃ k rest, ks = k :: rest ∧ (Token.ofBits k = .eod ∨ AwaitsEnd rest) := by
  obtain ⟨bs, rfl⟩ := h
  cases bs with
  | nil => exact ⟨_, _, rfl, .inl (Token.ofBits_toBits .eod)⟩
  | cons b bs => exact ⟨_, _, rfl, .inr ⟨bs, rfl⟩⟩

/-- Each operation that takes End raises (60_exceptions.md R193). -/
theorem exec_eod_phase {k : Tok} (hi : SelectedIn s i) (htakes : i.takesToken = true)
    (hk : offered s = some k) (hend : Token.ofBits k = .eod) (he : exec i s = .next t) :
    t.phase = 10#4 := by
  have heod {tok : Token} (htok : ∃ k, offered s = some k ∧ Token.ofBits k = tok) :
      tok = .eod := by
    obtain ⟨k', hk', rfl⟩ := htok
    rwa [Option.some.inj (hk'.symm.trans hk)]
  cases i with
  | rdDepth | rdCount =>
    obtain ⟨_, _, htok⟩ := hi
    cases heod htok
    cases he
    rfl
  | rdSym =>
    obtain ⟨_, _, _, htok⟩ := hi
    cases heod htok
    cases he
    rfl
  | fetch =>
    obtain ⟨_, _, _, _, htok⟩ := hi
    cases heod htok
    cases he
    rfl
  | _ => cases htakes

theorem eq_reset_of_idle_mem (h : .idle ∈ phasesEntered i) : i = .reset := by
  cases i <;> simp_all

/-- Only RESET enters IDLE, so a busy block stays busy or ends its session. -/
theorem busy_or_ended_of_exec (hbusy : busy s = true) (hreset : i ≠ .reset)
    (he : exec i s = .next t) : busy t = true ∨ Ended t := by
  rcases exec_phase he with hkept | ⟨p, hp, ht⟩
  · exact .inl (by rwa [busy, hkept])
  · rw [busy, Ended, ht]
    cases p with
    | idle => exact absurd (eq_reset_of_idle_mem hp) hreset
    | _ => simp [Phase.bits]

/-- The tokens left after an operation that takes none or a byte. -/
theorem awaitsEnd_or_ended_of_exec (hinput : AwaitsEnd s.input) (hi : SelectedIn s i)
    (he : exec i s = .next t) : AwaitsEnd t.input ∨ Ended t := by
  rw [(exec_writesOnly he).input_eq]
  cases htakes : i.takesToken with
  | false => exact .inl hinput
  | true =>
    obtain ⟨k, hk⟩ := hi.offered_of_takesToken htakes
    obtain ⟨_, rest, hrest⟩ := offered_eq_some.mp hk
    obtain ⟨k', rest', hcons, htoken⟩ := hinput.cons
    obtain ⟨rfl, rfl⟩ := List.cons.inj (hrest.symm.trans hcons)
    rcases htoken with hend | hbyte
    · exact .inr (.inr (exec_eod_phase hi htakes hk hend he))
    · exact .inl (by rwa [hrest])

/-- A host that offers a token and accepts a byte leaves a busy block nothing to wait for. -/
theorem exists_run_of_ready (hinv : Inv s) (hbusy : busy s = true) (hinput : AwaitsEnd s.input)
    (hpins : s.pins = Pins.ready) : ∃ i, select s = .run i := by
  cases hsel : select s with
  | run i => exact ⟨i, rfl⟩
  | refuse r => exact absurd hsel (hinv.select_ne_refuse r)
  | rest =>
    obtain ⟨k, rest, hcons, _⟩ := hinput.cons
    obtain ⟨_, hnone⟩ := takesNow_of_rest (congrArg Pins.rst hpins) hinv.err hbusy hsel
    have hk : offered s = some k :=
      offered_eq_some.mpr ⟨congrArg Pins.inValid hpins, rest, hcons⟩
    cases hnone.symm.trans hk

/-- What an answered step of a busy block leaves. -/
theorem step_of_ready (hinv : Inv s) (hbusy : busy s = true) (hinput : AwaitsEnd s.input)
    (hpins : s.pins = Pins.ready) :
    ∃ t, step s = .next t ∧ Inv t ∧ t.schedule = s.schedule.tail ∧
      stepsLeft t < stepsLeft s ∧ (Ended t ∨ busy t = true ∧ AwaitsEnd t.input) := by
  obtain ⟨i, hsel⟩ := exists_run_of_ready hinv hbusy hinput hpins
  have hi := selectedIn_of_select hsel
  obtain ⟨hreset, hstart⟩ := hi.of_busy (congrArg Pins.rst hpins) hbusy
  have hput : ¬PutWaits s := fun ⟨_, _, _, hready⟩ =>
    Bool.false_ne_true (hready.symm.trans (congrArg Pins.outReady hpins))
  obtain ⟨u, he⟩ := exec_answers (hinv.not_stopsWith hi)
  obtain ⟨_, hschedule⟩ := (exec_writesOnly he).host_kept
  refine ⟨tick u, by rw [step_of_select hsel, he, endStep_next], (hinv.exec_next hi he).tick,
    congrArg List.tail hschedule, (exec_stepsLeft_lt hi hreset hstart hput he :), ?_⟩
  rcases busy_or_ended_of_exec hbusy hreset he with hbusy' | hended
  · exact (awaitsEnd_or_ended_of_exec hinput hi he).symm.imp_right fun h => ⟨hbusy', h⟩
  · exact .inl hended

/-- An answered session is over within its steps left. -/
theorem exists_ended_of_stepsLeft {n : Nat} {later : List Pins} (hinv : Inv s)
    (hbusy : busy s = true) (hinput : AwaitsEnd s.input) (hn : stepsLeft s ≤ n)
    (hschedule : s.schedule = readySchedule n ++ later) :
    ∃ k t, k ≤ n ∧ Host.Core.run core k s = .next t ∧ Ended t := by
  induction n generalizing s with
  | zero =>
    obtain ⟨k, rest, hcons, _⟩ := hinput.cons
    simp [stepsLeft, hcons] at hn
  | succ n ih =>
    obtain ⟨u, hstep, hinv', hrest, hlt, hnext⟩ :=
      step_of_ready hinv hbusy hinput (pins_cons hschedule)
    rcases hnext with hended | ⟨hbusy', hinput'⟩
    · exact ⟨1, u, Nat.le_add_left 1 n, run_succ_of_step hstep, hended⟩
    · obtain ⟨k, t, hk, hrun, hended⟩ :=
        ih hinv' hbusy' hinput' (by omega) (by rw [hrest, hschedule]; rfl)
      exact ⟨k + 1, t, Nat.succ_le_succ hk, (run_succ_of_step hstep).trans hrun, hended⟩

end

/-- Settles O48: every answered step lowers the steps left, at most 17 for each token and 53 more at the
start, until the session is over. -/
theorem answeredSessionEnds : Obligations.AnsweredSessionEnds := by
  intro s bs later hinv h1 h8 hinput hschedule
  refine exists_ended_of_stepsLeft hinv (busy_iff.mpr ⟨h1, h8⟩) ⟨bs, hinput⟩ ?_ hschedule
  have hbound := stepsLeft_le s
  have hlength : s.input.length = bs.length + 1 := by simp [hinput, byteTokens]
  omega

end Sys2Proof.Machine
